-- ==== Sys2Proof/Word.lean ====
section
/-! DEFINITION. The word types of the block: bytes of M and of a stream, 16-bit counts, 32-bit registers. -/

namespace Sys2Proof

/-- One byte of the shared memory or of a stream (00_scope.md, section 4). -/
abbrev Byte := BitVec 8

/-- A block count field, 16 bits unsigned (00_scope.md R7). -/
abbrev Count := BitVec 16

/-- A register, a latched operand, a cursor or a header: 32 bits (00_scope.md R6, R8). -/
abbrev Word := BitVec 32

/-- The 32-bit word with value `n`, for an `n` that the rules keep below 2^32. -/
abbrev Word.ofNat (n : Nat) : Word := BitVec.ofNat 32 n

end Sys2Proof
end

