-- ==== Sys2Proof/Config.lean ====
section
/-! DEFINITION. The fixed parameters of the block, the OPEN parameter REG_BASE, and the free values. -/

namespace Sys2Proof.Config

/-- T, the trigger threshold: fixed, not configurable (00_scope.md R4). -/
def threshold : Nat := 7

/-- The reset value of CFG: MAXBLK = 65535, reserved bits 0 (10_state.md R22, 70_reset_and_hazards.md R260). -/
def cfgReset : Word := 0x0000FFFF#32

/-- M has 2^ADDR_W bytes with ADDR_W = 32 (00_scope.md R8, 20_memory.md R70). -/
def memSize : Nat := 4294967296

/-- REG_BASE, OPEN: no rule depends on its value (00_scope.md R9). Log 10. -/
opaque regBase : Nat

/-- FREE VALUE: the byte at an address of M that nothing has written since power-on. Log 1. -/
opaque initialByte : Nat → Byte

/-- FREE VALUE: the byte that draw `d` gives at an address (60_exceptions.md R235, 20_memory.md R83 and R84). Logs 2, 3. -/
opaque freeByte : Nat → Nat → Byte

/-- FREE VALUE: the word that draw `d` gives (10_state.md R29, R36; 41_control.md R137). Log 3. -/
opaque freeWord : Nat → Word

end Sys2Proof.Config
end

