-- ==== Sys2Proof/Syntax.lean ====
section
/-! DEFINITION. The instructions: the elements of a CompressLab RLE stream (00_scope.md R2, 30_encoding.md R107). -/

namespace Sys2Proof

/-- One element of a stream, a constructor per row of spec/opcode_table.json. -/
inductive Instr where
  /-- HDR (30_encoding.md R101): `length` is the original byte length of the source. -/
  | hdr (length : Word)
  /-- RPT (30_encoding.md R103): `count` consecutive occurrences of `value`. -/
  | rpt (count : Count) (value : Byte)
  /-- LIT (30_encoding.md R104): the payload bytes, copied verbatim. Its count field is their number (log 19). -/
  | lit (payload : List Byte)
  deriving DecidableEq, Repr

end Sys2Proof
end

