-- ==== Sys2Proof/WellFormed.lean ====
section
/-! DEFINITION. Which instructions have an encoding. -/

namespace Sys2Proof

/-- A LIT has at most 65535 payload bytes, what its 16-bit count can say (00_scope.md R7, 30_encoding.md R109).
Every HDR and every RPT has an encoding. -/
def Instr.wellFormed : Instr → Bool
  | .hdr _ => true
  | .rpt _ _ => true
  | .lit payload => decide (payload.length < 65536)

end Sys2Proof
end

