-- ==== Sys2Proof/Decode.lean ====
section
/-! DEFINITION. Byte order, the decoder from bytes to instructions (total, rejecting by name) and the encoder. -/

namespace Sys2Proof

/-- `le16(b0, b1)`: the byte at the lower address is the least significant (00_scope.md section 4, 20_memory.md R75). -/
def le16 (b0 b1 : Byte) : Count := b1 ++ b0

/-- `le32(b0, b1, b2, b3)` (00_scope.md section 4, 20_memory.md R75). -/
def le32 (b0 b1 b2 b3 : Byte) : Word := b3 ++ b2 ++ b1 ++ b0

/-- `enc16(x)` (00_scope.md section 4). -/
def enc16 (x : Count) : List Byte := [x.extractLsb' 0 8, x.extractLsb' 8 8]

/-- `enc32(x)` (00_scope.md section 4). -/
def enc32 (x : Word) : List Byte :=
  [x.extractLsb' 0 8, x.extractLsb' 8 8, x.extractLsb' 16 8, x.extractLsb' 24 8]

/-- The tag of a repeat block (30_encoding.md R103). -/
def tagRpt : Byte := 0x00#8

/-- The tag of a literal block (30_encoding.md R104). -/
def tagLit : Byte := 0x01#8

/-- Where an element stands: the header is recognised by being at stream offset 0, a block by its tag at every later
offset (30_encoding.md R101, R102). -/
inductive Position where
  | header
  | block
  deriving DecidableEq, Repr

/-- Why bytes are no element. -/
inductive DecodeError where
  /-- The element extends past the end of the stream (60_exceptions.md R232). -/
  | truncated
  /-- The tag is neither 0x00 nor 0x01 (30_encoding.md R108). -/
  | illegalTag (tag : Byte)
  deriving DecidableEq, Repr

/-- The header at stream offset 0, and the bytes after it (42_decoder.md R157). -/
def decodeHeader : List Byte → Except DecodeError (Instr × List Byte)
  | b0 :: b1 :: b2 :: b3 :: rest => .ok (.hdr (le32 b0 b1 b2 b3), rest)
  | _ => .error .truncated

/-- The fields of a repeat block after its tag (42_decoder.md R154). -/
def decodeRpt : List Byte → Except DecodeError (Instr × List Byte)
  | c0 :: c1 :: v :: rest => .ok (.rpt (le16 c0 c1) v, rest)
  | _ => .error .truncated

/-- The fields of a literal block after its tag: the count field, then the payload (42_decoder.md R155). -/
def decodeLit : List Byte → Except DecodeError (Instr × List Byte)
  | c0 :: c1 :: rest =>
    let count := (le16 c0 c1).toNat
    if (rest.take count).length < count then .error .truncated
    else .ok (.lit (rest.take count), rest.drop count)
  | _ => .error .truncated

/-- The block at the head of the bytes, and the bytes after it. The tag is checked before any other field is read
(42_decoder.md R153). -/
def decodeBlock : List Byte → Except DecodeError (Instr × List Byte)
  | [] => .error .truncated
  | tag :: rest =>
    if tag = tagRpt then decodeRpt rest
    else if tag = tagLit then decodeLit rest
    else .error (.illegalTag tag)

/-- The element at the head of the bytes, read as the position says. -/
def decodeAt : Position → List Byte → Except DecodeError (Instr × List Byte)
  | .header, bytes => decodeHeader bytes
  | .block, bytes => decodeBlock bytes

/-- Where an instruction stands in a stream. -/
def Instr.position : Instr → Position
  | .hdr _ => .header
  | .rpt _ _ => .block
  | .lit _ => .block

/-- The bytes of an instruction (30_encoding.md R101, R103, R104). -/
def encode : Instr → List Byte
  | .hdr length => enc32 length
  | .rpt count value => tagRpt :: (enc16 count ++ [value])
  | .lit payload => tagLit :: (enc16 (BitVec.ofNat 16 payload.length) ++ payload)

/-- The number of stream bytes of an instruction: 4 for HDR and RPT, 3 + count for LIT (30_encoding.md R106). -/
def Instr.length : Instr → Nat
  | .hdr _ => 4
  | .rpt _ _ => 4
  | .lit payload => 3 + payload.length

/-- The bytes an instruction denotes: what a decode of it appends (30_encoding.md R103, R104). -/
def Instr.expand : Instr → List Byte
  | .hdr _ => []
  | .rpt count value => List.replicate count.toNat value
  | .lit payload => payload

/-- The number of source bytes a block covers: its count (43_encoder.md R198). -/
def Instr.count : Instr → Nat
  | .hdr _ => 0
  | .rpt count _ => count.toNat
  | .lit payload => payload.length

/-- The first `k` bytes of a table word, least significant first. -/
def wordBytes (w : Nat) : Nat → List Byte
  | 0 => []
  | k + 1 => BitVec.ofNat 8 w :: wordBytes (w / 256) k

/-- Which position a table word stands at. A table word carries no position, while HDR is known by its position
alone: a 32-bit word whose low byte is not the tag of RPT is read as HDR, every other word as a block. Log 14. -/
def tablePosition (nbits w : Nat) : Position :=
  if nbits = 32 ∧ w % 256 ≠ 0 then .header else .block

/-- The number of bytes of the element whose first bits are `w`: 3 + count for a LIT block, else 4
(30_encoding.md R106). -/
def tableLength (position : Position) (w : Nat) : Nat :=
  match position with
  | .header => 4
  | .block => if w % 256 = 1 then 3 + w / 256 % 65536 else 4

/-- The bytes of the element whose bits are `w`, the bits above `nbits` being 0. -/
def tableBytes (nbits w : Nat) : List Byte :=
  wordBytes (w % 2 ^ nbits) (tableLength (tablePosition nbits w) (w % 2 ^ nbits))

/-- The instruction the decoder reads from a word numbered as spec/opcode_table.json numbers it. -/
def decodeTableWord (nbits w : Nat) : Option Instr :=
  match decodeAt (tablePosition nbits w) (tableBytes nbits w) with
  | .ok (i, _) => some i
  | .error _ => none

end Sys2Proof
end

