-- ==== Sys2Proof/Machine/State.lean ====
section
/-! DEFINITION. The state of the system (10_state.md R20) as plain data, its reset value, and the model's stops. -/

namespace Sys2Proof.Machine

/-- Why the machine stops with a fault. -/
inductive Fault where
  /-- An access to an address that M does not have (20_memory.md R70: addresses 0 to 2^32 - 1). Raised by a host access
  past the end of M, and by an engine whose latched window passes 2^32, which no accepted START leaves
  (41_control.md R132, R134). Safe: the machine stops. Log 12. -/
  | noSuchAddress
  deriving DecidableEq, Repr

/-- Why a step has no meaning. -/
inductive Refusal where
  /-- An instruction whose meaning is not written yet, raised by an arm of `exec`. Safe. No arm raises it. -/
  | notModelled (mnemonic : String)
  /-- The refused mark is set: the run broke a host duty and has no meaning (10_state.md R52). Raised by `step`. Safe.
  Log 7. -/
  | runRefused
  deriving DecidableEq, Repr

/-- The two engines (00_scope.md R3). -/
inductive Engine where
  | enc
  | dec
  deriving DecidableEq, Repr

/-- The error codes that are ever written to STATUS.ERR; 5 to 15 are not (60_exceptions.md R230). -/
inductive ErrCode where
  | none
  | format
  | truncated
  | overflow
  | config
  deriving DecidableEq, Repr

/-- The fields both STATUS registers have (10_state.md R24, R31, R41 to R43). -/
structure Status where
  busy : Bool
  done : Bool
  err : ErrCode
  deriving DecidableEq, Repr

/-- The registers each engine has: the operands and the output length of ENC (10_state.md R25 to R29) or DEC (R32 to
R36), and its STATUS. -/
structure EngineRegs where
  srcBase : Word
  srcLen : Word
  dstBase : Word
  dstCap : Word
  outLen : Word
  status : Status
  deriving DecidableEq, Repr

/-- The operands START latches: src, n, dst, cap (10_state.md R45, R46). -/
structure Latched where
  src : Word
  n : Word
  dst : Word
  cap : Word
  deriving DecidableEq, Repr

/-- ENC.phase (10_state.md R45). -/
inductive EncPhase where
  | idle
  | hdr
  | iter
  deriving DecidableEq, Repr

/-- DEC.phase (10_state.md R46). -/
inductive DecPhase where
  | idle
  | hdr
  | blk
  deriving DecidableEq, Repr

/-- The encoder engine's internal state ENC (10_state.md R45, R48, R49). -/
structure EncEngine where
  phase : EncPhase
  job : Latched
  maxblk : BitVec 16
  pos : Word
  wr : Word
  deriving DecidableEq, Repr

/-- The decoder engine's internal state DEC (10_state.md R46, R47, R49). `rd` is its program counter. -/
structure DecEngine where
  phase : DecPhase
  job : Latched
  rd : Word
  wr : Word
  hdr : Word
  deriving DecidableEq, Repr

/-- An address range of M (20_memory.md R72). Bounds are unbounded integers. -/
structure Window where
  base : Nat
  size : Nat
  deriving DecidableEq, Repr

/-- A window whose bytes became any value, and the number of the draw that gave them. Log 2. -/
structure Unspecified where
  window : Window
  draw : Nat
  deriving DecidableEq, Repr

/-- The shared data memory M (20_memory.md R70): the bytes whose value is determined, by rising address, and the windows
made unspecified, newest first. A byte that is in no cell reads as a free value. Logs 1, 2. -/
structure Memory where
  cells : List Host.Cell
  unspecified : List Unspecified
  deriving DecidableEq, Repr

/-- The implemented registers (10_state.md R21). -/
inductive Reg where
  | cfg
  | encCtrl
  | encStatus
  | encSrcBase
  | encSrcLen
  | encDstBase
  | encDstCap
  | encOutLen
  | decCtrl
  | decStatus
  | decSrcBase
  | decSrcLen
  | decDstBase
  | decDstCap
  | decOutLen
  | decHdrLen
  | decErrOff
  deriving DecidableEq, Repr

/-- The width of a host register access (10_state.md R40). -/
inductive AccessWidth where
  | byte
  | halfword
  | word
  /-- Any other width, such as 64 bits. No such access is of the interface (93_implementation_defined.md I17), so neither
  its exact width nor the rest of its data matters. -/
  | other
  deriving DecidableEq, Repr

/-- What can happen next: an access of the host, the reset input, or a step of an engine. Log 4. -/
inductive Event where
  /-- A host register write at REG_BASE + offset. -/
  | regWrite (width : AccessWidth) (offset : Nat) (value : Word)
  /-- A host register read at REG_BASE + offset. -/
  | regRead (width : AccessWidth) (offset : Nat)
  /-- A host write of bytes to M, the first at `addr`. -/
  | memWrite (addr : Nat) (bytes : List Byte)
  /-- A host read of `len` bytes of M, the first at `addr`. -/
  | memRead (addr : Nat) (len : Nat)
  /-- The reset input (70_reset_and_hazards.md R260). -/
  | reset
  /-- A step of the encoder engine (43_encoder.md R202). -/
  | encStep
  /-- A step of the decoder engine (42_decoder.md R151). -/
  | decStep
  deriving DecidableEq, Repr

/-- The data of a host read. Log 11. -/
inductive Response where
  | none
  | word (value : Word)
  | bytes (values : List Byte)
  deriving DecidableEq, Repr

/-- The state of the system. `agenda`, `response` and `draws` are the model's own fields (logs 4, 11, 3). -/
structure State where
  cfg : Word
  encRegs : EngineRegs
  decRegs : EngineRegs
  lenmm : Bool
  hdrLen : Word
  errOff : Word
  enc : EncEngine
  dec : DecEngine
  mem : Memory
  refused : Bool
  agenda : List Event
  response : Response
  draws : Nat
  deriving DecidableEq, Repr

/-- STATUS after reset: BUSY = DONE = 0 and ERR = 0 (70_reset_and_hazards.md R260). -/
def Status.reset : Status := { busy := false, done := false, err := .none }

/-- An engine's registers after reset: all 0 (70_reset_and_hazards.md R260). -/
def EngineRegs.reset : EngineRegs :=
  { srcBase := 0#32, srcLen := 0#32, dstBase := 0#32, dstCap := 0#32, outLen := 0#32, status := Status.reset }

/-- Latched operands at reset: unspecified, and never read while the engine is idle (10_state.md R45, R46). Log 9. -/
def Latched.reset : Latched := { src := 0#32, n := 0#32, dst := 0#32, cap := 0#32 }

/-- ENC at reset: idle; the other fields are unspecified and zero here. Log 9. -/
def EncEngine.reset : EncEngine :=
  { phase := .idle, job := Latched.reset, maxblk := 0#16, pos := 0#32, wr := 0#32 }

/-- DEC at reset: idle; the other fields are unspecified and zero here. Log 9. -/
def DecEngine.reset : DecEngine :=
  { phase := .idle, job := Latched.reset, rd := 0#32, wr := 0#32, hdr := 0#32 }

/-- M as it is before anything is written: nothing is determined. Log 1. -/
def Memory.powerOn : Memory := { cells := [], unspecified := [] }

/-- The system right after reset (70_reset_and_hazards.md R260), with nothing written to M and nothing on the agenda. -/
def State.reset : State :=
  { cfg := Config.cfgReset
    encRegs := EngineRegs.reset
    decRegs := EngineRegs.reset
    lenmm := false
    hdrLen := 0#32
    errOff := 0#32
    enc := EncEngine.reset
    dec := DecEngine.reset
    mem := Memory.powerOn
    refused := false
    agenda := []
    response := .none
    draws := 0 }

end Sys2Proof.Machine
end

