-- ==== Sys2Proof/Machine/Flags.lean ====
section
/-! DEFINITION. The STATUS words and every update of their flags (10_state.md R24, R31, R41 to R44). -/

namespace Sys2Proof.Machine

/-- The numeric error code (60_exceptions.md R230). -/
def ErrCode.code : ErrCode → BitVec 4
  | .none => 0#4
  | .format => 1#4
  | .truncated => 2#4
  | .overflow => 3#4
  | .config => 4#4

/-- The STATUS word: BUSY [0], DONE [1], `bit2` [2], 0 [3], ERR [7:4], 0 [31:8] (10_state.md R24, R31). -/
def Status.word (st : Status) (bit2 : Bool) : Word :=
  0#24 ++ st.err.code ++ 0#1 ++ BitVec.ofBool bit2 ++ BitVec.ofBool st.done ++ BitVec.ofBool st.busy

/-- STATUS of an operation that an accepted START began (41_control.md R131, R133). -/
def Status.started : Status := { busy := true, done := false, err := .none }

/-- STATUS of an operation that ended: BUSY 0, DONE 1, ERR as given, NONE for a completion (42_decoder.md R158,
60_exceptions.md R235). -/
def Status.ended (err : ErrCode) : Status := { busy := false, done := true, err := err }

/-- OUT_LEN reads as any value while BUSY = 1 and after an operation that ended with ERR ≠ 0 (10_state.md R29, R36). -/
def Status.outLenOpen (st : Status) : Bool := st.busy || st.err != .none

end Sys2Proof.Machine
end

