-- ==== Sys2Proof/Machine/Ops.lean ====
section
/-! DEFINITION. The named operations over memory, registers and engines, and fault entry, once for all meanings. -/

namespace Sys2Proof.Machine

/-! ## Windows -/

/-- The address lies in the window. -/
abbrev Window.contains (w : Window) (a : Nat) : Prop := w.base ≤ a ∧ a < w.base + w.size

/-- The windows intersect; an empty window meets nothing (41_control.md R132 (d), 20_memory.md R72). -/
abbrev Window.meets (v w : Window) : Prop :=
  0 < v.size ∧ 0 < w.size ∧ v.base < w.base + w.size ∧ w.base < v.base + v.size

/-- Every address of `v` is an address of `w`. -/
abbrev Window.within (v w : Window) : Prop := w.base ≤ v.base ∧ v.base + v.size ≤ w.base + w.size

/-- The window does not pass 2^32 (20_memory.md R72). -/
abbrev Window.inMemory (w : Window) : Prop := w.base + w.size ≤ Config.memSize

/-- The SRC window `[src, src + n)` (20_memory.md R72). -/
def Latched.srcWindow (j : Latched) : Window := { base := j.src.toNat, size := j.n.toNat }

/-- The DST window `[dst, dst + cap)` (20_memory.md R72). -/
def Latched.dstWindow (j : Latched) : Window := { base := j.dst.toNat, size := j.cap.toNat }

/-! ## Memory -/

/-- The byte in the cells at an address, if there is one. -/
def cellAt : List Host.Cell → Nat → Option Byte
  | [], _ => none
  | (b, v) :: cells, a => if a = b then some v else cellAt cells a

/-- What an address in no cell reads as: the byte of the newest draw that covers it, else the byte it held at power-on.
Logs 1, 2. -/
def Memory.openByte (m : Memory) (a : Nat) : Byte :=
  match m.unspecified.find? (fun u => decide (u.window.contains a)) with
  | some u => Config.freeByte u.draw a
  | none => Config.initialByte a

/-- `MemRead(a, 1)` for an address of M (20_memory.md R71). -/
def Memory.read (m : Memory) (a : Nat) : Byte :=
  match cellAt m.cells a with
  | some v => v
  | none => m.openByte a

/-- The `k` bytes from address `a` on. -/
def Memory.readBytes (m : Memory) (a : Nat) : Nat → List Byte
  | 0 => []
  | k + 1 => m.read a :: m.readBytes (a + 1) k

/-- `k` reads from address `a` on, or nothing where one of them is no address of M. -/
def Memory.load (m : Memory) (a k : Nat) : Option (List Byte) :=
  if a + k ≤ Config.memSize then some (m.readBytes a k) else none

/-- The cells that hold `bytes` from address `a` on. -/
def layOut : Nat → List Byte → List Host.Cell
  | _, [] => []
  | a, b :: bytes => (a, b) :: layOut (a + 1) bytes

/-- The cells outside a range. -/
def cellsBelow (cells : List Host.Cell) (a : Nat) : List Host.Cell := cells.filter (fun c => decide (c.1 < a))

/-- The cells at or above an address. -/
def cellsFrom (cells : List Host.Cell) (a : Nat) : List Host.Cell := cells.filter (fun c => decide (a ≤ c.1))

/-- The memory with `bytes` from address `a` on. -/
def Memory.writeBytes (m : Memory) (a : Nat) (bytes : List Byte) : Memory :=
  { m with cells := cellsBelow m.cells a ++ layOut a bytes ++ cellsFrom m.cells (a + bytes.length) }

/-- `MemWrite(a + k, 1, bytes[k])` for every k, or nothing where one of them is no address of M (20_memory.md R71). -/
def Memory.store (m : Memory) (a : Nat) (bytes : List Byte) : Option Memory :=
  if a + bytes.length ≤ Config.memSize then some (m.writeBytes a bytes) else none

/-- Every byte of the window becomes any value: draw number `draw`. A window wholly inside it says nothing any more.
Log 2. -/
def Memory.unspecify (m : Memory) (w : Window) (draw : Nat) : Memory :=
  if w.size = 0 then m
  else
    { cells := cellsBelow m.cells w.base ++ cellsFrom m.cells (w.base + w.size)
      unspecified := { window := w, draw := draw } ::
        m.unspecified.filter (fun u => decide (¬ u.window.within w)) }

/-- The canonical form of a memory: cells by strictly rising address, all in M; unspecified windows non-empty, in M, and
none wholly inside a newer one. An address in no cell has no determined value, so no cell can repeat it. Log 1. -/
abbrev Memory.wf (m : Memory) : Prop :=
  m.cells.Pairwise (fun x y => x.1 < y.1) ∧
  (∀ c ∈ m.cells, c.1 < Config.memSize) ∧
  (∀ u ∈ m.unspecified, 0 < u.window.size ∧ u.window.inMemory) ∧
  m.unspecified.Pairwise (fun newer older => ¬ older.window.within newer.window)

/-! ## Engines -/

/-- The registers of an engine. -/
def State.regs (s : State) : Engine → EngineRegs
  | .enc => s.encRegs
  | .dec => s.decRegs

/-- The latched operands of an engine. -/
def State.job (s : State) : Engine → Latched
  | .enc => s.enc.job
  | .dec => s.dec.job

/-- STATUS.BUSY of an engine (10_state.md R41). -/
def State.busy (s : State) (e : Engine) : Bool := (s.regs e).status.busy

/-- The state with an engine's STATUS fields replaced. -/
def State.setStatus (s : State) (e : Engine) (st : Status) : State :=
  match e with
  | .enc => { s with encRegs := { s.encRegs with status := st } }
  | .dec => { s with decRegs := { s.decRegs with status := st } }

/-- The state with an engine's OUT_LEN replaced. -/
def State.setOutLen (s : State) (e : Engine) (len : Word) : State :=
  match e with
  | .enc => { s with encRegs := { s.encRegs with outLen := len } }
  | .dec => { s with decRegs := { s.decRegs with outLen := len } }

/-- The engine goes to phase IDLE. -/
def State.toIdle (s : State) (e : Engine) : State :=
  match e with
  | .enc => { s with enc := { s.enc with phase := .idle } }
  | .dec => { s with dec := { s.dec with phase := .idle } }

/-- A window of M becomes any value, by a fresh draw. Log 2. -/
def State.unspecify (s : State) (w : Window) : State :=
  { s with mem := s.mem.unspecify w s.draws, draws := s.draws + 1 }

/-- `CrossOverlap()`: the DST window of either engine intersects a window of the other (20_memory.md R85). -/
abbrev State.crossOverlap (s : State) : Prop :=
  s.enc.job.dstWindow.meets s.dec.job.srcWindow ∨
  s.enc.job.dstWindow.meets s.dec.job.dstWindow ∨
  s.dec.job.dstWindow.meets s.enc.job.srcWindow

/-! ## Faults -/

/-- What a fault does to the registers and the phase: STATUS.ERR, BUSY 0, DONE 1; for the decoder ERR_OFF and LENMM 0;
phase IDLE (60_exceptions.md R235). OUT_LEN is any value from here on because ERR ≠ 0 (`Status.outLenOpen`). -/
def State.faultStatus (s : State) (e : Engine) (err : ErrCode) (off : Word) : State :=
  match e with
  | .enc => (s.setStatus .enc (.ended err)).toIdle .enc
  | .dec => { (s.setStatus .dec (.ended err)).toIdle .dec with errOff := off, lenmm := false }

/-- FAULT ENTRY, `raise err(off)` in an engine step: the registers and the phase as `faultStatus` says, and every byte of
the operation's DST window any value (60_exceptions.md R235). The encoder has no ERR_OFF: `off` is not used there. -/
def State.raiseFault (s : State) (e : Engine) (err : ErrCode) (off : Word) : State :=
  (s.faultStatus e err off).unspecify (s.job e).dstWindow

/-- RETURN FROM A FAULT: what every accepted START clears. DONE, ERR; for the decoder LENMM, HDR_LEN and ERR_OFF too
(60_exceptions.md R241; 41_control.md R131, R133). -/
def State.clearOutcome (s : State) (e : Engine) : State :=
  match e with
  | .enc => s.setStatus .enc { busy := s.encRegs.status.busy, done := false, err := .none }
  | .dec =>
    { s.setStatus .dec { busy := s.decRegs.status.busy, done := false, err := .none } with
        lenmm := false, hdrLen := 0#32, errOff := 0#32 }

/-- A successful completion: OUT_LEN, STATUS, phase IDLE, and the DST bytes beyond the output any value
(42_decoder.md R158, 43_encoder.md R202, 20_memory.md R83). -/
def State.complete (s : State) (e : Engine) (wr : Word) : State :=
  ((((s.setOutLen e wr).setStatus e (.ended .none)).toIdle e)).unspecify
    { base := (s.job e).dst.toNat + wr.toNat, size := (s.job e).cap.toNat - wr.toNat }

end Sys2Proof.Machine
end

