-- ==== Sys2Proof/Machine/Operands.lean ====
section
/-! DEFINITION. Where an engine's operands come from: stream bytes, source bytes (20_memory.md R74). -/

namespace Sys2Proof.Machine

/-- The bytes of the longest element: a LIT with 65535 payload bytes (30_encoding.md R104). -/
def longestElement : Nat := 65538

/-- The position of the next element: the header in phase HDR, a block in phase BLK (42_decoder.md R157, R152). -/
def DecEngine.position (d : DecEngine) : Position :=
  match d.phase with
  | .hdr => .header
  | _ => .block

/-- The stream offset of the next element: 0 for the header (30_encoding.md R101), else the read cursor
(10_state.md R47). -/
def DecEngine.offset (d : DecEngine) : Nat :=
  match d.phase with
  | .hdr => 0
  | _ => d.rd.toNat

/-- The unread stream bytes, `s[i] = MemRead(DEC.src + i, 1)` for the offset ≤ i < n, as far as one element can reach
(42_decoder.md R151, R152). -/
def State.fetch (s : State) : Option (List Byte) :=
  s.mem.load (s.dec.job.src.toNat + s.dec.offset) (min (s.dec.job.n.toNat - s.dec.offset) longestElement)

/-- The remaining source, `S[i] = MemRead(ENC.src + i, 1)` for pos ≤ i < n (43_encoder.md R180, 10_state.md R48). -/
def State.remainingSource (s : State) : Option (List Byte) :=
  s.mem.load (s.enc.job.src.toNat + s.enc.pos.toNat) (s.enc.job.n.toNat - s.enc.pos.toNat)

end Sys2Proof.Machine
end

