-- ==== Sys2Proof/Machine/Decoder.lean ====
section
/-! DEFINITION. The meanings of HDR, RPT and LIT: what the decoder engine does for each (42_decoder.md R154, R155,
R157). Log 23. -/

namespace Sys2Proof.Machine

/-- Append the `count` bytes `out` to the decoder's output and advance the read cursor by `len` (10_state.md R47, R49).
Output byte k goes to address dst + wr + k (20_memory.md R74). Log 12. -/
def State.appendDecoded (s : State) (count : Nat) (out : List Byte) (len : Nat) : Host.Outcome State Fault Refusal :=
  if Config.memSize < s.dec.job.dst.toNat + s.dec.wr.toNat + count then .fault .noSuchAddress
  else
    .next { s with
      mem := s.mem.writeBytes (s.dec.job.dst.toNat + s.dec.wr.toNat) out
      dec := { s.dec with
        wr := Word.ofNat (s.dec.wr.toNat + count)
        rd := Word.ofNat (s.dec.rd.toNat + len) } }

/-- What RPT and LIT share: a block of `len` stream bytes that denotes the `count` bytes `out`. TRUNCATED before OVERFLOW
(60_exceptions.md R238); a reported block writes no byte itself. -/
def State.decodeBlockInto (s : State) (count : Nat) (out : List Byte) (len : Nat) : Host.Outcome State Fault Refusal :=
  if s.dec.job.n.toNat < s.dec.rd.toNat + len then .next (s.raiseFault .dec .truncated s.dec.rd)
  else if s.dec.job.cap.toNat < s.dec.wr.toNat + count then .next (s.raiseFault .dec .overflow s.dec.rd)
  else s.appendDecoded count out len

/-- HDR (42_decoder.md R157). The header is not compared with anything (R163). -/
def execHdr (length : Word) (s : State) : Host.Outcome State Fault Refusal :=
  if s.dec.job.n.toNat < 4 then .next (s.raiseFault .dec .truncated 0#32)
  else
    .next { s with
      hdrLen := length
      dec := { s.dec with hdr := length, rd := 4#32, phase := .blk } }

/-- RPT (42_decoder.md R154). -/
def execRpt (count : Count) (value : Byte) (s : State) : Host.Outcome State Fault Refusal :=
  s.decodeBlockInto count.toNat (List.replicate count.toNat value) 4

/-- LIT (42_decoder.md R155). Its two TRUNCATED checks record the same offset, and the second holds wherever the first
does. -/
def execLit (payload : List Byte) (s : State) : Host.Outcome State Fault Refusal :=
  s.decodeBlockInto payload.length payload (3 + payload.length)

end Sys2Proof.Machine
end

