-- ==== Sys2Proof/Machine/Dispatch.lean ====
section
/-! DEFINITION. The meaning of every instruction, one arm each. -/

namespace Sys2Proof.Machine

def exec (i : Instr) (s : State) : Host.Outcome State Fault Refusal :=
  match i with
  | .hdr length => Sys2Proof.Machine.execHdr length s
  | .rpt count value => Sys2Proof.Machine.execRpt count value s
  | .lit payload => Sys2Proof.Machine.execLit payload s

end Sys2Proof.Machine
end

