-- ==== Sys2Proof/Machine/Partition.lean ====
section
/-! DEFINITION. The function Encode of a source and a MaxBlockSize (43_encoder.md R180), which the encoder engine computes.
In every definition `rest` is the remaining source, the bytes from `pos` on. -/

namespace Sys2Proof.Machine

/-- How many of the leading bytes equal `v`, at most `cap`. -/
def leadingEqual (v : Byte) : Nat → List Byte → Nat
  | 0, _ => 0
  | _ + 1, [] => 0
  | cap + 1, b :: bytes => if b = v then leadingEqual v cap bytes + 1 else 0

/-- BLOCK SIZE: `bs = min(rem, M)` (43_encoder.md R182, R190). -/
def blockSize (maxBlock : Nat) (rest : List Byte) : Nat := min rest.length maxBlock

/-- The scan of FindRun from candidate `p` on, over the bytes of the block from `p` on. A candidate that mismatches at
`q` is followed by candidate `q` (43_encoder.md R183). Each turn moves on by at least 1, so a fuel of the block's size
is never used up. -/
def findRunFrom : Nat → Nat → List Byte → Option Nat
  | 0, _, _ => none
  | _ + 1, _, [] => none
  | fuel + 1, p, b :: bytes =>
    if (b :: bytes).length < Config.threshold then none
    else
      let equal := leadingEqual b (Config.threshold - 1) bytes
      if equal = Config.threshold - 1 then some p
      else findRunFrom fuel (p + 1 + equal) (bytes.drop equal)

/-- RUN DETECTOR: `FindRun` over the block (43_encoder.md R183). -/
def findRun (block : List Byte) : Option Nat := findRunFrom block.length 0 block

/-- BACKWARD TRIM: one past the last position that differs from the block's last byte (43_encoder.md R187). Where no
byte differs this is 0, the empty prefix of 90_conflicts.md C2, which R188 excludes for MaxBlockSize ≥ 7. Log 18. -/
def trimBoundary (block : List Byte) : Nat :=
  match block.reverse with
  | [] => 0
  | last :: _ => block.length - leadingEqual last block.length block.reverse

/-- PARTITIONER: the length of the literal prefix (43_encoder.md R185, R186, R187). -/
def prefixLength (maxBlock : Nat) (rest : List Byte) : Nat :=
  let bs := blockSize maxBlock rest
  match findRun (rest.take bs) with
  | some start => start
  | none => if bs = rest.length then bs else trimBoundary (rest.take bs)

/-- LITERAL EMISSION: an empty literal block is never emitted (43_encoder.md R189). -/
def literalBlocks (lit : List Byte) : List Instr :=
  match lit with
  | [] => []
  | _ :: _ => [.lit lit]

/-- RUN EXTENSION AND REPEAT EMISSION at a run start: `rest` begins with the run (43_encoder.md R190, R191, R192). -/
def repeatBlocks (maxBlock : Nat) (rest : List Byte) : List Instr :=
  match rest with
  | [] => []
  | v :: _ =>
    let bs2 := blockSize maxBlock rest
    let count := Config.threshold + leadingEqual v (bs2 - Config.threshold) (rest.drop Config.threshold)
    [.rpt (BitVec.ofNat 16 count) v]

/-- One outer iteration: the blocks it emits for the remaining source (43_encoder.md R180, R182 to R192). -/
def iteration (maxBlock : Nat) (rest : List Byte) : List Instr :=
  let plen := prefixLength maxBlock rest
  literalBlocks (rest.take plen) ++
    match findRun (rest.take (blockSize maxBlock rest)) with
    | none => []
    | some _ => repeatBlocks maxBlock (rest.drop plen)

/-- The number of source bytes some blocks cover (43_encoder.md R198). -/
def covered (blocks : List Instr) : Nat := (blocks.map Instr.count).sum

/-- The outer loop: the blocks of the remaining source. For MaxBlockSize ≥ 7 each turn consumes at least 1 byte
(43_encoder.md R193), so a fuel of the source's length is never used up. -/
def partitionFrom : Nat → Nat → List Byte → List Instr
  | 0, _, _ => []
  | _ + 1, _, [] => []
  | fuel + 1, maxBlock, b :: bytes =>
    let blocks := iteration maxBlock (b :: bytes)
    blocks ++ partitionFrom fuel maxBlock ((b :: bytes).drop (covered blocks))

/-- The blocks `Encode(S, M)` emits, in order. -/
def partitionSource (maxBlock : Nat) (source : List Byte) : List Instr :=
  partitionFrom source.length maxBlock source

/-- HEADER EMISSION: the source length as 4 bytes (43_encoder.md R181). -/
def headerOf (length : Nat) : Instr := .hdr (Word.ofNat length)

/-- `Encode(S, M)` (43_encoder.md R180). -/
def encodeStream (source : List Byte) (maxBlock : Nat) : List Byte :=
  encode (headerOf source.length) ++ (partitionSource maxBlock source).flatMap encode

end Sys2Proof.Machine
end

