-- ==== Sys2Proof/Machine/Encoder.lean ====
section
/-! DEFINITION. The steps of the encoder engine (43_encoder.md R202). -/

namespace Sys2Proof.Machine

/-- Append one block to the encoder's output and advance `pos` by the source bytes it covers (43_encoder.md R202,
10_state.md R48, R49). -/
def State.appendEncoded (s : State) (m : Memory) (block : Instr) : State :=
  { s with
    mem := m
    enc := { s.enc with
      wr := Word.ofNat (s.enc.wr.toNat + (encode block).length)
      pos := Word.ofNat (s.enc.pos.toNat + block.count) } }

/-- Append the blocks of one iteration in order, each checked against the capacity before it is written
(43_encoder.md R202, 60_exceptions.md R239). -/
def emitBlocks : List Instr → State → Host.Outcome State Fault Refusal
  | [], s => .next s
  | block :: blocks, s =>
    if s.enc.job.cap.toNat < s.enc.wr.toNat + (encode block).length then .next (s.raiseFault .enc .overflow 0#32)
    else
      match s.mem.store (s.enc.job.dst.toNat + s.enc.wr.toNat) (encode block) with
      | none => .fault .noSuchAddress
      | some m => emitBlocks blocks (s.appendEncoded m block)

/-- The step in phase HDR (43_encoder.md R202, R181). -/
def encHeaderStep (s : State) : Host.Outcome State Fault Refusal :=
  if s.enc.job.cap.toNat < 4 then .next (s.raiseFault .enc .overflow 0#32)
  else
    match s.mem.store s.enc.job.dst.toNat (encode (.hdr s.enc.job.n)) with
    | none => .fault .noSuchAddress
    | some m => .next { s with mem := m, enc := { s.enc with wr := 4#32, pos := 0#32, phase := .iter } }

/-- The step in phase ITER with source left: one outer iteration (43_encoder.md R202). -/
def encIterationStep (s : State) : Host.Outcome State Fault Refusal :=
  match s.remainingSource with
  | none => .fault .noSuchAddress
  | some rest => emitBlocks (iteration s.enc.maxblk.toNat rest) s

/-- One step of the encoder engine; an idle engine takes none (43_encoder.md R202). Logs 6, 16, 17. -/
def encStep (s : State) : Host.Outcome State Fault Refusal :=
  match s.enc.phase with
  | .idle => .next s
  | .hdr => encHeaderStep s
  | .iter =>
    if s.enc.pos.toNat < s.enc.job.n.toNat then encIterationStep s
    else .next (s.complete .enc s.enc.wr)

end Sys2Proof.Machine
end

