-- ==== Sys2Proof/Machine/HostPort.lean ====
section
/-! DEFINITION. What the host does to the block: register accesses, START commands, accesses to M, and the reset input
(41_control.md, 20_memory.md R82 to R86, 70_reset_and_hazards.md R260 and R261). -/

namespace Sys2Proof.Machine

/-! ## The register map -/

/-- The offset of a register (10_state.md R21). -/
def Reg.offset : Reg → Nat
  | .cfg => 0x00
  | .encCtrl => 0x10
  | .encStatus => 0x14
  | .encSrcBase => 0x18
  | .encSrcLen => 0x1C
  | .encDstBase => 0x20
  | .encDstCap => 0x24
  | .encOutLen => 0x28
  | .decCtrl => 0x30
  | .decStatus => 0x34
  | .decSrcBase => 0x38
  | .decSrcLen => 0x3C
  | .decDstBase => 0x40
  | .decDstCap => 0x44
  | .decOutLen => 0x48
  | .decHdrLen => 0x4C
  | .decErrOff => 0x50

/-- The implemented registers, by rising offset (10_state.md R21). -/
def implementedRegs : List Reg :=
  [.cfg, .encCtrl, .encStatus, .encSrcBase, .encSrcLen, .encDstBase, .encDstCap, .encOutLen,
   .decCtrl, .decStatus, .decSrcBase, .decSrcLen, .decDstBase, .decDstCap, .decOutLen, .decHdrLen, .decErrOff]

/-- The register at an offset, if the offset is not reserved (10_state.md R21, R39). -/
def regAt (offset : Nat) : Option Reg := implementedRegs.find? (fun r => r.offset == offset)

/-- The register block has 64 word slots, 256 bytes (10_state.md R21). -/
def regBlockBytes : Nat := 256

/-- An access of the interface: an aligned 32-bit word at an offset in [0x00, 0xFC] (10_state.md R40). -/
abbrev regAccessAllowed (width : AccessWidth) (offset : Nat) : Prop :=
  width = .word ∧ offset % 4 = 0 ∧ offset < regBlockBytes

/-- The address in the host's space of an offset of the register block (00_scope.md R9). Log 10. -/
def regAddress (offset : Nat) : Nat := Config.regBase + offset

/-- The offset of an address in the host's space, for an address of the register block or above (00_scope.md R9).
Log 10. -/
def regOffset (address : Nat) : Option Nat :=
  if Config.regBase ≤ address then some (address - Config.regBase) else none

/-- The implemented bits of CFG (41_control.md R130). -/
def cfgMask : Word := 0x0000FFFF#32

/-- The field CFG.MAXBLK (10_state.md R22). -/
def State.maxblkField (s : State) : BitVec 16 := s.cfg.extractLsb' 0 16

/-! ## Register reads -/

/-- OUT_LEN as a read gives it: any value, by the read's own draw, while BUSY and after a fault (10_state.md R29, R36).
Log 3. -/
def State.readOutLen (s : State) (e : Engine) : Word :=
  if (s.regs e).status.outLenOpen then Config.freeWord s.draws else (s.regs e).outLen

/-- The value a word read of a register returns (41_control.md R137); ENC_CTRL and DEC_CTRL read 0 (10_state.md R23,
R30). -/
def State.readReg (s : State) : Reg → Word
  | .cfg => s.cfg
  | .encCtrl => 0#32
  | .encStatus => s.encRegs.status.word false
  | .encSrcBase => s.encRegs.srcBase
  | .encSrcLen => s.encRegs.srcLen
  | .encDstBase => s.encRegs.dstBase
  | .encDstCap => s.encRegs.dstCap
  | .encOutLen => s.readOutLen .enc
  | .decCtrl => 0#32
  | .decStatus => s.decRegs.status.word s.lenmm
  | .decSrcBase => s.decRegs.srcBase
  | .decSrcLen => s.decRegs.srcLen
  | .decDstBase => s.decRegs.dstBase
  | .decDstCap => s.decRegs.dstCap
  | .decOutLen => s.readOutLen .dec
  | .decHdrLen => s.hdrLen
  | .decErrOff => s.errOff

/-- The value a word read at an offset returns; a reserved offset reads 0 (10_state.md R39). -/
def State.readOffset (s : State) (offset : Nat) : Word :=
  match regAt offset with
  | some r => s.readReg r
  | none => 0#32

/-- A host register read. Any access outside the interface sets the refused mark (10_state.md R40). Logs 8, 11. -/
def State.hostRegRead (s : State) (width : AccessWidth) (offset : Nat) : State :=
  if regAccessAllowed width offset then
    { s with response := .word (s.readOffset offset), draws := s.draws + 1 }
  else { s with refused := true }

/-! ## START commands -/

/-- `EncConfigBad()` over the latched operands (41_control.md R132). -/
abbrev EncEngine.configBad (d : EncEngine) : Prop :=
  d.maxblk.toNat < Config.threshold ∨ ¬ d.job.srcWindow.inMemory ∨ ¬ d.job.dstWindow.inMemory ∨
  d.job.srcWindow.meets d.job.dstWindow

/-- `DecConfigBad()` over the latched operands (41_control.md R134). CFG is not checked. -/
abbrev DecEngine.configBad (d : DecEngine) : Prop :=
  ¬ d.job.srcWindow.inMemory ∨ ¬ d.job.dstWindow.inMemory ∨ d.job.srcWindow.meets d.job.dstWindow

/-- The operands in an engine's registers, as START latches them (10_state.md R45, R46). -/
def EngineRegs.operands (r : EngineRegs) : Latched :=
  { src := r.srcBase, n := r.srcLen, dst := r.dstBase, cap := r.dstCap }

/-- The refused mark is set if the other engine is busy and the windows overlap (20_memory.md R85). -/
def State.checkOverlap (s : State) (other : Engine) : State :=
  if s.busy other = true ∧ s.crossOverlap then { s with refused := true } else s

/-- What an encode START latches and clears, before any check (41_control.md R131). -/
def State.encLatch (s : State) : State :=
  { s.clearOutcome .enc with enc := { s.enc with job := s.encRegs.operands, maxblk := s.maxblkField } }

/-- What an encode START that passed its checks sets (41_control.md R131). -/
def State.encBegin (s : State) : State :=
  { s.setStatus .enc .started with enc := { s.enc with pos := 0#32, wr := 0#32, phase := .hdr } }

/-- ENC START (41_control.md R131); ignored while the engine is busy (R135). CONFIG is a fault entry that touches no
byte of M (60_exceptions.md R234). -/
def State.encStart (s : State) : State :=
  if s.busy .enc = true then s
  else if s.encLatch.enc.configBad then s.encLatch.faultStatus .enc .config 0#32
  else (s.encLatch.checkOverlap .dec).encBegin

/-- What a decode START latches and clears, before any check (41_control.md R133). -/
def State.decLatch (s : State) : State :=
  { s.clearOutcome .dec with dec := { s.dec with job := s.decRegs.operands } }

/-- What a decode START that passed its checks sets (41_control.md R133). -/
def State.decBegin (s : State) : State :=
  { s.setStatus .dec .started with dec := { s.dec with rd := 0#32, wr := 0#32, hdr := 0#32, phase := .hdr } }

/-- DEC START (41_control.md R133); ignored while the engine is busy (R135). -/
def State.decStart (s : State) : State :=
  if s.busy .dec = true then s
  else if s.decLatch.dec.configBad then s.decLatch.faultStatus .dec .config 0#32
  else (s.decLatch.checkOverlap .enc).decBegin

/-! ## Register writes -/

/-- The START bit of a value written to a CTRL register (10_state.md R23, R30). -/
def startBit (value : Word) : Bool := value.getLsbD 0

/-- A word write of a register: a RW register stores its implemented bits (41_control.md R130), a CTRL register starts
its engine if bit 0 is 1 (R131, R133), a RO register ignores the write (R136). -/
def State.writeReg (s : State) (r : Reg) (value : Word) : State :=
  match r with
  | .cfg => { s with cfg := value &&& cfgMask }
  | .encCtrl => if startBit value then s.encStart else s
  | .encStatus => s
  | .encSrcBase => { s with encRegs := { s.encRegs with srcBase := value } }
  | .encSrcLen => { s with encRegs := { s.encRegs with srcLen := value } }
  | .encDstBase => { s with encRegs := { s.encRegs with dstBase := value } }
  | .encDstCap => { s with encRegs := { s.encRegs with dstCap := value } }
  | .encOutLen => s
  | .decCtrl => if startBit value then s.decStart else s
  | .decStatus => s
  | .decSrcBase => { s with decRegs := { s.decRegs with srcBase := value } }
  | .decSrcLen => { s with decRegs := { s.decRegs with srcLen := value } }
  | .decDstBase => { s with decRegs := { s.decRegs with dstBase := value } }
  | .decDstCap => { s with decRegs := { s.decRegs with dstCap := value } }
  | .decOutLen => s
  | .decHdrLen => s
  | .decErrOff => s

/-- A host register write. A reserved offset ignores it (10_state.md R39); any access outside the interface sets the
refused mark (R40). Log 8. -/
def State.hostRegWrite (s : State) (width : AccessWidth) (offset : Nat) (value : Word) : State :=
  if regAccessAllowed width offset then
    match regAt offset with
    | some r => s.writeReg r value
    | none => s
  else { s with refused := true }

/-! ## Accesses to M -/

/-- The address lies in the DST window of a busy engine (20_memory.md R84). -/
abbrev State.inBusyDst (s : State) (a : Nat) : Prop :=
  (s.busy .enc = true ∧ s.enc.job.dstWindow.contains a) ∨ (s.busy .dec = true ∧ s.dec.job.dstWindow.contains a)

/-- The byte a host read of M returns: any value, by the read's own draw, in the DST window of a busy engine, else M's
byte (20_memory.md R84). Logs 3, 15. -/
def State.hostByte (s : State) (a : Nat) : Byte :=
  if s.inBusyDst a then Config.freeByte s.draws a else s.mem.read a

/-- The bytes a host read of `len` bytes returns. -/
def State.hostBytes (s : State) (a : Nat) : Nat → List Byte
  | 0 => []
  | len + 1 => s.hostByte a :: s.hostBytes (a + 1) len

/-- A host read of M (20_memory.md R84). All its bytes are read at one moment, the model's choice. Logs 11, 12, 22. -/
def State.hostMemRead (s : State) (a len : Nat) : Host.Outcome State Fault Refusal :=
  if a + len ≤ Config.memSize then
    .next { s with response := .bytes (s.hostBytes a len), draws := s.draws + 1 }
  else .fault .noSuchAddress

/-- A host write of the range would touch a window of a busy engine (20_memory.md R84). -/
abbrev State.writeMeetsBusy (s : State) (w : Window) : Prop :=
  (s.busy .enc = true ∧ (w.meets s.enc.job.srcWindow ∨ w.meets s.enc.job.dstWindow)) ∨
  (s.busy .dec = true ∧ (w.meets s.dec.job.srcWindow ∨ w.meets s.dec.job.dstWindow))

/-- A host write of bytes to M; a write to a busy engine's window sets the refused mark (20_memory.md R84).
Logs 8, 12, 22. -/
def State.hostMemWrite (s : State) (a : Nat) (bytes : List Byte) : Host.Outcome State Fault Refusal :=
  match s.mem.store a bytes with
  | none => .fault .noSuchAddress
  | some m =>
    if s.writeMeetsBusy { base := a, size := bytes.length } then .next { s with refused := true }
    else .next { s with mem := m }

/-! ## Reset -/

/-- The DST window of a busy engine becomes any value when a reset abandons its operation (70_reset_and_hazards.md
R261). -/
def State.abandon (s : State) (e : Engine) : State :=
  if s.busy e = true then s.unspecify (s.job e).dstWindow else s

/-- The reset input: the block as State.reset has it; M but for abandoned DST windows, the refused mark and the model's
own fields stay (70_reset_and_hazards.md R260, R261). -/
def State.applyReset (s : State) : State :=
  let t := (s.abandon .enc).abandon .dec
  { State.reset with
    mem := t.mem
    refused := t.refused
    agenda := t.agenda
    response := t.response
    draws := t.draws }

end Sys2Proof.Machine
end

