-- ==== Sys2Proof/Machine/Stream.lean ====
section
/-! DEFINITION. The function Decode of a byte sequence (42_decoder.md R150), which the decoder engine computes. -/

namespace Sys2Proof.Machine

/-- The value of `Decode(s)`: `Ok(hdr, out)` or `Err(code, off)` (42_decoder.md R150). -/
inductive StreamResult where
  | ok (hdr : Word) (out : List Byte)
  | err (code : ErrCode) (off : Nat)
  deriving DecidableEq, Repr

/-- The error a rejected element raises (60_exceptions.md R231, R232). -/
def errOf : DecodeError → ErrCode
  | .truncated => .truncated
  | .illegalTag _ => .format

/-- The loop of Decode: `bytes` is the unread input, `off` its offset, `out` the output so far. Each turn consumes at
least 3 bytes (42_decoder.md R159), so a fuel of the input's length is never used up. -/
def decodeBlocks : Nat → Word → Nat → List Byte → List Byte → StreamResult
  | _, hdr, _, [], out => .ok hdr out
  | 0, _, off, _ :: _, _ => .err .truncated off
  | fuel + 1, hdr, off, b :: bytes, out =>
    match decodeBlock (b :: bytes) with
    | .error e => .err (errOf e) off
    | .ok (i, rest) => decodeBlocks fuel hdr (off + i.length) rest (out ++ i.expand)

/-- `Decode(s)` (42_decoder.md R150). -/
def decodeStream (s : List Byte) : StreamResult :=
  match decodeHeader s with
  | .ok (.hdr length, rest) => decodeBlocks rest.length length 4 rest []
  | _ => .err .truncated 0

/-- Assembly of a listing: the bytes of its lines in order (30_encoding.md R112, R113). -/
def assemble (listing : List Instr) : List Byte := listing.flatMap encode

/-- Disassembly of the bytes after the header: the blocks read, and the bytes from the first illegal or truncated block
on, which are printed as `.byte` (30_encoding.md R113). -/
def disassembleBlocks : Nat → List Byte → List Instr × List Byte
  | _, [] => ([], [])
  | 0, b :: bytes => ([], b :: bytes)
  | fuel + 1, b :: bytes =>
    match decodeBlock (b :: bytes) with
    | .error _ => ([], b :: bytes)
    | .ok (i, rest) => (i :: (disassembleBlocks fuel rest).1, (disassembleBlocks fuel rest).2)

/-- Disassembly of a byte sequence: offset 0 gives HDR, each later offset a block (30_encoding.md R113). A sequence of
fewer than 4 bytes gives no HDR line and all its bytes as `.byte`: R113 does not say, and this is the model's choice
(DESIGN CHOICE, log 24). -/
def disassemble (s : List Byte) : List Instr × List Byte :=
  match decodeHeader s with
  | .ok (i, rest) => (i :: (disassembleBlocks rest.length rest).1, (disassembleBlocks rest.length rest).2)
  | .error _ => ([], s)

end Sys2Proof.Machine
end

