-- ==== Sys2Proof/Machine/Schedule.lean ====
section
/-! DEFINITION. A step of the decoder engine (fetch, decode, execute or complete), and which agent moves next. -/

namespace Sys2Proof.Machine

/-- The header or block step: fetch the next element and run it, or raise what its bytes are rejected for, at its own
offset (42_decoder.md R151, R153, R156; 60_exceptions.md R231, R232). -/
def decElementStep (s : State) : Host.Outcome State Fault Refusal :=
  match s.fetch with
  | none => .fault .noSuchAddress
  | some bytes =>
    match decodeAt s.dec.position bytes with
    | .ok (i, _) => exec i s
    | .error e => .next (s.raiseFault .dec (errOf e) (Word.ofNat s.dec.offset))

/-- Completion (42_decoder.md R158). -/
def decCompletion (s : State) : State :=
  { s.complete .dec s.dec.wr with lenmm := decide (s.dec.wr ≠ s.dec.hdr) }

/-- One step of the decoder engine; an idle engine takes none (42_decoder.md R151, R152). Logs 6, 16, 17. -/
def decStep (s : State) : Host.Outcome State Fault Refusal :=
  match s.dec.phase with
  | .idle => .next s
  | .hdr => decElementStep s
  | .blk =>
    if s.dec.rd.toNat < s.dec.job.n.toNat then decElementStep s
    else .next (decCompletion s)

/-- What an event does. -/
def runEvent (event : Event) (s : State) : Host.Outcome State Fault Refusal :=
  match event with
  | .regWrite width offset value => .next (s.hostRegWrite width offset value)
  | .regRead width offset => .next (s.hostRegRead width offset)
  | .memWrite addr bytes => s.hostMemWrite addr bytes
  | .memRead addr len => s.hostMemRead addr len
  | .reset => .next s.applyReset
  | .encStep => encStep s
  | .decStep => decStep s

/-- Who moves when the agenda is empty: the decoder if it is not idle, else the encoder if it is not idle, else nobody.
Every busy engine moves on until it is idle (70_reset_and_hazards.md R269). Logs 5, 20. -/
def runEngines (s : State) : Host.Outcome State Fault Refusal :=
  if s.dec.phase ≠ .idle then decStep s
  else if s.enc.phase ≠ .idle then encStep s
  else .next s

/-- The next move: the head of the agenda, taken off it first. Log 4. -/
def runNext (s : State) : Host.Outcome State Fault Refusal :=
  match s.agenda with
  | [] => runEngines s
  | event :: rest => runEvent event { s with agenda := rest }

/-- The state in which the very next step fetches the element whose bytes are given, standing where `position` says:
the stream lies from address 0 on, the decoder is busy with an empty output, and the agenda's next event is a decoder
step. Log 14. -/
def State.withElement (s : State) (position : Position) (bytes : List Byte) : State :=
  let offset : Nat := match position with
    | .header => 0
    | .block => 4
  { s with
    mem := s.mem.writeBytes offset bytes
    decRegs := { s.decRegs with status := .started }
    lenmm := false
    hdrLen := 0#32
    errOff := 0#32
    dec :=
      { phase := match position with
          | .header => .hdr
          | .block => .blk
        job := { src := 0#32, n := Word.ofNat (offset + bytes.length), dst := 0x80000000#32, cap := 0x0000FFFF#32 }
        rd := Word.ofNat offset
        wr := 0#32
        hdr := 0#32 }
    refused := false
    agenda := match s.agenda with
      | [] => []
      | event :: rest => .decStep :: event :: rest }

end Sys2Proof.Machine
end

