-- ==== Sys2Proof/Machine/Step.lean ====
section
/-! DEFINITION. One step of the machine, and how a table word is placed for its next fetch. -/

namespace Sys2Proof.Machine

/-- One step: a run with the refused mark set has no meaning (10_state.md R52); else the next move. -/
def step (s : State) : Host.Outcome State Fault Refusal :=
  if s.refused = true then .refused .runRefused else runNext s

/-- The state in which the very next step runs the element whose bits are `w`. Log 14. -/
def State.withFetchWord (s : State) (nbits w : Nat) : State :=
  s.withElement (tablePosition nbits w) (tableBytes nbits w)

end Sys2Proof.Machine
end

