-- ==== Sys2Proof/Safety.lean ====
section
/-! DEFINITION. What a safe run keeps: the invariant of the state and the duties of the host. -/

namespace Sys2Proof.Machine

/-- What holds of the encoder engine, its registers and its STATUS in every state. -/
structure EncInv (s : State) : Prop where
  /-- BUSY = 1 and DONE = 1 never hold together (10_state.md R24). -/
  exclusive : ¬ (s.encRegs.status.busy = true ∧ s.encRegs.status.done = true)
  /-- ERR ≠ 0 only when DONE = 1 (10_state.md R24). -/
  errDone : s.encRegs.status.err ≠ .none → s.encRegs.status.done = true
  /-- The encoder reports only NONE, OVERFLOW and CONFIG (60_exceptions.md R240). -/
  errKind : s.encRegs.status.err = .none ∨ s.encRegs.status.err = .overflow ∨ s.encRegs.status.err = .config
  /-- BUSY = 1 exactly while an operation is in progress (10_state.md R24, R45). -/
  busyPhase : s.encRegs.status.busy = true ↔ s.enc.phase ≠ .idle
  /-- A busy engine's windows lie in M and do not intersect, and MAXBLK is legal (20_memory.md R72, 41_control.md R132). -/
  accepted : s.enc.phase ≠ .idle → ¬ s.enc.configBad
  /-- Before the header step nothing is consumed or written (41_control.md R131). -/
  hdrPhase : s.enc.phase = .hdr → s.enc.pos = 0#32 ∧ s.enc.wr = 0#32
  /-- `pos` never exceeds n and `wr` never exceeds cap; the header is written (10_state.md R48, R49). -/
  iterPhase : s.enc.phase = .iter →
    s.enc.pos.toNat ≤ s.enc.job.n.toNat ∧ 4 ≤ s.enc.wr.toNat ∧ s.enc.wr.toNat ≤ s.enc.job.cap.toNat

/-- What holds of the decoder engine, its registers and its STATUS in every state. -/
structure DecInv (s : State) : Prop where
  /-- BUSY = 1 and DONE = 1 never hold together (10_state.md R31). -/
  exclusive : ¬ (s.decRegs.status.busy = true ∧ s.decRegs.status.done = true)
  /-- ERR ≠ 0 only when DONE = 1 (10_state.md R43). -/
  errDone : s.decRegs.status.err ≠ .none → s.decRegs.status.done = true
  /-- LENMM is set only by a decode that ended without error (10_state.md R31, R44). -/
  lenmmDone : s.lenmm = true → s.decRegs.status = Status.ended .none
  /-- After a decode that ended without error LENMM tells whether the lengths differ (10_state.md R31). -/
  lenmmMeans : s.decRegs.status = Status.ended .none → (s.lenmm = true ↔ s.decRegs.outLen ≠ s.hdrLen)
  /-- ERR_OFF is 0 unless the last decode ended with an error (10_state.md R38). -/
  errOff : s.decRegs.status.err = .none → s.errOff = 0#32
  /-- BUSY = 1 exactly while an operation is in progress (10_state.md R31, R46). -/
  busyPhase : s.decRegs.status.busy = true ↔ s.dec.phase ≠ .idle
  /-- A busy engine's windows lie in M and do not intersect (20_memory.md R72, 41_control.md R134). -/
  accepted : s.dec.phase ≠ .idle → ¬ s.dec.configBad
  /-- Before the header step nothing is read or written (41_control.md R133). -/
  hdrPhase : s.dec.phase = .hdr → s.dec.rd = 0#32 ∧ s.dec.wr = 0#32 ∧ s.hdrLen = 0#32
  /-- The cursor is past the header and never exceeds n; `wr` never exceeds cap; HDR_LEN shows the header
  (10_state.md R37, R47, R49). -/
  blkPhase : s.dec.phase = .blk →
    4 ≤ s.dec.rd.toNat ∧ s.dec.rd.toNat ≤ s.dec.job.n.toNat ∧ s.dec.wr.toNat ≤ s.dec.job.cap.toNat ∧
    s.hdrLen = s.dec.hdr

/-- The invariant of the system. -/
structure Invariant (s : State) : Prop where
  /-- M is in its canonical form. Log 1. -/
  memWf : s.mem.wf
  /-- Every draw of an unspecified window is one already made. Log 2. -/
  drawn : ∀ u ∈ s.mem.unspecified, u.draw < s.draws
  /-- The reserved bits of CFG are 0 (10_state.md R22). -/
  cfgReserved : s.cfg &&& ~~~cfgMask = 0#32
  enc : EncInv s
  dec : DecInv s
  /-- Two busy engines whose windows overlap only in a refused run (20_memory.md R85). -/
  apart : s.enc.phase ≠ .idle → s.dec.phase ≠ .idle → s.crossOverlap → s.refused = true

/-- A value written to a register is an encode START that is accepted and passes its checks (41_control.md R131). -/
abbrev State.encAccepts (s : State) (offset : Nat) (value : Word) : Prop :=
  offset = Reg.encCtrl.offset ∧ startBit value = true ∧ s.busy .enc = false ∧ ¬ s.encLatch.enc.configBad

/-- A value written to a register is a decode START that is accepted and passes its checks (41_control.md R133). -/
abbrev State.decAccepts (s : State) (offset : Nat) (value : Word) : Prop :=
  offset = Reg.decCtrl.offset ∧ startBit value = true ∧ s.busy .dec = false ∧ ¬ s.decLatch.dec.configBad

/-- The event is one of the host actions 10_state.md R52 lists as a violation of a host duty. -/
def State.breaksDuty (s : State) : Event → Prop
  | .regWrite width offset value =>
    ¬ regAccessAllowed width offset ∨
    (s.encAccepts offset value ∧ s.busy .dec = true ∧ s.encLatch.crossOverlap) ∨
    (s.decAccepts offset value ∧ s.busy .enc = true ∧ s.decLatch.crossOverlap)
  | .regRead width offset => ¬ regAccessAllowed width offset
  | .memWrite addr bytes => s.writeMeetsBusy { base := addr, size := bytes.length }
  | .memRead _ _ => False
  | .reset => False
  | .encStep => False
  | .decStep => False

/-! ## Whose turn it is -/

/-- The state with the head of its agenda taken off; the same state where the agenda is empty. -/
def State.popped (s : State) : State := { s with agenda := s.agenda.tail }

/-- The next step runs this event. -/
abbrev State.hasTurn (s : State) (event : Event) : Prop := s.refused = false ∧ s.agenda.head? = some event

/-- The next step is a step of the decoder engine, by the agenda or because the agenda is empty (log 5). -/
abbrev State.decTurn (s : State) : Prop :=
  s.refused = false ∧ (s.agenda.head? = some .decStep ∨ (s.agenda = [] ∧ s.dec.phase ≠ .idle))

/-- The next step is a step of the encoder engine, by the agenda or because the agenda is empty (log 5). -/
abbrev State.encTurn (s : State) : Prop :=
  s.refused = false ∧
    (s.agenda.head? = some .encStep ∨ (s.agenda = [] ∧ s.dec.phase = .idle ∧ s.enc.phase ≠ .idle))

/-! ## What an engine leaves alone -/

/-- From `s` to `t` only the decoder moved: CFG, the encoder with its registers, the decoder's operand registers and
latched operands, the host's side and every byte outside the decoder's DST window are as before (20_memory.md R73,
60_exceptions.md R242). -/
structure OnlyDecoderMoved (s t : State) : Prop where
  cfg : t.cfg = s.cfg
  encRegs : t.encRegs = s.encRegs
  enc : t.enc = s.enc
  operands : t.decRegs.operands = s.decRegs.operands
  job : t.dec.job = s.dec.job
  refused : t.refused = s.refused
  agenda : t.agenda = s.agenda
  response : t.response = s.response
  mem : ∀ a, ¬ s.dec.job.dstWindow.contains a → t.mem.read a = s.mem.read a

/-- From `s` to `t` only the encoder moved (20_memory.md R73, 60_exceptions.md R242). -/
structure OnlyEncoderMoved (s t : State) : Prop where
  cfg : t.cfg = s.cfg
  decRegs : t.decRegs = s.decRegs
  lenmm : t.lenmm = s.lenmm
  hdrLen : t.hdrLen = s.hdrLen
  errOff : t.errOff = s.errOff
  dec : t.dec = s.dec
  operands : t.encRegs.operands = s.encRegs.operands
  job : t.enc.job = s.enc.job
  maxblk : t.enc.maxblk = s.enc.maxblk
  refused : t.refused = s.refused
  agenda : t.agenda = s.agenda
  response : t.response = s.response
  mem : ∀ a, ¬ s.enc.job.dstWindow.contains a → t.mem.read a = s.mem.read a

/-! ## Bounds -/

/-- The steps a decode of a stream of n bytes takes at most (42_decoder.md R159). -/
def decodeStepBound (n : Nat) : Nat := if n < 4 then 1 else 2 + (n - 4) / 3

/-- The steps an encode of a source of n bytes takes at most (43_encoder.md R203). -/
def encodeStepBound (n : Nat) : Nat := n + 2

/-- A state of a run that has a meaning (10_state.md R52). -/
structure Safe (s : State) : Prop where
  meaningful : s.refused = false
  inv : Invariant s

end Sys2Proof.Machine
end

