-- ==== Sys2Proof/Certificates/Slice0/Obligations.lean ====
section
/-! DEFINITION. The statements for the provers. -/

open Sys2Proof Sys2Proof.Machine

/-! ## Encoding -/

/-- Words written out from 30_encoding.md R101, R103, R104 and R108 decode to the elements they stand for. -/
def Obligations.WrittenWordsDecode : Prop :=
  decodeAt .header [0x0D#8, 0x00#8, 0x00#8, 0x00#8] = .ok (.hdr 13#32, []) ∧
  decodeAt .block [0x00#8, 0x0D#8, 0x00#8, 0x43#8] = .ok (.rpt 13#16 0x43#8, []) ∧
  decodeAt .block [0x00#8, 0x00#8, 0x01#8, 0x58#8] = .ok (.rpt 256#16 0x58#8, []) ∧
  decodeAt .block [0x01#8, 0x02#8, 0x00#8, 0x41#8, 0x42#8] = .ok (.lit [0x41#8, 0x42#8], []) ∧
  decodeAt .block [0x01#8, 0x00#8, 0x00#8] = .ok (.lit [], []) ∧
  decodeAt .block [0x02#8] = .error (.illegalTag 0x02#8) ∧
  decodeAt .block [0x00#8, 0x05#8, 0x00#8] = .error .truncated

/-- Decoding the encoding of a well-formed instruction gives it back, whatever follows it. -/
def Obligations.DecodeOfEncodeIsIdentity : Prop :=
  ∀ (i : Instr) (rest : List Byte), i.wellFormed = true →
    decodeAt i.position (encode i ++ rest) = .ok (i, rest)

/-- What the decoder accepts is the encoding of a well-formed instruction at that position. -/
def Obligations.EncodeOfDecodeIsIdentity : Prop :=
  ∀ (p : Position) (bytes rest : List Byte) (i : Instr), decodeAt p bytes = .ok (i, rest) →
    i.wellFormed = true ∧ i.position = p ∧ encode i ++ rest = bytes

/-- 30_encoding.md R108: the tag alone decides whether a block is illegal, and every tag but 0x00 and 0x01 is. -/
def Obligations.OtherTagsAreIllegal : Prop :=
  ∀ (tag t : Byte) (rest : List Byte),
    (decodeBlock (tag :: rest) = .error (.illegalTag t)) ↔ (t = tag ∧ tag ≠ 0x00#8 ∧ tag ≠ 0x01#8)

/-- 30_encoding.md R113: assembly followed by disassembly is the identity. -/
def Obligations.DisassembleOfAssembleIsIdentity : Prop :=
  ∀ (length : Word) (blocks : List Instr),
    (∀ b ∈ blocks, b.wellFormed = true ∧ b.position = .block) →
    disassemble (assemble (.hdr length :: blocks)) = (.hdr length :: blocks, [])

/-! ## Instructions -/

/-- HDR completes (42_decoder.md R157): HDR_LEN, hdr, rd and phase change, nothing else, M included. -/
def Obligations.HdrCompletes : Prop :=
  ∀ (length : Word) (s : State), 4 ≤ s.dec.job.n.toNat →
    exec (.hdr length) s =
      .next { s with hdrLen := length, dec := { s.dec with hdr := length, rd := 4#32, phase := .blk } }

/-- RPT completes (42_decoder.md R154): the bytes from dst + wr on are `count` times `value`, wr and rd advance, and
nothing else changes. -/
def Obligations.RptCompletes : Prop :=
  ∀ (count : Count) (value : Byte) (s : State),
    s.dec.rd.toNat + 4 ≤ s.dec.job.n.toNat →
    s.dec.wr.toNat + count.toNat ≤ s.dec.job.cap.toNat →
    s.dec.job.dstWindow.inMemory →
    ∃ t, exec (.rpt count value) s = .next t ∧
      t = { s with mem := t.mem, dec := { s.dec with wr := t.dec.wr, rd := t.dec.rd } } ∧
      t.dec.wr.toNat = s.dec.wr.toNat + count.toNat ∧
      t.dec.rd.toNat = s.dec.rd.toNat + 4 ∧
      t.mem.readBytes (s.dec.job.dst.toNat + s.dec.wr.toNat) count.toNat = List.replicate count.toNat value ∧
      ∀ a, a < s.dec.job.dst.toNat + s.dec.wr.toNat ∨ s.dec.job.dst.toNat + s.dec.wr.toNat + count.toNat ≤ a →
        t.mem.read a = s.mem.read a

/-- LIT completes (42_decoder.md R155): the bytes from dst + wr on are the payload, wr and rd advance, and nothing else
changes. -/
def Obligations.LitCompletes : Prop :=
  ∀ (payload : List Byte) (s : State),
    s.dec.rd.toNat + 3 + payload.length ≤ s.dec.job.n.toNat →
    s.dec.wr.toNat + payload.length ≤ s.dec.job.cap.toNat →
    s.dec.job.dstWindow.inMemory →
    ∃ t, exec (.lit payload) s = .next t ∧
      t = { s with mem := t.mem, dec := { s.dec with wr := t.dec.wr, rd := t.dec.rd } } ∧
      t.dec.wr.toNat = s.dec.wr.toNat + payload.length ∧
      t.dec.rd.toNat = s.dec.rd.toNat + 3 + payload.length ∧
      t.mem.readBytes (s.dec.job.dst.toNat + s.dec.wr.toNat) payload.length = payload ∧
      ∀ a, a < s.dec.job.dst.toNat + s.dec.wr.toNat ∨ s.dec.job.dst.toNat + s.dec.wr.toNat + payload.length ≤ a →
        t.mem.read a = s.mem.read a

/-- Where HDR, RPT and LIT take a fault entry: TRUNCATED first, then OVERFLOW (60_exceptions.md R232, R233, R238). -/
def Obligations.InstructionsFaultInOrder : Prop :=
  ∀ (s : State),
    (∀ length, s.dec.job.n.toNat < 4 → exec (.hdr length) s = .next (s.raiseFault .dec .truncated 0#32)) ∧
    (∀ i, i.position = .block → s.dec.job.n.toNat < s.dec.rd.toNat + i.length →
      exec i s = .next (s.raiseFault .dec .truncated s.dec.rd)) ∧
    (∀ i, i.position = .block → s.dec.rd.toNat + i.length ≤ s.dec.job.n.toNat →
      s.dec.job.cap.toNat < s.dec.wr.toNat + i.count →
      exec i s = .next (s.raiseFault .dec .overflow s.dec.rd))

/-- The frame of every instruction, fault entries included: only the decoder moves, and no byte outside its DST window
changes. That the stored OUT_LEN stays on a fault entry too is the model's choice (log 13): until the next completion or
reset a read of it is a free draw. -/
def Obligations.InstructionFrame : Prop :=
  ∀ (i : Instr) (s t : State), exec i s = .next t →
    OnlyDecoderMoved s t ∧ t.decRegs.outLen = s.decRegs.outLen ∧
    (t.dec.phase ≠ .idle → t.decRegs = s.decRegs ∧ t.lenmm = s.lenmm ∧ t.errOff = s.errOff ∧ t.draws = s.draws) ∧
    (i.position = .block → t.hdrLen = s.hdrLen ∧ t.dec.hdr = s.dec.hdr)

/-! ## Steps of the decoder -/

/-- A decoder step runs the instruction that the unread stream bytes decode to. -/
def Obligations.StepRunsDecodedInstruction : Prop :=
  ∀ (s : State) (i : Instr) (rest : List Byte),
    s.decTurn → s.dec.phase ≠ .idle → (s.dec.phase = .blk → s.dec.rd.toNat < s.dec.job.n.toNat) →
    s.dec.job.srcWindow.inMemory →
    decodeAt s.dec.position
      (s.mem.readBytes (s.dec.job.src.toNat + s.dec.offset) (s.dec.job.n.toNat - s.dec.offset)) = .ok (i, rest) →
    step s = exec i s.popped

/-- A decoder step over bytes that are no element raises FORMAT or TRUNCATED at the element's offset. -/
def Obligations.StepRaisesOnRejectedElement : Prop :=
  ∀ (s : State) (e : DecodeError),
    s.decTurn → s.dec.phase ≠ .idle → (s.dec.phase = .blk → s.dec.rd.toNat < s.dec.job.n.toNat) →
    s.dec.job.srcWindow.inMemory →
    decodeAt s.dec.position
      (s.mem.readBytes (s.dec.job.src.toNat + s.dec.offset) (s.dec.job.n.toNat - s.dec.offset)) = .error e →
    step s = .next (s.popped.raiseFault .dec (errOf e) (Word.ofNat s.dec.offset))

/-- 42_decoder.md R157, the header step. -/
def Obligations.HeaderStep : Prop :=
  ∀ (s : State), s.decTurn → s.dec.phase = .hdr → s.dec.job.srcWindow.inMemory →
    (s.dec.job.n.toNat < 4 → step s = .next (s.popped.raiseFault .dec .truncated 0#32)) ∧
    (4 ≤ s.dec.job.n.toNat →
      let b := fun k => s.mem.read (s.dec.job.src.toNat + k)
      let length := le32 (b 0) (b 1) (b 2) (b 3)
      step s = .next { s.popped with
        hdrLen := length, dec := { s.dec with hdr := length, rd := 4#32, phase := .blk } })

/-- 42_decoder.md R154, the step at a repeat block. -/
def Obligations.RepeatBlockStep : Prop :=
  ∀ (s : State), s.decTurn → s.dec.phase = .blk → s.dec.rd.toNat < s.dec.job.n.toNat →
    s.dec.job.srcWindow.inMemory → s.dec.job.dstWindow.inMemory →
    let b := fun k => s.mem.read (s.dec.job.src.toNat + s.dec.rd.toNat + k)
    b 0 = 0x00#8 →
    (s.dec.job.n.toNat < s.dec.rd.toNat + 4 → step s = .next (s.popped.raiseFault .dec .truncated s.dec.rd)) ∧
    (s.dec.rd.toNat + 4 ≤ s.dec.job.n.toNat →
      let c := (le16 (b 1) (b 2)).toNat
      (s.dec.job.cap.toNat < s.dec.wr.toNat + c → step s = .next (s.popped.raiseFault .dec .overflow s.dec.rd)) ∧
      (s.dec.wr.toNat + c ≤ s.dec.job.cap.toNat →
        step s = .next { s.popped with
          mem := s.mem.writeBytes (s.dec.job.dst.toNat + s.dec.wr.toNat) (List.replicate c (b 3))
          dec := { s.dec with
            wr := Word.ofNat (s.dec.wr.toNat + c), rd := Word.ofNat (s.dec.rd.toNat + 4) } }))

/-- 42_decoder.md R155, the step at a literal block. -/
def Obligations.LiteralBlockStep : Prop :=
  ∀ (s : State), s.decTurn → s.dec.phase = .blk → s.dec.rd.toNat < s.dec.job.n.toNat →
    s.dec.job.srcWindow.inMemory → s.dec.job.dstWindow.inMemory →
    let b := fun k => s.mem.read (s.dec.job.src.toNat + s.dec.rd.toNat + k)
    b 0 = 0x01#8 →
    (s.dec.job.n.toNat < s.dec.rd.toNat + 3 → step s = .next (s.popped.raiseFault .dec .truncated s.dec.rd)) ∧
    (s.dec.rd.toNat + 3 ≤ s.dec.job.n.toNat →
      let c := (le16 (b 1) (b 2)).toNat
      (s.dec.job.n.toNat < s.dec.rd.toNat + 3 + c →
        step s = .next (s.popped.raiseFault .dec .truncated s.dec.rd)) ∧
      (s.dec.rd.toNat + 3 + c ≤ s.dec.job.n.toNat →
        (s.dec.job.cap.toNat < s.dec.wr.toNat + c →
          step s = .next (s.popped.raiseFault .dec .overflow s.dec.rd)) ∧
        (s.dec.wr.toNat + c ≤ s.dec.job.cap.toNat →
          step s = .next { s.popped with
            mem := s.mem.writeBytes (s.dec.job.dst.toNat + s.dec.wr.toNat)
              (s.mem.readBytes (s.dec.job.src.toNat + s.dec.rd.toNat + 3) c)
            dec := { s.dec with
              wr := Word.ofNat (s.dec.wr.toNat + c), rd := Word.ofNat (s.dec.rd.toNat + 3 + c) } })))

/-- 42_decoder.md R156, the step at an illegal tag. -/
def Obligations.IllegalTagStep : Prop :=
  ∀ (s : State), s.decTurn → s.dec.phase = .blk → s.dec.rd.toNat < s.dec.job.n.toNat →
    s.dec.job.srcWindow.inMemory →
    s.mem.read (s.dec.job.src.toNat + s.dec.rd.toNat) ≠ 0x00#8 →
    s.mem.read (s.dec.job.src.toNat + s.dec.rd.toNat) ≠ 0x01#8 →
    step s = .next (s.popped.raiseFault .dec .format s.dec.rd)

/-- 42_decoder.md R158, the completion step, and 20_memory.md R83 for the bytes beyond the output. -/
def Obligations.DecoderCompletionStep : Prop :=
  ∀ (s : State), s.decTurn → s.dec.phase = .blk → s.dec.rd = s.dec.job.n →
    ∃ t, step s = .next t ∧
      t = { s.popped with
        decRegs := { s.decRegs with outLen := s.dec.wr, status := ⟨false, true, .none⟩ }
        lenmm := decide (s.dec.wr ≠ s.dec.hdr)
        dec := { s.dec with phase := .idle }
        mem := t.mem
        draws := s.draws + 1 } ∧
      (∀ a, ¬ (s.dec.job.dst.toNat + s.dec.wr.toNat ≤ a ∧ a < s.dec.job.dst.toNat + s.dec.job.cap.toNat) →
        t.mem.read a = s.mem.read a) ∧
      (∀ a, s.dec.job.dst.toNat + s.dec.wr.toNat ≤ a → a < s.dec.job.dst.toNat + s.dec.job.cap.toNat →
        t.mem.read a = Config.freeByte s.draws a)

/-- The cursor moves only forward, by at least 3 for a block, and never passes the stream's end (10_state.md R47,
42_decoder.md R159). -/
def Obligations.CursorMovesForward : Prop :=
  ∀ (s t : State), Invariant s → s.decTurn → s.dec.phase ≠ .idle → step s = .next t →
    s.dec.rd.toNat ≤ t.dec.rd.toNat ∧ t.dec.rd.toNat ≤ s.dec.job.n.toNat ∧
    (s.dec.phase = .blk → t.dec.phase = .blk → s.dec.rd.toNat + 3 ≤ t.dec.rd.toNat)

/-- The decoder engine computes Decode (42_decoder.md R150, R151, R158): within the bound of R159 it ends; a stream that
decodes and fits ends with its output in the DST window, OUT_LEN, HDR_LEN and LENMM; one that does not fit ends with
OVERFLOW; one that does not decode ends with the error and offset of Decode, or with OVERFLOW at an earlier block. -/
def Obligations.DecoderComputesDecode : Prop :=
  ∀ (s : State), Invariant s → s.refused = false → s.dec.phase = .hdr →
    s.agenda = List.replicate (decodeStepBound s.dec.job.n.toNat) .decStep →
    ∃ t, core.run (decodeStepBound s.dec.job.n.toNat) s = .next t ∧ t.dec.phase = .idle ∧
      match decodeStream (s.mem.readBytes s.dec.job.src.toNat s.dec.job.n.toNat) with
      | .ok hdr out =>
        t.hdrLen = hdr ∧
        if out.length ≤ s.dec.job.cap.toNat then
          t.decRegs.status = ⟨false, true, .none⟩ ∧ t.decRegs.outLen.toNat = out.length ∧ t.errOff = 0#32 ∧
          (t.lenmm = true ↔ out.length ≠ hdr.toNat) ∧
          t.mem.readBytes s.dec.job.dst.toNat out.length = out
        else t.decRegs.status = ⟨false, true, .overflow⟩
      | .err code off =>
        (t.decRegs.status = ⟨false, true, code⟩ ∧ t.errOff.toNat = off) ∨
        (t.decRegs.status = ⟨false, true, .overflow⟩ ∧ t.errOff.toNat < off)

/-- 42_decoder.md R164: a decoder step does the same under any CFG. -/
def Obligations.DecoderIgnoresCfg : Prop :=
  ∀ (s : State) (v : Word),
    match decStep s with
    | .next t => decStep { s with cfg := v } = .next { t with cfg := v }
    | .fault f => decStep { s with cfg := v } = .fault f
    | .refused r => decStep { s with cfg := v } = .refused r

/-! ## Faults -/

/-- 60_exceptions.md R235, fault entry of either engine. The stored OUT_LEN stays, which is the model's choice (log 13): a
read of it is a free draw. -/
def Obligations.FaultEntry : Prop :=
  ∀ (s : State) (e : Engine) (err : ErrCode) (off : Word), err ≠ .none →
    let t := s.raiseFault e err off
    (t.regs e).status = ⟨false, true, err⟩ ∧
    t.readOutLen e = Config.freeWord t.draws ∧
    (∀ a, (s.job e).dstWindow.contains a → t.mem.read a = Config.freeByte s.draws a) ∧
    (∀ a, ¬ (s.job e).dstWindow.contains a → t.mem.read a = s.mem.read a) ∧
    t.hdrLen = s.hdrLen ∧
    match e with
    | .enc => t = { s with
        encRegs := { s.encRegs with status := ⟨false, true, err⟩ }
        enc := { s.enc with phase := .idle }
        mem := t.mem
        draws := s.draws + 1 } ∧ encStep t = .next t
    | .dec => t = { s with
        decRegs := { s.decRegs with status := ⟨false, true, err⟩ }
        dec := { s.dec with phase := .idle }
        errOff := off
        lenmm := false
        mem := t.mem
        draws := s.draws + 1 } ∧ decStep t = .next t

/-- 60_exceptions.md R241, 41_control.md R139: a faulted or completed engine keeps its outcome until a START is written to
it or reset. After a fault the stored OUT_LEN is the model's own (log 13). -/
def Obligations.OutcomeStays : Prop :=
  ∀ (s t : State), Invariant s → step s = .next t → s.agenda.head? ≠ some .reset →
    (s.encRegs.status.done = true →
      (∀ w v, s.agenda.head? = some (.regWrite w 0x10 v) → v.getLsbD 0 = false) →
      t.encRegs.status = s.encRegs.status ∧ t.encRegs.outLen = s.encRegs.outLen ∧ t.enc = s.enc) ∧
    (s.decRegs.status.done = true →
      (∀ w v, s.agenda.head? = some (.regWrite w 0x30 v) → v.getLsbD 0 = false) →
      t.decRegs.status = s.decRegs.status ∧ t.decRegs.outLen = s.decRegs.outLen ∧ t.dec = s.dec ∧
        t.lenmm = s.lenmm ∧ t.hdrLen = s.hdrLen ∧ t.errOff = s.errOff)

/-- 20_memory.md R73 and 60_exceptions.md R242: an engine step moves that engine only, and changes no byte outside its
DST window. -/
def Obligations.EngineStepsStayInside : Prop :=
  ∀ (s t : State),
    (s.decTurn → step s = .next t → OnlyDecoderMoved s.popped t) ∧
    (s.encTurn → step s = .next t → OnlyEncoderMoved s.popped t)

/-- 20_memory.md R73: what an engine step does depends on no byte of M outside its SRC window. From states that differ in
such bytes only, the same registers follow, and a byte that was the same stays the same. -/
def Obligations.EnginesReadOnlyTheirSource : Prop :=
  ∀ (s t : State) (m : Memory),
    (s.decTurn → (∀ a, s.dec.job.srcWindow.contains a → m.read a = s.mem.read a) → step s = .next t →
      ∃ m', step { s with mem := m } = .next { t with mem := m' } ∧
        ∀ a, m.read a = s.mem.read a → m'.read a = t.mem.read a) ∧
    (s.encTurn → (∀ a, s.enc.job.srcWindow.contains a → m.read a = s.mem.read a) → step s = .next t →
      ∃ m', step { s with mem := m } = .next { t with mem := m' } ∧
        ∀ a, m.read a = s.mem.read a → m'.read a = t.mem.read a)

/-- Steps of the two engines commute while neither ends its operation (70_reset_and_hazards.md R270). -/
def Obligations.EngineStepsCommute : Prop :=
  ∀ (s a b : State), Safe s → s.enc.phase ≠ .idle → s.dec.phase ≠ .idle →
    encStep s = .next a → a.enc.phase ≠ .idle → decStep s = .next b → b.dec.phase ≠ .idle →
    ∃ t, decStep a = .next t ∧ encStep b = .next t

/-! ## The encode function -/

/-- 43_encoder.md R184: FindRun gives the least start of 7 equal bytes, or nothing if there is none. -/
def Obligations.FindRunGivesLeastStart : Prop :=
  ∀ (block : List Byte),
    match findRun block with
    | some p =>
      p + 7 ≤ block.length ∧ (∀ k, k < 7 → block[p + k]? = block[p]?) ∧
      ∀ q, q < p → ∃ k, k < 7 ∧ block[q + k]? ≠ block[q]?
    | none => ∀ q, q + 7 ≤ block.length → ∃ k, k < 7 ∧ block[q + k]? ≠ block[q]?

/-- 43_encoder.md R187 and R188: in a block of at least 7 bytes with no run the trim is well defined and moves out just
the trailing bytes that equal the last. -/
def Obligations.TrimIsWellDefined : Prop :=
  ∀ (block : List Byte), 7 ≤ block.length → findRun block = none →
    1 ≤ trimBoundary block ∧ trimBoundary block ≤ block.length - 1 ∧
    block[trimBoundary block - 1]? ≠ block[block.length - 1]? ∧
    ∀ k, trimBoundary block ≤ k → k < block.length → block[k]? = block[block.length - 1]?

/-- 43_encoder.md R193: an iteration covers at least one byte and at most the remaining source, so as many iterations as
there are bytes are enough: the blocks are those of one iteration and then of the rest, whatever the bound. -/
def Obligations.IterationMakesProgress : Prop :=
  ∀ (M : Nat) (rest : List Byte), 7 ≤ M → M ≤ 65535 → rest ≠ [] →
    1 ≤ covered (iteration M rest) ∧ covered (iteration M rest) ≤ rest.length ∧
    ∀ bound, rest.length ≤ bound →
      partitionFrom bound M rest = iteration M rest ++ partitionSource M (rest.drop (covered (iteration M rest)))

/-- 43_encoder.md R195: the counts of the blocks the encoder emits, and that the bytes a repeat block covers are equal. -/
def Obligations.BlockCountRanges : Prop :=
  ∀ (M : Nat) (source : List Byte), 7 ≤ M → M ≤ 65535 →
    (∀ b ∈ partitionSource M source,
      (∃ payload, b = .lit payload ∧ 1 ≤ payload.length ∧ payload.length ≤ M) ∨
      (∃ count value, b = .rpt count value ∧ 7 ≤ count.toNat ∧ count.toNat ≤ M)) ∧
    (∀ before after count value, partitionSource M source = before ++ .rpt count value :: after →
      (source.drop (covered before)).take count.toNat = List.replicate count.toNat value)

/-- 43_encoder.md R198: the blocks cover the source from left to right, each byte once. -/
def Obligations.BlocksPartitionSource : Prop :=
  ∀ (M : Nat) (source : List Byte), 7 ≤ M → M ≤ 65535 →
    (partitionSource M source).flatMap Instr.expand = source

/-- 43_encoder.md R199: a literal payload is the slice of the source it covers, none holds 7 equal bytes in a row, and
adjacent literal blocks differ where they meet. -/
def Obligations.LiteralContent : Prop :=
  ∀ (M : Nat) (source : List Byte), 7 ≤ M → M ≤ 65535 →
    (∀ before after payload, partitionSource M source = before ++ .lit payload :: after →
      (source.drop (covered before)).take payload.length = payload) ∧
    (∀ payload, .lit payload ∈ partitionSource M source → ∀ q, q + 7 ≤ payload.length →
      ∃ k, k < 7 ∧ payload[q + k]? ≠ payload[q]?) ∧
    (∀ before after first second, partitionSource M source = before ++ .lit first :: .lit second :: after →
      first.getLast? ≠ second.head?)

/-- 43_encoder.md R196 and R197, a maximal run of L bytes `v` between any other bytes. From 7 bytes on it begins a RPT at
its first byte: RPTs of M while M are left, then one of the remainder if that has 7 bytes; a remainder of 1 to 6 bytes
begins the next LIT. A run of 1 to 6 bytes shares no byte with any RPT. -/
def Obligations.EqualBytesSplitIntoRepeats : Prop :=
  ∀ (M L : Nat) (v : Byte) (pre post : List Byte), 7 ≤ M → M ≤ 65535 →
    pre.getLast? ≠ some v → post.head? ≠ some v →
    let source := pre ++ (List.replicate L v ++ post)
    (7 ≤ L → ∃ before, covered before = pre.length ∧ (pre = [] → before = []) ∧
      partitionSource M source = before ++ List.replicate (L / M) (.rpt (BitVec.ofNat 16 M) v) ++
        if 7 ≤ L % M then .rpt (BitVec.ofNat 16 (L % M)) v :: partitionSource M post
        else partitionSource M (List.replicate (L % M) v ++ post)) ∧
    (1 ≤ L → L ≤ 6 → ∃ more after,
      partitionSource M (List.replicate L v ++ post) = .lit (List.replicate L v ++ more) :: after) ∧
    (1 ≤ L → L ≤ 6 → ∀ before count value after, partitionSource M source = before ++ .rpt count value :: after →
      covered before + count.toNat ≤ pre.length ∨ pre.length + L ≤ covered before)

/-- 43_encoder.md R186 and R194: a source of fewer than 7 bytes is one literal block, an empty one no block at all. -/
def Obligations.ShortSourceIsLiteral : Prop :=
  ∀ (M : Nat) (source : List Byte), 7 ≤ M → M ≤ 65535 →
    (source = [] → encodeStream source M = [0x00#8, 0x00#8, 0x00#8, 0x00#8]) ∧
    (1 ≤ source.length → source.length < 7 → partitionSource M source = [.lit source])

/-- 43_encoder.md R201: the size bound, reached for one byte. -/
def Obligations.EncodedSizeBound : Prop :=
  ∀ (M : Nat) (source : List Byte), 7 ≤ M → M ≤ 65535 →
    (encodeStream source M).length ≤ 4 + 4 * source.length ∧
    (source.length = 1 → (encodeStream source M).length = 4 + 4 * source.length)

/-- 42_decoder.md R162: the round trip; a decode that completes with that header and that many bytes leaves LENMM 0. -/
def Obligations.DecodeOfEncodeRoundTrip : Prop :=
  ∀ (M : Nat) (source : List Byte), 7 ≤ M → M ≤ 65535 → source.length < 4294967296 →
    ∃ hdr, decodeStream (encodeStream source M) = .ok hdr source ∧ hdr.toNat = source.length ∧
      ∀ s : State, s.dec.hdr = hdr → s.dec.wr.toNat = source.length → (decCompletion s).lenmm = false

/-! ## Steps of the encoder -/

/-- The encoder's header step (43_encoder.md R202, R181). -/
def Obligations.EncoderHeaderStep : Prop :=
  ∀ (s : State), s.encTurn → s.enc.phase = .hdr → s.enc.job.dstWindow.inMemory →
    (s.enc.job.cap.toNat < 4 → step s = .next (s.popped.raiseFault .enc .overflow 0#32)) ∧
    (4 ≤ s.enc.job.cap.toNat →
      step s = .next { s.popped with
        mem := s.mem.writeBytes s.enc.job.dst.toNat (enc32 s.enc.job.n)
        enc := { s.enc with wr := 4#32, pos := 0#32, phase := .iter } })

/-- The encoder's iteration step (43_encoder.md R202): if its blocks fit they are appended in order and `pos` advances by
what they cover; else OVERFLOW, with the fault entry of 60_exceptions.md R235, whether at the first block or at the second.
The draws are log 3; that the stored OUT_LEN stays is log 13. -/
def Obligations.EncoderIterationStep : Prop :=
  ∀ (s : State), Safe s → s.encTurn → s.enc.phase = .iter → s.enc.pos.toNat < s.enc.job.n.toNat →
    let blocks := iteration s.enc.maxblk.toNat
      (s.mem.readBytes (s.enc.job.src.toNat + s.enc.pos.toNat) (s.enc.job.n.toNat - s.enc.pos.toNat))
    let out := blocks.flatMap encode
    (s.enc.job.cap.toNat < s.enc.wr.toNat + out.length →
      ∃ t, step s = .next t ∧
        t = { s.popped with
          encRegs := { s.encRegs with status := ⟨false, true, .overflow⟩ }
          enc := { s.enc with phase := .idle, wr := t.enc.wr, pos := t.enc.pos }
          mem := t.mem
          draws := s.draws + 1 } ∧
        t.readOutLen .enc = Config.freeWord t.draws ∧
        (∀ a, s.enc.job.dstWindow.contains a → t.mem.read a = Config.freeByte s.draws a) ∧
        ∀ a, ¬ s.enc.job.dstWindow.contains a → t.mem.read a = s.mem.read a) ∧
    (s.enc.wr.toNat + out.length ≤ s.enc.job.cap.toNat →
      ∃ t, step s = .next t ∧
        t = { s.popped with mem := t.mem, enc := { s.enc with wr := t.enc.wr, pos := t.enc.pos } } ∧
        t.enc.wr.toNat = s.enc.wr.toNat + out.length ∧
        t.enc.pos.toNat = s.enc.pos.toNat + covered blocks ∧
        t.mem.readBytes (s.enc.job.dst.toNat + s.enc.wr.toNat) out.length = out ∧
        ∀ a, a < s.enc.job.dst.toNat + s.enc.wr.toNat ∨ s.enc.job.dst.toNat + s.enc.wr.toNat + out.length ≤ a →
          t.mem.read a = s.mem.read a)

/-- The encoder's completion step (43_encoder.md R202, 20_memory.md R83). -/
def Obligations.EncoderCompletionStep : Prop :=
  ∀ (s : State), s.encTurn → s.enc.phase = .iter → s.enc.pos = s.enc.job.n →
    ∃ t, step s = .next t ∧
      t = { s.popped with
        encRegs := { s.encRegs with outLen := s.enc.wr, status := ⟨false, true, .none⟩ }
        enc := { s.enc with phase := .idle }
        mem := t.mem
        draws := s.draws + 1 } ∧
      (∀ a, ¬ (s.enc.job.dst.toNat + s.enc.wr.toNat ≤ a ∧ a < s.enc.job.dst.toNat + s.enc.job.cap.toNat) →
        t.mem.read a = s.mem.read a) ∧
      (∀ a, s.enc.job.dst.toNat + s.enc.wr.toNat ≤ a → a < s.enc.job.dst.toNat + s.enc.job.cap.toNat →
        t.mem.read a = Config.freeByte s.draws a)

/-- The encoder engine computes Encode (43_encoder.md R202, R203): within n + 2 steps it ends; OVERFLOW if and only if
the stream is longer than the capacity, else the stream is in the DST window and OUT_LEN is its length. -/
def Obligations.EncoderComputesEncode : Prop :=
  ∀ (s : State), Invariant s → s.refused = false → s.enc.phase = .hdr →
    s.agenda = List.replicate (encodeStepBound s.enc.job.n.toNat) .encStep →
    let out := encodeStream (s.mem.readBytes s.enc.job.src.toNat s.enc.job.n.toNat) s.enc.maxblk.toNat
    ∃ t, core.run (encodeStepBound s.enc.job.n.toNat) s = .next t ∧ t.enc.phase = .idle ∧
      (s.enc.job.cap.toNat < out.length → t.encRegs.status = ⟨false, true, .overflow⟩) ∧
      (out.length ≤ s.enc.job.cap.toNat →
        t.encRegs.status = ⟨false, true, .none⟩ ∧ t.encRegs.outLen.toNat = out.length ∧
        t.mem.readBytes s.enc.job.dst.toNat out.length = out)

/-! ## Registers and commands -/

/-- The STATUS word (10_state.md R24, R31), with the error codes of 60_exceptions.md R230. -/
def Obligations.StatusWordLayout : Prop :=
  ∀ (s : State),
    let code : ErrCode → BitVec 4 := fun
      | .none => 0#4
      | .format => 1#4
      | .truncated => 2#4
      | .overflow => 3#4
      | .config => 4#4
    let e := s.readReg .encStatus
    let d := s.readReg .decStatus
    e.getLsbD 0 = s.encRegs.status.busy ∧ e.getLsbD 1 = s.encRegs.status.done ∧ e.extractLsb' 2 2 = 0#2 ∧
    e.extractLsb' 4 4 = code s.encRegs.status.err ∧ e.extractLsb' 8 24 = 0#24 ∧
    d.getLsbD 0 = s.decRegs.status.busy ∧ d.getLsbD 1 = s.decRegs.status.done ∧ d.getLsbD 2 = s.lenmm ∧
    d.getLsbD 3 = false ∧ d.extractLsb' 4 4 = code s.decRegs.status.err ∧ d.extractLsb' 8 24 = 0#24

/-- 41_control.md R130, with the offsets of 10_state.md R21: a write of a RW register stores its implemented bits, whether
or not an engine is busy; no other register, no engine and no byte of M changes. -/
def Obligations.RegisterWriteStores : Prop :=
  ∀ (s : State) (offset : Nat) (r : Reg) (v : Word),
    s.hasTurn (.regWrite .word offset v) →
    (offset, r) ∈ [(0x00, Reg.cfg), (0x18, .encSrcBase), (0x1C, .encSrcLen), (0x20, .encDstBase), (0x24, .encDstCap),
      (0x38, .decSrcBase), (0x3C, .decSrcLen), (0x40, .decDstBase), (0x44, .decDstCap)] →
    ∃ t, step s = .next t ∧
      t.readReg r = (if r = .cfg then v &&& 0x0000FFFF#32 else v) ∧
      (∀ q, q ≠ r → t.readReg q = s.readReg q) ∧
      t.enc = s.enc ∧ t.dec = s.dec ∧ t.mem = s.mem ∧ t.refused = false ∧ t.agenda = s.agenda.tail ∧
      t.response = s.response ∧ t.draws = s.draws

/-- 41_control.md R135: START to a busy engine has no effect of any kind. -/
def Obligations.StartWhileBusyIsIgnored : Prop :=
  ∀ (s : State) (v : Word),
    (s.hasTurn (.regWrite .word 0x10 v) → s.encRegs.status.busy = true → step s = .next s.popped) ∧
    (s.hasTurn (.regWrite .word 0x30 v) → s.decRegs.status.busy = true → step s = .next s.popped)

/-- 41_control.md R131 and R132: an encode START. -/
def Obligations.EncodeStart : Prop :=
  ∀ (s : State) (v : Word), s.hasTurn (.regWrite .word 0x10 v) → v.getLsbD 0 = true →
    (s.encRegs.status.busy = true → step s = .next s.popped) ∧
    (s.encRegs.status.busy = false →
      let src := s.encRegs.srcBase.toNat
      let n := s.encRegs.srcLen.toNat
      let dst := s.encRegs.dstBase.toNat
      let cap := s.encRegs.dstCap.toNat
      let job : Latched := ⟨s.encRegs.srcBase, s.encRegs.srcLen, s.encRegs.dstBase, s.encRegs.dstCap⟩
      let maxblk := s.cfg.extractLsb' 0 16
      let bad := maxblk.toNat < 7 ∨ 4294967296 < src + n ∨ 4294967296 < dst + cap ∨
        (0 < n ∧ 0 < cap ∧ src < dst + cap ∧ dst < src + n)
      let overlap := s.decRegs.status.busy = true ∧
        ((⟨dst, cap⟩ : Window).meets s.dec.job.srcWindow ∨ (⟨dst, cap⟩ : Window).meets s.dec.job.dstWindow ∨
          s.dec.job.dstWindow.meets ⟨src, n⟩)
      (bad → step s = .next { s.popped with
        encRegs := { s.encRegs with status := ⟨false, true, .config⟩ }
        enc := { s.enc with job := job, maxblk := maxblk, phase := .idle } }) ∧
      (¬ bad → step s = .next { s.popped with
        encRegs := { s.encRegs with status := ⟨true, false, .none⟩ }
        enc := ⟨.hdr, job, maxblk, 0#32, 0#32⟩
        refused := decide overlap }))

/-- 41_control.md R133 and R134: a decode START. -/
def Obligations.DecodeStart : Prop :=
  ∀ (s : State) (v : Word), s.hasTurn (.regWrite .word 0x30 v) → v.getLsbD 0 = true →
    (s.decRegs.status.busy = true → step s = .next s.popped) ∧
    (s.decRegs.status.busy = false →
      let src := s.decRegs.srcBase.toNat
      let n := s.decRegs.srcLen.toNat
      let dst := s.decRegs.dstBase.toNat
      let cap := s.decRegs.dstCap.toNat
      let job : Latched := ⟨s.decRegs.srcBase, s.decRegs.srcLen, s.decRegs.dstBase, s.decRegs.dstCap⟩
      let bad := 4294967296 < src + n ∨ 4294967296 < dst + cap ∨
        (0 < n ∧ 0 < cap ∧ src < dst + cap ∧ dst < src + n)
      let overlap := s.encRegs.status.busy = true ∧
        (s.enc.job.dstWindow.meets ⟨src, n⟩ ∨ s.enc.job.dstWindow.meets ⟨dst, cap⟩ ∨
          (⟨dst, cap⟩ : Window).meets s.enc.job.srcWindow)
      (bad → step s = .next { s.popped with
        decRegs := { s.decRegs with status := ⟨false, true, .config⟩ }
        lenmm := false
        hdrLen := 0#32
        errOff := 0#32
        dec := { s.dec with job := job, phase := .idle } }) ∧
      (¬ bad → step s = .next { s.popped with
        decRegs := { s.decRegs with status := ⟨true, false, .none⟩ }
        lenmm := false
        hdrLen := 0#32
        errOff := 0#32
        dec := ⟨.hdr, job, 0#32, 0#32, 0#32⟩
        refused := decide overlap }))

/-- 41_control.md R136, 10_state.md R39 and the offsets of R21: writes that have no effect. -/
def Obligations.WritesWithoutEffect : Prop :=
  ∀ (s : State) (offset : Nat) (v : Word), s.hasTurn (.regWrite .word offset v) →
    offset % 4 = 0 → offset < 256 →
    ((offset = 0x10 ∨ offset = 0x30) ∧ v.getLsbD 0 = false ∨
      offset ∈ [0x14, 0x28, 0x34, 0x48, 0x4C, 0x50] ∨
      (offset ∉ [0x00, 0x10, 0x14, 0x18, 0x1C, 0x20, 0x24, 0x28, 0x30, 0x34, 0x38, 0x3C, 0x40, 0x44, 0x48, 0x4C, 0x50])) →
    step s = .next s.popped

/-- 41_control.md R137, with the offsets of 10_state.md R21: a word read returns the register's value; OUT_LEN while BUSY
or after a fault is a fresh free draw (log 3); CTRL registers and reserved offsets read 0. Only the model's own fields
change (logs 3, 4, 11). -/
def Obligations.RegisterRead : Prop :=
  ∀ (s : State) (offset : Nat), s.hasTurn (.regRead .word offset) → offset % 4 = 0 → offset < 256 →
    ∃ v, step s = .next { s.popped with response := .word v, draws := s.draws + 1 } ∧
      (∀ value, (offset, value) ∈
        [(0x00, s.cfg), (0x10, 0#32), (0x14, s.readReg .encStatus), (0x18, s.encRegs.srcBase), (0x1C, s.encRegs.srcLen),
         (0x20, s.encRegs.dstBase), (0x24, s.encRegs.dstCap), (0x28, s.readOutLen .enc), (0x30, 0#32),
         (0x34, s.readReg .decStatus), (0x38, s.decRegs.srcBase), (0x3C, s.decRegs.srcLen), (0x40, s.decRegs.dstBase),
         (0x44, s.decRegs.dstCap), (0x48, s.readOutLen .dec), (0x4C, s.hdrLen), (0x50, s.errOff)] → v = value) ∧
      (∀ r : Reg, offset = r.offset → v = s.readReg r) ∧
      (offset = 0x28 → (s.encRegs.status.busy = true ∨ s.encRegs.status.err ≠ .none) → v = Config.freeWord s.draws) ∧
      (offset = 0x48 → (s.decRegs.status.busy = true ∨ s.decRegs.status.err ≠ .none) → v = Config.freeWord s.draws) ∧
      (offset ∉ [0x00, 0x10, 0x14, 0x18, 0x1C, 0x20, 0x24, 0x28, 0x30, 0x34, 0x38, 0x3C, 0x40, 0x44, 0x48, 0x4C, 0x50] →
        v = 0#32)

/-- 10_state.md R29 and R36: OUT_LEN reads as a fresh free draw while BUSY and after a fault, else as the length. -/
def Obligations.OutLenReads : Prop :=
  ∀ (s : State) (e : Engine),
    (((s.regs e).status.busy = true ∨ (s.regs e).status.err ≠ .none) → s.readOutLen e = Config.freeWord s.draws) ∧
    ((s.regs e).status.busy = false → (s.regs e).status.err = .none → s.readOutLen e = (s.regs e).outLen)

/-- 10_state.md R40: a register access outside the interface sets the refused mark. That it does nothing else is the model's
choice (log 8), and that the run then has no further step is log 7. -/
def Obligations.OutsideAccessRefusesRun : Prop :=
  ∀ (s : State) (width : AccessWidth) (offset : Nat) (v : Word),
    (s.hasTurn (.regRead width offset) ∨ s.hasTurn (.regWrite width offset v)) →
    (width ≠ .word ∨ offset % 4 ≠ 0 ∨ 256 ≤ offset) →
    ∃ t, step s = .next t ∧ t = { s.popped with refused := true } ∧ step t = .refused .runRefused

/-- 10_state.md R52: the mark starts false, and a step sets it if and only if it runs a host action that breaks a duty. That
a run with the mark set answers the refusal, so that nothing clears it, is log 7 (deduced from R52). -/
def Obligations.RefusedMarkIsDutyViolation : Prop :=
  State.reset.refused = false ∧
  (∀ s : State, s.refused = true → step s = .refused .runRefused) ∧
  ∀ (s t : State), s.refused = false → step s = .next t →
    (t.refused = true ↔ ∃ event, s.agenda.head? = some event ∧ s.breaksDuty event)

/-- 41_control.md R138, 10_state.md R41: no host action but the reset input touches a running operation. A step that is
neither a reset nor a step of the engine leaves a busy engine, its latched operands and its STATUS as they are. -/
def Obligations.HostDoesNotStopAnEngine : Prop :=
  ∀ (s t : State), Invariant s → step s = .next t → s.agenda.head? ≠ some .reset →
    (s.encRegs.status.busy = true → ¬ s.encTurn → t.enc = s.enc ∧ t.encRegs.status = s.encRegs.status) ∧
    (s.decRegs.status.busy = true → ¬ s.decTurn →
      t.dec = s.dec ∧ t.decRegs.status = s.decRegs.status ∧ t.lenmm = s.lenmm ∧ t.hdrLen = s.hdrLen ∧
        t.errOff = s.errOff)

/-! ## Accesses of the host to M -/

/-- 20_memory.md R84: a host read gives a free draw in a busy engine's DST window and M's byte elsewhere. That this holds
after a completion whose DONE the host has not read is log 15 (deduced, unsafe); that the bytes are read at one moment is
the model's choice (log 22, unsafe). -/
def Obligations.HostReadOfMemory : Prop :=
  ∀ (s : State) (a len : Nat), s.hasTurn (.memRead a len) → a + len ≤ 4294967296 →
    ∃ bytes, step s = .next { s.popped with response := .bytes bytes, draws := s.draws + 1 } ∧
      bytes.length = len ∧
      ∀ k, k < len →
        (s.inBusyDst (a + k) → bytes[k]? = some (Config.freeByte s.draws (a + k))) ∧
        (¬ s.inBusyDst (a + k) → bytes[k]? = some (s.mem.read (a + k)))

/-- 20_memory.md R84: a host write outside the windows of busy engines stores its bytes and nothing else; a write that
touches such a window sets the refused mark. That all its bytes land in one step is the model's choice (log 22, unsafe). -/
def Obligations.HostWriteOfMemory : Prop :=
  ∀ (s : State) (a : Nat) (bytes : List Byte), s.hasTurn (.memWrite a bytes) → a + bytes.length ≤ 4294967296 →
    ∃ t, step s = .next t ∧ t = { s.popped with mem := t.mem, refused := t.refused } ∧
      (t.refused = true ↔ ∃ k e, k < bytes.length ∧ s.busy e = true ∧
        ((s.job e).srcWindow.contains (a + k) ∨ (s.job e).dstWindow.contains (a + k))) ∧
      (t.refused = false → t.mem.readBytes a bytes.length = bytes ∧
        ∀ x, x < a ∨ a + bytes.length ≤ x → t.mem.read x = s.mem.read x)

/-! ## Reset -/

/-- 70_reset_and_hazards.md R260: the values after reset, as a read sees them. -/
def Obligations.ResetValues : Prop :=
  State.reset.readReg .cfg = 0x0000FFFF#32 ∧
  (∀ r : Reg, r ≠ .cfg → State.reset.readReg r = 0#32) ∧
  State.reset.enc.phase = .idle ∧ State.reset.dec.phase = .idle ∧ State.reset.refused = false

/-- 70_reset_and_hazards.md R260 and R261: what the reset input does. -/
def Obligations.ResetInput : Prop :=
  ∀ (s : State), s.hasTurn .reset →
    ∃ t, step s = .next t ∧
      t.readReg .cfg = 0x0000FFFF#32 ∧ (∀ r : Reg, r ≠ .cfg → t.readReg r = 0#32) ∧
      t.enc.phase = .idle ∧ t.dec.phase = .idle ∧ t.refused = s.refused ∧ t.agenda = s.agenda.tail ∧
      (∀ a, ¬ s.inBusyDst a → t.mem.read a = s.mem.read a) ∧
      (∀ a, s.inBusyDst a → ∃ d, s.draws ≤ d ∧ d < t.draws ∧ t.mem.read a = Config.freeByte d a)

/-! ## Invariants -/

/-- The invariant holds right after reset. -/
def Obligations.InvariantHoldsAtReset : Prop := Invariant State.reset

/-- Every step keeps the invariant. -/
def Obligations.StepKeepsInvariant : Prop :=
  ∀ (s t : State), Invariant s → step s = .next t → Invariant t

/-- A step from a state with the invariant stops only because of a host access past the end of M or a refused mark. -/
def Obligations.StepStopsOnlyForTheHost : Prop :=
  ∀ (s : State), Safe s →
    (∃ t, step s = .next t) ∨
    (step s = .fault .noSuchAddress ∧
      ((∃ a len, s.agenda.head? = some (.memRead a len) ∧ 4294967296 < a + len) ∨
       (∃ a bytes, s.agenda.head? = some (.memWrite a bytes) ∧ 4294967296 < a + bytes.length)))

/-- 70_reset_and_hazards.md R269: with no host access to come, both engines are idle after at most the sum of their
bounds. -/
def Obligations.BusyEnginesFinish : Prop :=
  ∀ (s : State), Safe s → s.agenda = [] →
    ∃ t, core.run (decodeStepBound s.dec.job.n.toNat + encodeStepBound s.enc.job.n.toNat) s = .next t ∧
      t.enc.phase = .idle ∧ t.dec.phase = .idle
end

