-- ==== Sys2Proof/Laws/Bytes.lean ====
section
/-! SUPPORT. The laws of byte order, of the encoder's lengths and of the operands' values (00_scope.md section 4). -/

namespace Sys2Proof

/-- `le16(b0, b1) = b0 + 256·b1`. -/
theorem le16_toNat (b0 b1 : Byte) : (le16 b0 b1).toNat = b0.toNat + 256 * b1.toNat := by
  simp only [le16, BitVec.toNat_append]
  rw [← Nat.shiftLeft_add_eq_or_of_lt b0.isLt, Nat.shiftLeft_eq]
  omega

/-- `le32(b0, b1, b2, b3) = b0 + 2^8·b1 + 2^16·b2 + 2^24·b3`. -/
theorem le32_toNat (b0 b1 b2 b3 : Byte) :
    (le32 b0 b1 b2 b3).toNat =
      b0.toNat + 256 * b1.toNat + 65536 * b2.toNat + 16777216 * b3.toNat := by
  simp only [le32, BitVec.toNat_append]
  rw [← Nat.shiftLeft_add_eq_or_of_lt b0.isLt, ← Nat.shiftLeft_add_eq_or_of_lt b1.isLt,
    ← Nat.shiftLeft_add_eq_or_of_lt b2.isLt]
  simp only [Nat.shiftLeft_eq]
  omega

@[simp] theorem enc16_length (x : Count) : (enc16 x).length = 2 := rfl

@[simp] theorem enc32_length (x : Word) : (enc32 x).length = 4 := rfl

/-- An instruction's encoding has the length 30_encoding.md R106 gives it. -/
@[simp] theorem encode_length (i : Instr) : (encode i).length = i.length := by
  cases i <;> (simp [encode, Instr.length, enc16, enc32]; try omega)

@[simp] theorem expand_rpt (c : Count) (v : Byte) : (Instr.rpt c v).expand = List.replicate c.toNat v := rfl

@[simp] theorem expand_lit (bytes : List Byte) : (Instr.lit bytes).expand = bytes := rfl

@[simp] theorem expand_hdr (l : Word) : (Instr.hdr l).expand = [] := rfl

/-- A block denotes as many bytes as its count says (30_encoding.md R105). -/
@[simp] theorem expand_length (i : Instr) : i.expand.length = i.count := by
  cases i <;> simp [Instr.expand, Instr.count]

/-- A number that fits a word is the word's value. -/
theorem word_toNat {n : Nat} (w : Word) (h : n ≤ w.toNat) : (Word.ofNat n).toNat = n := by
  have := w.isLt
  simp only [BitVec.toNat_ofNat]
  exact Nat.mod_eq_of_lt (by omega)

theorem le16_enc16 (x : Count) : le16 (x.extractLsb' 0 8) (x.extractLsb' 8 8) = x := by
  apply BitVec.eq_of_toNat_eq
  have := x.isLt
  simp [Nat.shiftRight_eq_div_pow, le16_toNat]
  omega

theorem le32_enc32 (x : Word) :
    le32 (x.extractLsb' 0 8) (x.extractLsb' 8 8) (x.extractLsb' 16 8) (x.extractLsb' 24 8) = x := by
  apply BitVec.eq_of_toNat_eq
  have := x.isLt
  simp [Nat.shiftRight_eq_div_pow, le32_toNat]
  omega

theorem enc16_le16 (b0 b1 : Byte) : enc16 (le16 b0 b1) = [b0, b1] := by
  have := b0.isLt
  have := b1.isLt
  have h0 : (le16 b0 b1).extractLsb' 0 8 = b0 := by
    apply BitVec.eq_of_toNat_eq; simp [Nat.shiftRight_eq_div_pow, le16_toNat]; omega
  have h1 : (le16 b0 b1).extractLsb' 8 8 = b1 := by
    apply BitVec.eq_of_toNat_eq; simp [Nat.shiftRight_eq_div_pow, le16_toNat]; omega
  simp only [enc16, h0, h1]

theorem enc32_le32 (b0 b1 b2 b3 : Byte) : enc32 (le32 b0 b1 b2 b3) = [b0, b1, b2, b3] := by
  have := b0.isLt
  have := b1.isLt
  have := b2.isLt
  have := b3.isLt
  have h0 : (le32 b0 b1 b2 b3).extractLsb' 0 8 = b0 := by
    apply BitVec.eq_of_toNat_eq; simp [Nat.shiftRight_eq_div_pow, le32_toNat]; omega
  have h1 : (le32 b0 b1 b2 b3).extractLsb' 8 8 = b1 := by
    apply BitVec.eq_of_toNat_eq; simp [Nat.shiftRight_eq_div_pow, le32_toNat]; omega
  have h2 : (le32 b0 b1 b2 b3).extractLsb' 16 8 = b2 := by
    apply BitVec.eq_of_toNat_eq; simp [Nat.shiftRight_eq_div_pow, le32_toNat]; omega
  have h3 : (le32 b0 b1 b2 b3).extractLsb' 24 8 = b3 := by
    apply BitVec.eq_of_toNat_eq; simp [Nat.shiftRight_eq_div_pow, le32_toNat]; omega
  simp only [enc32, h0, h1, h2, h3]

end Sys2Proof
end

