-- ==== Sys2Proof/Laws/Memory.lean ====
section
/-! SUPPORT. The laws of M: a read after a write, what a write leaves alone, and that every operation keeps the
canonical form. -/

namespace Sys2Proof.Machine

/-! ## Cells -/

theorem cellAt_append (xs ys : List Host.Cell) (a : Nat) :
    cellAt (xs ++ ys) a = (cellAt xs a).or (cellAt ys a) := by
  induction xs with
  | nil => simp [cellAt]
  | cons c xs ih =>
    obtain ⟨b, v⟩ := c
    by_cases h : a = b <;> simp [cellAt, h, ih]

theorem cellAt_eq_none {cells : List Host.Cell} {a : Nat} (h : ∀ c ∈ cells, c.1 ≠ a) : cellAt cells a = none := by
  induction cells with
  | nil => rfl
  | cons c cells ih =>
    obtain ⟨b, v⟩ := c
    have hb : a ≠ b := fun hab => h (b, v) (by simp) hab.symm
    simp only [cellAt, if_neg hb]
    exact ih fun c hc => h c (by simp [hc])

theorem cellAt_filter (p : Nat → Bool) (cells : List Host.Cell) (a : Nat) :
    cellAt (cells.filter fun c => p c.1) a = if p a then cellAt cells a else none := by
  induction cells with
  | nil => simp [cellAt]
  | cons c cells ih =>
    obtain ⟨b, v⟩ := c
    by_cases hp : p b <;> by_cases hab : a = b
    · subst hab; simp [hp, cellAt]
    · simp [hp, cellAt, hab, ih]
    · subst hab; simp [hp, ih]
    · simp [hp, cellAt, hab, ih]

theorem cellAt_cellsBelow (cells : List Host.Cell) (e a : Nat) :
    cellAt (cellsBelow cells e) a = if a < e then cellAt cells a else none := by
  simpa [cellsBelow] using cellAt_filter (fun x => decide (x < e)) cells a

theorem cellAt_cellsFrom (cells : List Host.Cell) (e a : Nat) :
    cellAt (cellsFrom cells e) a = if e ≤ a then cellAt cells a else none := by
  simpa [cellsFrom] using cellAt_filter (fun x => decide (e ≤ x)) cells a

theorem layOut_addr {a : Nat} {bytes : List Byte} {c : Host.Cell} (h : c ∈ layOut a bytes) :
    a ≤ c.1 ∧ c.1 < a + bytes.length := by
  induction bytes generalizing a with
  | nil => simp [layOut] at h
  | cons b bytes ih =>
    simp only [layOut, List.mem_cons] at h
    rcases h with rfl | h
    · simp
    · have := ih h
      simp only [List.length_cons]
      omega

theorem cellAt_layOut_outside {a x : Nat} {bytes : List Byte} (h : x < a ∨ a + bytes.length ≤ x) :
    cellAt (layOut a bytes) x = none :=
  cellAt_eq_none fun c hc hx => by have := layOut_addr hc; omega

theorem cellAt_layOut_inside (a k : Nat) (bytes : List Byte) :
    cellAt (layOut a bytes) (a + k) = bytes[k]? := by
  induction bytes generalizing a k with
  | nil => simp [layOut, cellAt]
  | cons b bytes ih =>
    cases k with
    | zero => simp [layOut, cellAt]
    | succ k =>
      have h := ih (a + 1) k
      rw [show a + 1 + k = a + (k + 1) by omega] at h
      simp [layOut, cellAt, h]

/-! ## Reads after writes -/

@[simp] theorem readBytes_length (m : Memory) (a k : Nat) : (m.readBytes a k).length = k := by
  induction k generalizing a with
  | zero => rfl
  | succ k ih => simp [Memory.readBytes, ih]

theorem readBytes_getElem? (m : Memory) (a k i : Nat) :
    (m.readBytes a k)[i]? = if i < k then some (m.read (a + i)) else none := by
  induction k generalizing a i with
  | zero => simp [Memory.readBytes]
  | succ k ih =>
    cases i with
    | zero => simp [Memory.readBytes]
    | succ i =>
      simp only [Memory.readBytes, List.getElem?_cons_succ, ih, Nat.add_lt_add_iff_right]
      rw [show a + 1 + i = a + (i + 1) by omega]

theorem readBytes_append (m : Memory) (a j k : Nat) :
    m.readBytes a (j + k) = m.readBytes a j ++ m.readBytes (a + j) k := by
  induction j generalizing a with
  | zero => simp [Memory.readBytes]
  | succ j ih =>
    rw [show j + 1 + k = (j + k) + 1 by omega]
    simp only [Memory.readBytes, ih, List.cons_append]
    rw [show a + 1 + j = a + (j + 1) by omega]

theorem readBytes_congr {m m' : Memory} {a k : Nat} (h : ∀ x, a ≤ x → x < a + k → m.read x = m'.read x) :
    m.readBytes a k = m'.readBytes a k := by
  induction k generalizing a with
  | zero => rfl
  | succ k ih =>
    simp only [Memory.readBytes]
    rw [h a (by omega) (by omega), ih fun x h1 h2 => h x (by omega) (by omega)]

theorem readBytes_take (m : Memory) (a n k : Nat) : (m.readBytes a n).take k = m.readBytes a (min n k) := by
  apply List.ext_getElem?
  intro i
  rw [readBytes_getElem?, List.getElem?_take, readBytes_getElem?]
  by_cases h1 : i < k <;> by_cases h2 : i < n <;> simp [h1, h2]

theorem readBytes_drop (m : Memory) (a n k : Nat) : (m.readBytes a n).drop k = m.readBytes (a + k) (n - k) := by
  apply List.ext_getElem?
  intro i
  rw [List.getElem?_drop, readBytes_getElem?, readBytes_getElem?]
  by_cases h : k + i < n
  · rw [if_pos h, if_pos (by omega), Nat.add_assoc]
  · rw [if_neg h, if_neg (by omega)]

/-- A write leaves every address outside its bytes alone. -/
theorem read_writeBytes_outside (m : Memory) {a x : Nat} {bytes : List Byte}
    (h : x < a ∨ a + bytes.length ≤ x) : (m.writeBytes a bytes).read x = m.read x := by
  have hc : cellAt (m.writeBytes a bytes).cells x = cellAt m.cells x := by
    simp only [Memory.writeBytes, cellAt_append, cellAt_cellsBelow, cellAt_cellsFrom, cellAt_layOut_outside h]
    rcases h with h | h
    · have : ¬ a + bytes.length ≤ x := by omega
      simp [h, this]
    · have : ¬ x < a := by omega
      simp [h, this]
  have ho : (m.writeBytes a bytes).openByte x = m.openByte x := rfl
  rw [Memory.read, hc, ho, Memory.read]

/-- A read after a write to the same place gives the value written. -/
theorem read_writeBytes_inside (m : Memory) {a k : Nat} {bytes : List Byte} (h : k < bytes.length) :
    (m.writeBytes a bytes).read (a + k) = bytes[k] := by
  have h1 : ¬ a + k < a := by omega
  simp [Memory.read, Memory.writeBytes, cellAt_append, cellAt_cellsBelow, cellAt_layOut_inside, h1, h]

theorem readBytes_writeBytes_same (m : Memory) (a : Nat) (bytes : List Byte) :
    (m.writeBytes a bytes).readBytes a bytes.length = bytes := by
  apply List.ext_getElem?
  intro i
  rw [readBytes_getElem?]
  by_cases h : i < bytes.length
  · rw [if_pos h, read_writeBytes_inside m h, List.getElem?_eq_getElem h]
  · rw [if_neg h, List.getElem?_eq_none (by omega)]

/-- Making a window unspecified leaves every address outside it alone. -/
theorem read_unspecify_outside (m : Memory) {w : Window} {d x : Nat} (h : ¬ w.contains x) :
    (m.unspecify w d).read x = m.read x := by
  unfold Memory.unspecify
  split
  · rfl
  · have hc : cellAt (cellsBelow m.cells w.base ++ cellsFrom m.cells (w.base + w.size)) x = cellAt m.cells x := by
      simp only [cellAt_append, cellAt_cellsBelow, cellAt_cellsFrom]
      by_cases h1 : x < w.base
      · have h2 : ¬ w.base + w.size ≤ x := by omega
        simp [h1, h2]
      · have h2 : w.base + w.size ≤ x := by
          simp only [Window.contains, not_and, Nat.not_lt] at h
          exact h (by omega)
        simp [h1, h2]
    have hf : (m.unspecified.filter fun u => decide (¬ u.window.within w)).find?
          (fun u => decide (u.window.contains x)) =
        m.unspecified.find? (fun u => decide (u.window.contains x)) := by
      induction m.unspecified with
      | nil => rfl
      | cons u us ih =>
        by_cases hu : u.window.contains x
        · have hn : ¬ u.window.within w := by
            intro hw
            simp only [Window.contains, Window.within] at *
            omega
          rw [List.filter_cons_of_pos (by exact decide_eq_true hn), List.find?_cons_of_pos (by simpa using hu),
            List.find?_cons_of_pos (by simpa using hu)]
        · by_cases hw : u.window.within w
          · rw [List.filter_cons_of_neg (by simpa only [decide_eq_true_eq, not_not] using hw), List.find?_cons_of_neg (by simpa using hu)]
            exact ih
          · rw [List.filter_cons_of_pos (by exact decide_eq_true hw), List.find?_cons_of_neg (by simpa using hu),
              List.find?_cons_of_neg (by simpa using hu)]
            exact ih
    simp only [Memory.read, Memory.openByte, hc]
    rw [List.find?_cons_of_neg (by simpa using h), hf]

/-- A byte of a window made unspecified is the draw's. -/
theorem read_unspecify_inside (m : Memory) {w : Window} {d x : Nat} (h : w.contains x) :
    (m.unspecify w d).read x = Config.freeByte d x := by
  have hs : w.size ≠ 0 := by simp only [Window.contains] at h; omega
  have h1 : ¬ x < w.base := by simp only [Window.contains] at h; omega
  have h2 : ¬ w.base + w.size ≤ x := by simp only [Window.contains] at h; omega
  simp [Memory.unspecify, hs, Memory.read, cellAt_append, cellAt_cellsBelow, cellAt_cellsFrom, h1, h2,
    Memory.openByte, h]

/-! ## Loads and stores -/

theorem load_eq_some {m : Memory} {a k : Nat} {bytes : List Byte} :
    m.load a k = some bytes ↔ a + k ≤ Config.memSize ∧ bytes = m.readBytes a k := by
  unfold Memory.load
  split <;> simp_all [eq_comm]

theorem store_eq_some {m m' : Memory} {a : Nat} {bytes : List Byte} :
    m.store a bytes = some m' ↔ a + bytes.length ≤ Config.memSize ∧ m' = m.writeBytes a bytes := by
  unfold Memory.store
  split <;> simp_all [eq_comm]

/-! ## The canonical form -/

theorem layOut_sorted (a : Nat) (bytes : List Byte) :
    (layOut a bytes).Pairwise (fun x y => x.1 < y.1) := by
  induction bytes generalizing a with
  | nil => simp [layOut]
  | cons b bytes ih =>
    refine List.Pairwise.cons (fun c hc => ?_) (ih (a + 1))
    have := layOut_addr hc
    simp only
    omega

theorem mem_cellsBelow {cells : List Host.Cell} {e : Nat} {c : Host.Cell} :
    c ∈ cellsBelow cells e ↔ c ∈ cells ∧ c.1 < e := by simp [cellsBelow]

theorem mem_cellsFrom {cells : List Host.Cell} {e : Nat} {c : Host.Cell} :
    c ∈ cellsFrom cells e ↔ c ∈ cells ∧ e ≤ c.1 := by simp [cellsFrom]

theorem powerOn_wf : Memory.powerOn.wf := by simp [Memory.powerOn, Memory.wf]

/-- A write inside M keeps the canonical form. -/
theorem writeBytes_wf {m : Memory} {a : Nat} {bytes : List Byte} (hm : m.wf)
    (h : a + bytes.length ≤ Config.memSize) : (m.writeBytes a bytes).wf := by
  obtain ⟨hs, hr, hu, hp⟩ := hm
  refine ⟨?_, ?_, hu, hp⟩
  · simp only [Memory.writeBytes, List.pairwise_append, List.mem_append]
    refine ⟨⟨hs.filter _, layOut_sorted a bytes, ?_⟩, hs.filter _, ?_⟩
    · intro x hx y hy
      have := mem_cellsBelow.mp hx
      have := layOut_addr hy
      omega
    · intro x hx y hy
      have hy := mem_cellsFrom.mp hy
      rcases hx with hx | hx
      · have := mem_cellsBelow.mp hx
        omega
      · have := layOut_addr hx
        omega
  · intro c hc
    simp only [Memory.writeBytes, List.mem_append] at hc
    rcases hc with (hc | hc) | hc
    · exact hr c (mem_cellsBelow.mp hc).1
    · have := layOut_addr hc
      omega
    · exact hr c (mem_cellsFrom.mp hc).1

/-- A store keeps the canonical form. -/
theorem store_wf {m m' : Memory} {a : Nat} {bytes : List Byte} (hm : m.wf) (h : m.store a bytes = some m') :
    m'.wf := by
  obtain ⟨hle, rfl⟩ := store_eq_some.mp h
  exact writeBytes_wf hm hle

/-- Making a window of M unspecified keeps the canonical form. -/
theorem unspecify_wf {m : Memory} {w : Window} {d : Nat} (hm : m.wf) (h : w.inMemory) : (m.unspecify w d).wf := by
  obtain ⟨hs, hr, hu, hp⟩ := hm
  unfold Memory.unspecify
  split
  · exact ⟨hs, hr, hu, hp⟩
  · refine ⟨?_, ?_, ?_, ?_⟩
    · simp only [List.pairwise_append]
      refine ⟨hs.filter _, hs.filter _, fun x hx y hy => ?_⟩
      have := mem_cellsBelow.mp hx
      have := mem_cellsFrom.mp hy
      omega
    · intro c hc
      rcases List.mem_append.mp hc with hc | hc
      · exact hr c (mem_cellsBelow.mp hc).1
      · exact hr c (mem_cellsFrom.mp hc).1
    · intro u hu'
      rcases List.mem_cons.mp hu' with rfl | hu'
      · exact ⟨by simp only; omega, h⟩
      · exact hu u (List.mem_filter.mp hu').1
    · refine List.Pairwise.cons (fun u hu' => ?_) (hp.filter _)
      exact of_decide_eq_true (List.mem_filter.mp hu').2

/-- The draws in an unspecified memory are the old ones and the new one. -/
theorem unspecify_draws {m : Memory} {w : Window} {d : Nat} {u : Unspecified}
    (h : u ∈ (m.unspecify w d).unspecified) : u ∈ m.unspecified ∨ u.draw = d := by
  unfold Memory.unspecify at h
  split at h
  · exact .inl h
  · rcases List.mem_cons.mp h with rfl | h
    · exact .inr rfl
    · exact .inl (List.mem_filter.mp h).1

/-! ## What determines a memory -/

/-- What is in the cells after a write. -/
theorem cellAt_writeBytes (m : Memory) (a x : Nat) (bytes : List Byte) :
    cellAt (m.writeBytes a bytes).cells x =
      if a ≤ x ∧ x < a + bytes.length then bytes[x - a]? else cellAt m.cells x := by
  simp only [Memory.writeBytes, cellAt_append, cellAt_cellsBelow, cellAt_cellsFrom]
  by_cases h : a ≤ x ∧ x < a + bytes.length
  · obtain ⟨k, rfl⟩ : ∃ k, x = a + k := ⟨x - a, by omega⟩
    have h1 : ¬ a + k < a := by omega
    have h2 : ¬ a + bytes.length ≤ a + k := by omega
    rw [if_neg h1, if_neg h2, if_pos h, cellAt_layOut_inside]
    simp
  · rw [if_neg h, cellAt_layOut_outside (by omega)]
    by_cases h1 : x < a
    · have h2 : ¬ a + bytes.length ≤ x := by omega
      simp [h1, h2]
    · have h2 : a + bytes.length ≤ x := by omega
      simp [h1, h2]

theorem cellAt_eq_none_of_lt {cells : List Host.Cell} {a : Nat} (h : ∀ c ∈ cells, a < c.1) : cellAt cells a = none :=
  cellAt_eq_none fun c hc => by have := h c hc; omega

/-- Cells by rising address are determined by what they hold. -/
theorem cells_ext : ∀ {xs ys : List Host.Cell}, xs.Pairwise (fun x y => x.1 < y.1) →
    ys.Pairwise (fun x y => x.1 < y.1) → (∀ a, cellAt xs a = cellAt ys a) → xs = ys
  | [], [], _, _, _ => rfl
  | [], (b, v) :: ys, _, _, h => by have := h b; simp [cellAt] at this
  | (b, v) :: xs, [], _, _, h => by have := h b; simp [cellAt] at this
  | (b, v) :: xs, (c, w) :: ys, hx, hy, h => by
    obtain ⟨hx1, hx2⟩ := List.pairwise_cons.mp hx
    obtain ⟨hy1, hy2⟩ := List.pairwise_cons.mp hy
    have hbc : b = c := by
      rcases Nat.lt_trichotomy b c with hlt | heq | hlt
      · have hb := h b
        rw [cellAt_eq_none_of_lt (cells := (c, w) :: ys)] at hb
        · simp [cellAt] at hb
        · intro d hd
          rcases List.mem_cons.mp hd with rfl | hd
          · exact hlt
          · exact Nat.lt_trans hlt (hy1 d hd)
      · exact heq
      · have hc := h c
        rw [cellAt_eq_none_of_lt (cells := (b, v) :: xs)] at hc
        · simp [cellAt] at hc
        · intro d hd
          rcases List.mem_cons.mp hd with rfl | hd
          · exact hlt
          · exact Nat.lt_trans hlt (hx1 d hd)
    subst hbc
    have hv := h b
    simp only [cellAt, if_true, Option.some.injEq] at hv
    subst hv
    congr 1
    refine cells_ext hx2 hy2 fun a => ?_
    by_cases hab : a = b
    · subst hab
      rw [cellAt_eq_none_of_lt hx1, cellAt_eq_none_of_lt hy1]
    · have := h a
      simpa only [cellAt, if_neg hab] using this

/-- Canonical memories that hold the same are equal. -/
theorem memory_ext {m m' : Memory} (hm : m.wf) (hm' : m'.wf) (hu : m.unspecified = m'.unspecified)
    (h : ∀ a, cellAt m.cells a = cellAt m'.cells a) : m = m' := by
  cases m; cases m'
  simp only at hu
  subst hu
  congr 1
  exact cells_ext hm.1 hm'.1 h

/-- Writes to disjoint ranges commute. -/
theorem writeBytes_comm {m : Memory} {a b : Nat} {xs ys : List Byte} (hm : m.wf)
    (ha : a + xs.length ≤ Config.memSize) (hb : b + ys.length ≤ Config.memSize)
    (hd : xs = [] ∨ ys = [] ∨ a + xs.length ≤ b ∨ b + ys.length ≤ a) :
    (m.writeBytes a xs).writeBytes b ys = (m.writeBytes b ys).writeBytes a xs := by
  refine memory_ext (writeBytes_wf (writeBytes_wf hm ha) hb) (writeBytes_wf (writeBytes_wf hm hb) ha) rfl fun x => ?_
  simp only [cellAt_writeBytes]
  split <;> split <;> first | rfl | skip
  rcases hd with rfl | rfl | hd | hd
  · simp only [List.length_nil] at *; omega
  · simp only [List.length_nil] at *; omega
  · omega
  · omega

/-- Two writes that follow each other are one write. -/
theorem writeBytes_append {m : Memory} {a : Nat} {xs ys : List Byte} (hm : m.wf)
    (h : a + (xs ++ ys).length ≤ Config.memSize) :
    (m.writeBytes a xs).writeBytes (a + xs.length) ys = m.writeBytes a (xs ++ ys) := by
  have h' := h
  simp only [List.length_append] at h'
  refine memory_ext (writeBytes_wf (writeBytes_wf hm (by omega)) (by omega)) (writeBytes_wf hm h) rfl fun x => ?_
  simp only [cellAt_writeBytes, List.length_append]
  by_cases h1 : a ≤ x ∧ x < a + xs.length
  · rw [if_neg (by omega), if_pos h1, if_pos (by omega), List.getElem?_append_left (by omega)]
  · by_cases h2 : a + xs.length ≤ x ∧ x < a + xs.length + ys.length
    · rw [if_pos h2, if_pos (by omega), List.getElem?_append_right (by omega)]
      congr 1; omega
    · rw [if_neg h2, if_neg h1, if_neg (by omega)]

/-- Writing nothing changes nothing. -/
theorem writeBytes_nil {m : Memory} (hm : m.wf) {a : Nat} (h : a ≤ Config.memSize) : m.writeBytes a [] = m := by
  refine memory_ext (writeBytes_wf hm (by simpa using h)) hm rfl fun x => ?_
  rw [cellAt_writeBytes, if_neg (by simp)]

end Sys2Proof.Machine
end

