-- ==== Sys2Proof/Laws/State.lean ====
section
/-! SUPPORT. One lemma per field per update of the state, each true by unfolding the update. -/

namespace Sys2Proof.Machine

/-! ## setStatus -/

@[simp] theorem setStatus_cfg (s : State) (e : Engine) (st : Status) : (s.setStatus e st).cfg = s.cfg := by
  cases e <;> rfl

@[simp] theorem setStatus_lenmm (s : State) (e : Engine) (st : Status) : (s.setStatus e st).lenmm = s.lenmm := by
  cases e <;> rfl

@[simp] theorem setStatus_hdrLen (s : State) (e : Engine) (st : Status) : (s.setStatus e st).hdrLen = s.hdrLen := by
  cases e <;> rfl

@[simp] theorem setStatus_errOff (s : State) (e : Engine) (st : Status) : (s.setStatus e st).errOff = s.errOff := by
  cases e <;> rfl

@[simp] theorem setStatus_enc (s : State) (e : Engine) (st : Status) : (s.setStatus e st).enc = s.enc := by
  cases e <;> rfl

@[simp] theorem setStatus_dec (s : State) (e : Engine) (st : Status) : (s.setStatus e st).dec = s.dec := by
  cases e <;> rfl

@[simp] theorem setStatus_mem (s : State) (e : Engine) (st : Status) : (s.setStatus e st).mem = s.mem := by
  cases e <;> rfl

@[simp] theorem setStatus_refused (s : State) (e : Engine) (st : Status) : (s.setStatus e st).refused = s.refused := by
  cases e <;> rfl

@[simp] theorem setStatus_agenda (s : State) (e : Engine) (st : Status) : (s.setStatus e st).agenda = s.agenda := by
  cases e <;> rfl

@[simp] theorem setStatus_response (s : State) (e : Engine) (st : Status) : (s.setStatus e st).response = s.response := by
  cases e <;> rfl

@[simp] theorem setStatus_draws (s : State) (e : Engine) (st : Status) : (s.setStatus e st).draws = s.draws := by
  cases e <;> rfl

@[simp] theorem setStatus_status (s : State) (e : Engine) (st : Status) : ((s.setStatus e st).regs e).status = st := by
  cases e <;> rfl

@[simp] theorem setStatus_enc_decRegs (s : State) (st : Status) : (s.setStatus .enc st).decRegs = s.decRegs := rfl

@[simp] theorem setStatus_dec_encRegs (s : State) (st : Status) : (s.setStatus .dec st).encRegs = s.encRegs := rfl

/-! ## setOutLen -/

@[simp] theorem setOutLen_cfg (s : State) (e : Engine) (len : Word) : (s.setOutLen e len).cfg = s.cfg := by
  cases e <;> rfl

@[simp] theorem setOutLen_lenmm (s : State) (e : Engine) (len : Word) : (s.setOutLen e len).lenmm = s.lenmm := by
  cases e <;> rfl

@[simp] theorem setOutLen_hdrLen (s : State) (e : Engine) (len : Word) : (s.setOutLen e len).hdrLen = s.hdrLen := by
  cases e <;> rfl

@[simp] theorem setOutLen_errOff (s : State) (e : Engine) (len : Word) : (s.setOutLen e len).errOff = s.errOff := by
  cases e <;> rfl

@[simp] theorem setOutLen_enc (s : State) (e : Engine) (len : Word) : (s.setOutLen e len).enc = s.enc := by
  cases e <;> rfl

@[simp] theorem setOutLen_dec (s : State) (e : Engine) (len : Word) : (s.setOutLen e len).dec = s.dec := by
  cases e <;> rfl

@[simp] theorem setOutLen_mem (s : State) (e : Engine) (len : Word) : (s.setOutLen e len).mem = s.mem := by
  cases e <;> rfl

@[simp] theorem setOutLen_refused (s : State) (e : Engine) (len : Word) : (s.setOutLen e len).refused = s.refused := by
  cases e <;> rfl

@[simp] theorem setOutLen_agenda (s : State) (e : Engine) (len : Word) : (s.setOutLen e len).agenda = s.agenda := by
  cases e <;> rfl

@[simp] theorem setOutLen_response (s : State) (e : Engine) (len : Word) : (s.setOutLen e len).response = s.response := by
  cases e <;> rfl

@[simp] theorem setOutLen_draws (s : State) (e : Engine) (len : Word) : (s.setOutLen e len).draws = s.draws := by
  cases e <;> rfl

@[simp] theorem setOutLen_outLen (s : State) (e : Engine) (len : Word) : ((s.setOutLen e len).regs e).outLen = len := by
  cases e <;> rfl

/-! ## toIdle -/

@[simp] theorem toIdle_cfg (s : State) (e : Engine) : (s.toIdle e).cfg = s.cfg := by
  cases e <;> rfl

@[simp] theorem toIdle_encRegs (s : State) (e : Engine) : (s.toIdle e).encRegs = s.encRegs := by
  cases e <;> rfl

@[simp] theorem toIdle_decRegs (s : State) (e : Engine) : (s.toIdle e).decRegs = s.decRegs := by
  cases e <;> rfl

@[simp] theorem toIdle_lenmm (s : State) (e : Engine) : (s.toIdle e).lenmm = s.lenmm := by
  cases e <;> rfl

@[simp] theorem toIdle_hdrLen (s : State) (e : Engine) : (s.toIdle e).hdrLen = s.hdrLen := by
  cases e <;> rfl

@[simp] theorem toIdle_errOff (s : State) (e : Engine) : (s.toIdle e).errOff = s.errOff := by
  cases e <;> rfl

@[simp] theorem toIdle_mem (s : State) (e : Engine) : (s.toIdle e).mem = s.mem := by
  cases e <;> rfl

@[simp] theorem toIdle_refused (s : State) (e : Engine) : (s.toIdle e).refused = s.refused := by
  cases e <;> rfl

@[simp] theorem toIdle_agenda (s : State) (e : Engine) : (s.toIdle e).agenda = s.agenda := by
  cases e <;> rfl

@[simp] theorem toIdle_response (s : State) (e : Engine) : (s.toIdle e).response = s.response := by
  cases e <;> rfl

@[simp] theorem toIdle_draws (s : State) (e : Engine) : (s.toIdle e).draws = s.draws := by
  cases e <;> rfl

@[simp] theorem toIdle_job (s : State) (e f : Engine) : (s.toIdle e).job f = s.job f := by
  cases e <;> cases f <;> rfl

/-! ## unspecify -/

@[simp] theorem unspecify_cfg (s : State) (w : Window) : (s.unspecify w).cfg = s.cfg := rfl

@[simp] theorem unspecify_encRegs (s : State) (w : Window) : (s.unspecify w).encRegs = s.encRegs := rfl

@[simp] theorem unspecify_decRegs (s : State) (w : Window) : (s.unspecify w).decRegs = s.decRegs := rfl

@[simp] theorem unspecify_lenmm (s : State) (w : Window) : (s.unspecify w).lenmm = s.lenmm := rfl

@[simp] theorem unspecify_hdrLen (s : State) (w : Window) : (s.unspecify w).hdrLen = s.hdrLen := rfl

@[simp] theorem unspecify_errOff (s : State) (w : Window) : (s.unspecify w).errOff = s.errOff := rfl

@[simp] theorem unspecify_enc (s : State) (w : Window) : (s.unspecify w).enc = s.enc := rfl

@[simp] theorem unspecify_dec (s : State) (w : Window) : (s.unspecify w).dec = s.dec := rfl

@[simp] theorem unspecify_refused (s : State) (w : Window) : (s.unspecify w).refused = s.refused := rfl

@[simp] theorem unspecify_agenda (s : State) (w : Window) : (s.unspecify w).agenda = s.agenda := rfl

@[simp] theorem unspecify_response (s : State) (w : Window) : (s.unspecify w).response = s.response := rfl

@[simp] theorem unspecify_mem (s : State) (w : Window) : (s.unspecify w).mem = s.mem.unspecify w s.draws := rfl

@[simp] theorem unspecify_draws_succ (s : State) (w : Window) : (s.unspecify w).draws = s.draws + 1 := rfl

/-! ## faultStatus -/

@[simp] theorem faultStatus_cfg (s : State) (e : Engine) (err : ErrCode) (off : Word) : (s.faultStatus e err off).cfg = s.cfg := by
  cases e <;> rfl

@[simp] theorem faultStatus_hdrLen (s : State) (e : Engine) (err : ErrCode) (off : Word) : (s.faultStatus e err off).hdrLen = s.hdrLen := by
  cases e <;> rfl

@[simp] theorem faultStatus_mem (s : State) (e : Engine) (err : ErrCode) (off : Word) : (s.faultStatus e err off).mem = s.mem := by
  cases e <;> rfl

@[simp] theorem faultStatus_refused (s : State) (e : Engine) (err : ErrCode) (off : Word) : (s.faultStatus e err off).refused = s.refused := by
  cases e <;> rfl

@[simp] theorem faultStatus_agenda (s : State) (e : Engine) (err : ErrCode) (off : Word) : (s.faultStatus e err off).agenda = s.agenda := by
  cases e <;> rfl

@[simp] theorem faultStatus_response (s : State) (e : Engine) (err : ErrCode) (off : Word) : (s.faultStatus e err off).response = s.response := by
  cases e <;> rfl

@[simp] theorem faultStatus_draws (s : State) (e : Engine) (err : ErrCode) (off : Word) : (s.faultStatus e err off).draws = s.draws := by
  cases e <;> rfl

@[simp] theorem faultStatus_enc_decRegs (s : State) (err : ErrCode) (off : Word) : (s.faultStatus .enc err off).decRegs = s.decRegs := rfl

@[simp] theorem faultStatus_enc_dec (s : State) (err : ErrCode) (off : Word) : (s.faultStatus .enc err off).dec = s.dec := rfl

@[simp] theorem faultStatus_enc_lenmm (s : State) (err : ErrCode) (off : Word) : (s.faultStatus .enc err off).lenmm = s.lenmm := rfl

@[simp] theorem faultStatus_enc_errOff (s : State) (err : ErrCode) (off : Word) : (s.faultStatus .enc err off).errOff = s.errOff := rfl

@[simp] theorem faultStatus_dec_encRegs (s : State) (err : ErrCode) (off : Word) : (s.faultStatus .dec err off).encRegs = s.encRegs := rfl

@[simp] theorem faultStatus_dec_enc (s : State) (err : ErrCode) (off : Word) : (s.faultStatus .dec err off).enc = s.enc := rfl

@[simp] theorem faultStatus_enc_encRegs (s : State) (err : ErrCode) (off : Word) :
    (s.faultStatus .enc err off).encRegs = { s.encRegs with status := .ended err } := rfl

@[simp] theorem faultStatus_enc_enc (s : State) (err : ErrCode) (off : Word) :
    (s.faultStatus .enc err off).enc = { s.enc with phase := .idle } := rfl

@[simp] theorem faultStatus_dec_decRegs (s : State) (err : ErrCode) (off : Word) :
    (s.faultStatus .dec err off).decRegs = { s.decRegs with status := .ended err } := rfl

@[simp] theorem faultStatus_dec_dec (s : State) (err : ErrCode) (off : Word) :
    (s.faultStatus .dec err off).dec = { s.dec with phase := .idle } := rfl

@[simp] theorem faultStatus_dec_errOff (s : State) (err : ErrCode) (off : Word) : (s.faultStatus .dec err off).errOff = off := rfl

@[simp] theorem faultStatus_dec_lenmm (s : State) (err : ErrCode) (off : Word) : (s.faultStatus .dec err off).lenmm = false := rfl

/-! ## raiseFault -/

@[simp] theorem raiseFault_cfg (s : State) (e : Engine) (err : ErrCode) (off : Word) : (s.raiseFault e err off).cfg = s.cfg := by
  cases e <;> rfl

@[simp] theorem raiseFault_hdrLen (s : State) (e : Engine) (err : ErrCode) (off : Word) : (s.raiseFault e err off).hdrLen = s.hdrLen := by
  cases e <;> rfl

@[simp] theorem raiseFault_refused (s : State) (e : Engine) (err : ErrCode) (off : Word) : (s.raiseFault e err off).refused = s.refused := by
  cases e <;> rfl

@[simp] theorem raiseFault_agenda (s : State) (e : Engine) (err : ErrCode) (off : Word) : (s.raiseFault e err off).agenda = s.agenda := by
  cases e <;> rfl

@[simp] theorem raiseFault_response (s : State) (e : Engine) (err : ErrCode) (off : Word) : (s.raiseFault e err off).response = s.response := by
  cases e <;> rfl

@[simp] theorem raiseFault_enc_decRegs (s : State) (err : ErrCode) (off : Word) : (s.raiseFault .enc err off).decRegs = s.decRegs := rfl

@[simp] theorem raiseFault_enc_dec (s : State) (err : ErrCode) (off : Word) : (s.raiseFault .enc err off).dec = s.dec := rfl

@[simp] theorem raiseFault_enc_lenmm (s : State) (err : ErrCode) (off : Word) : (s.raiseFault .enc err off).lenmm = s.lenmm := rfl

@[simp] theorem raiseFault_enc_errOff (s : State) (err : ErrCode) (off : Word) : (s.raiseFault .enc err off).errOff = s.errOff := rfl

@[simp] theorem raiseFault_dec_encRegs (s : State) (err : ErrCode) (off : Word) : (s.raiseFault .dec err off).encRegs = s.encRegs := rfl

@[simp] theorem raiseFault_dec_enc (s : State) (err : ErrCode) (off : Word) : (s.raiseFault .dec err off).enc = s.enc := rfl

@[simp] theorem raiseFault_enc_encRegs (s : State) (err : ErrCode) (off : Word) :
    (s.raiseFault .enc err off).encRegs = { s.encRegs with status := .ended err } := rfl

@[simp] theorem raiseFault_enc_enc (s : State) (err : ErrCode) (off : Word) :
    (s.raiseFault .enc err off).enc = { s.enc with phase := .idle } := rfl

@[simp] theorem raiseFault_dec_decRegs (s : State) (err : ErrCode) (off : Word) :
    (s.raiseFault .dec err off).decRegs = { s.decRegs with status := .ended err } := rfl

@[simp] theorem raiseFault_dec_dec (s : State) (err : ErrCode) (off : Word) :
    (s.raiseFault .dec err off).dec = { s.dec with phase := .idle } := rfl

@[simp] theorem raiseFault_dec_errOff (s : State) (err : ErrCode) (off : Word) : (s.raiseFault .dec err off).errOff = off := rfl

@[simp] theorem raiseFault_dec_lenmm (s : State) (err : ErrCode) (off : Word) : (s.raiseFault .dec err off).lenmm = false := rfl

@[simp] theorem raiseFault_mem (s : State) (e : Engine) (err : ErrCode) (off : Word) :
    (s.raiseFault e err off).mem = s.mem.unspecify (s.job e).dstWindow s.draws := by
  cases e <;> rfl

@[simp] theorem raiseFault_draws (s : State) (e : Engine) (err : ErrCode) (off : Word) :
    (s.raiseFault e err off).draws = s.draws + 1 := by
  cases e <;> rfl

/-! ## clearOutcome -/

@[simp] theorem clearOutcome_cfg (s : State) (e : Engine) : (s.clearOutcome e).cfg = s.cfg := by
  cases e <;> rfl

@[simp] theorem clearOutcome_enc (s : State) (e : Engine) : (s.clearOutcome e).enc = s.enc := by
  cases e <;> rfl

@[simp] theorem clearOutcome_dec (s : State) (e : Engine) : (s.clearOutcome e).dec = s.dec := by
  cases e <;> rfl

@[simp] theorem clearOutcome_mem (s : State) (e : Engine) : (s.clearOutcome e).mem = s.mem := by
  cases e <;> rfl

@[simp] theorem clearOutcome_refused (s : State) (e : Engine) : (s.clearOutcome e).refused = s.refused := by
  cases e <;> rfl

@[simp] theorem clearOutcome_agenda (s : State) (e : Engine) : (s.clearOutcome e).agenda = s.agenda := by
  cases e <;> rfl

@[simp] theorem clearOutcome_response (s : State) (e : Engine) : (s.clearOutcome e).response = s.response := by
  cases e <;> rfl

@[simp] theorem clearOutcome_draws (s : State) (e : Engine) : (s.clearOutcome e).draws = s.draws := by
  cases e <;> rfl

/-! ## complete -/

@[simp] theorem complete_cfg (s : State) (e : Engine) (wr : Word) : (s.complete e wr).cfg = s.cfg := by
  cases e <;> rfl

@[simp] theorem complete_lenmm (s : State) (e : Engine) (wr : Word) : (s.complete e wr).lenmm = s.lenmm := by
  cases e <;> rfl

@[simp] theorem complete_hdrLen (s : State) (e : Engine) (wr : Word) : (s.complete e wr).hdrLen = s.hdrLen := by
  cases e <;> rfl

@[simp] theorem complete_errOff (s : State) (e : Engine) (wr : Word) : (s.complete e wr).errOff = s.errOff := by
  cases e <;> rfl

@[simp] theorem complete_refused (s : State) (e : Engine) (wr : Word) : (s.complete e wr).refused = s.refused := by
  cases e <;> rfl

@[simp] theorem complete_agenda (s : State) (e : Engine) (wr : Word) : (s.complete e wr).agenda = s.agenda := by
  cases e <;> rfl

@[simp] theorem complete_response (s : State) (e : Engine) (wr : Word) : (s.complete e wr).response = s.response := by
  cases e <;> rfl

@[simp] theorem complete_enc_decRegs (s : State) (wr : Word) : (s.complete .enc wr).decRegs = s.decRegs := rfl

@[simp] theorem complete_enc_dec (s : State) (wr : Word) : (s.complete .enc wr).dec = s.dec := rfl

@[simp] theorem complete_enc_encRegs (s : State) (wr : Word) :
    (s.complete .enc wr).encRegs = { s.encRegs with outLen := wr, status := .ended .none } := rfl

@[simp] theorem complete_enc_enc (s : State) (wr : Word) :
    (s.complete .enc wr).enc = { s.enc with phase := .idle } := rfl

@[simp] theorem complete_dec_encRegs (s : State) (wr : Word) : (s.complete .dec wr).encRegs = s.encRegs := rfl

@[simp] theorem complete_dec_enc (s : State) (wr : Word) : (s.complete .dec wr).enc = s.enc := rfl

@[simp] theorem complete_dec_decRegs (s : State) (wr : Word) :
    (s.complete .dec wr).decRegs = { s.decRegs with outLen := wr, status := .ended .none } := rfl

@[simp] theorem complete_dec_dec (s : State) (wr : Word) :
    (s.complete .dec wr).dec = { s.dec with phase := .idle } := rfl

@[simp] theorem complete_mem (s : State) (e : Engine) (wr : Word) :
    (s.complete e wr).mem = s.mem.unspecify
      { base := (s.job e).dst.toNat + wr.toNat, size := (s.job e).cap.toNat - wr.toNat } s.draws := by
  cases e <;> rfl

@[simp] theorem complete_draws (s : State) (e : Engine) (wr : Word) :
    (s.complete e wr).draws = s.draws + 1 := by
  cases e <;> rfl

end Sys2Proof.Machine
end

