-- ==== Sys2Proof/Laws/Exec.lean ====
section
/-! SUPPORT. What each shared operation of the engines can do, said once: later proofs cite these and do not unfold. -/

namespace Sys2Proof.Machine

/-! ## The decoder -/

/-- Everything `decodeBlockInto` can answer, guards included. -/
theorem decodeBlockInto_cases {s : State} {count len : Nat} {out : List Byte}
    {r : Host.Outcome State Fault Refusal} (h : s.decodeBlockInto count out len = r) :
    (s.dec.job.n.toNat < s.dec.rd.toNat + len ∧ r = .next (s.raiseFault .dec .truncated s.dec.rd)) ∨
    (s.dec.rd.toNat + len ≤ s.dec.job.n.toNat ∧ s.dec.job.cap.toNat < s.dec.wr.toNat + count ∧
      r = .next (s.raiseFault .dec .overflow s.dec.rd)) ∨
    (s.dec.rd.toNat + len ≤ s.dec.job.n.toNat ∧ s.dec.wr.toNat + count ≤ s.dec.job.cap.toNat ∧
      Config.memSize < s.dec.job.dst.toNat + s.dec.wr.toNat + count ∧ r = .fault .noSuchAddress) ∨
    (s.dec.rd.toNat + len ≤ s.dec.job.n.toNat ∧ s.dec.wr.toNat + count ≤ s.dec.job.cap.toNat ∧
      s.dec.job.dst.toNat + s.dec.wr.toNat + count ≤ Config.memSize ∧
      r = .next { s with
        mem := s.mem.writeBytes (s.dec.job.dst.toNat + s.dec.wr.toNat) out
        dec := { s.dec with
          wr := Word.ofNat (s.dec.wr.toNat + count)
          rd := Word.ofNat (s.dec.rd.toNat + len) } }) := by
  subst h
  unfold State.decodeBlockInto State.appendDecoded
  split
  · exact .inl ⟨by omega, rfl⟩
  · split
    · exact .inr (.inl ⟨by omega, by omega, rfl⟩)
    · split
      · exact .inr (.inr (.inl ⟨by omega, by omega, by omega, rfl⟩))
      · exact .inr (.inr (.inr ⟨by omega, by omega, by omega, rfl⟩))

/-- Everything HDR can answer. -/
theorem execHdr_cases {s : State} {length : Word} {r : Host.Outcome State Fault Refusal}
    (h : execHdr length s = r) :
    (s.dec.job.n.toNat < 4 ∧ r = .next (s.raiseFault .dec .truncated 0#32)) ∨
    (4 ≤ s.dec.job.n.toNat ∧
      r = .next { s with hdrLen := length, dec := { s.dec with hdr := length, rd := 4#32, phase := .blk } }) := by
  subst h
  unfold execHdr
  split
  · exact .inl ⟨by omega, rfl⟩
  · exact .inr ⟨by omega, rfl⟩

/-- RPT and LIT are one shared operation: a block of the instruction's length that denotes its expansion. -/
theorem exec_block {i : Instr} (h : i.position = .block) (s : State) :
    exec i s = s.decodeBlockInto i.count i.expand i.length := by
  cases i with
  | hdr length => simp [Instr.position] at h
  | rpt count value => rfl
  | lit payload => rfl

/-- An instruction that stands at the header is HDR. -/
theorem header_eq_hdr {i : Instr} (h : i.position = .header) : ∃ length, i = .hdr length := by
  cases i <;> simp_all [Instr.position]

/-- No instruction is refused. -/
theorem exec_not_refused (i : Instr) (s : State) (r : Refusal) : exec i s ≠ .refused r := by
  cases hp : i.position with
  | header =>
    obtain ⟨length, rfl⟩ := header_eq_hdr hp
    rcases execHdr_cases (r := exec (.hdr length) s) rfl with ⟨-, h⟩ | ⟨-, h⟩ <;> rw [h] <;> nofun
  | block =>
    rcases decodeBlockInto_cases (exec_block hp s).symm with ⟨-, h⟩ | ⟨-, -, h⟩ | ⟨-, -, -, h⟩ | ⟨-, -, -, h⟩ <;>
      rw [h] <;> nofun

/-- The decoder reads an element alike from all the unread bytes and from as many as one element can reach. -/
theorem decodeAt_take (p : Position) (bytes : List Byte) :
    match decodeAt p bytes with
    | .ok (i, _) => ∃ r, decodeAt p (bytes.take longestElement) = .ok (i, r)
    | .error e => decodeAt p (bytes.take longestElement) = .error e := by
  cases p with
  | header =>
    match bytes with
    | [] => simp [decodeAt, decodeHeader]
    | [_] => simp [decodeAt, decodeHeader, longestElement]
    | [_, _] => simp [decodeAt, decodeHeader, longestElement]
    | [_, _, _] => simp [decodeAt, decodeHeader, longestElement]
    | a :: b :: c :: d :: r => simp [decodeAt, decodeHeader, longestElement]
  | block =>
    match bytes with
    | [] => simp [decodeAt, decodeBlock]
    | t :: r =>
      simp only [decodeAt, decodeBlock, longestElement, List.take_succ_cons]
      by_cases h0 : t = tagRpt
      · simp only [if_pos h0]
        match r with
        | [] => simp [decodeRpt]
        | [_] => simp [decodeRpt]
        | [_, _] => simp [decodeRpt]
        | a :: b :: c :: r => simp [decodeRpt]
      · simp only [if_neg h0]
        by_cases h1 : t = tagLit
        · simp only [if_pos h1]
          match r with
          | [] => simp [decodeLit]
          | [_] => simp [decodeLit]
          | a :: b :: r =>
            simp only [decodeLit, List.take_succ_cons, List.take_take]
            have := (le16 a b).isLt
            rw [Nat.min_eq_left (by omega)]
            by_cases h : (r.take (le16 a b).toNat).length < (le16 a b).toNat
            · simp only [if_pos h]
            · simp only [if_neg h]; exact ⟨_, rfl⟩
        · simp [h1]

/-- A header or block step runs what the unread stream bytes decode to, or raises what they are rejected for. -/
theorem decElementStep_eq {s : State} (hw : s.dec.job.srcWindow.inMemory) (ho : s.dec.offset ≤ s.dec.job.n.toNat) :
    decElementStep s =
      match decodeAt s.dec.position
        (s.mem.readBytes (s.dec.job.src.toNat + s.dec.offset) (s.dec.job.n.toNat - s.dec.offset)) with
      | .ok (i, _) => exec i s
      | .error e => .next (s.raiseFault .dec (errOf e) (Word.ofNat s.dec.offset)) := by
  have hd := decodeAt_take s.dec.position
    (s.mem.readBytes (s.dec.job.src.toNat + s.dec.offset) (s.dec.job.n.toNat - s.dec.offset))
  rw [readBytes_take] at hd
  have hf : s.fetch = some (s.mem.readBytes (s.dec.job.src.toNat + s.dec.offset)
      (min (s.dec.job.n.toNat - s.dec.offset) longestElement)) := by
    rw [State.fetch, load_eq_some]
    simp only [Window.inMemory, Latched.srcWindow] at hw
    exact ⟨by omega, rfl⟩
  unfold decElementStep
  simp only [hf]
  cases h : decodeAt s.dec.position
      (s.mem.readBytes (s.dec.job.src.toNat + s.dec.offset) (s.dec.job.n.toNat - s.dec.offset)) with
  | error e =>
    rw [h] at hd
    simp only [hd]
  | ok r =>
    obtain ⟨i, r⟩ := r
    rw [h] at hd
    obtain ⟨r', hd⟩ := hd
    simp only [hd]

/-! ## The encoder -/

/-- One turn of `emitBlocks`, guards included. -/
theorem emitBlocks_cons_cases {b : Instr} {bs : List Instr} {s : State} {r : Host.Outcome State Fault Refusal}
    (h : emitBlocks (b :: bs) s = r) :
    (s.enc.job.cap.toNat < s.enc.wr.toNat + b.length ∧ r = .next (s.raiseFault .enc .overflow 0#32)) ∨
    (s.enc.wr.toNat + b.length ≤ s.enc.job.cap.toNat ∧
      Config.memSize < s.enc.job.dst.toNat + s.enc.wr.toNat + b.length ∧ r = .fault .noSuchAddress) ∨
    (s.enc.wr.toNat + b.length ≤ s.enc.job.cap.toNat ∧
      s.enc.job.dst.toNat + s.enc.wr.toNat + b.length ≤ Config.memSize ∧
      r = emitBlocks bs (s.appendEncoded
        (s.mem.writeBytes (s.enc.job.dst.toNat + s.enc.wr.toNat) (encode b)) b)) := by
  subst h
  simp only [emitBlocks, encode_length, Memory.store]
  split
  · exact .inl ⟨by omega, rfl⟩
  · split
    · rename_i hstore
      split at hstore
      · simp at hstore
      · exact .inr (.inl ⟨by omega, by omega, rfl⟩)
    · rename_i m hstore
      split at hstore
      · cases hstore
        exact .inr (.inr ⟨by omega, by omega, rfl⟩)
      · simp at hstore

/-- Everything the encoder's header step can answer. -/
theorem encHeaderStep_cases {s : State} {r : Host.Outcome State Fault Refusal} (h : encHeaderStep s = r) :
    (s.enc.job.cap.toNat < 4 ∧ r = .next (s.raiseFault .enc .overflow 0#32)) ∨
    (4 ≤ s.enc.job.cap.toNat ∧ Config.memSize < s.enc.job.dst.toNat + 4 ∧ r = .fault .noSuchAddress) ∨
    (4 ≤ s.enc.job.cap.toNat ∧ s.enc.job.dst.toNat + 4 ≤ Config.memSize ∧
      r = .next { s with
        mem := s.mem.writeBytes s.enc.job.dst.toNat (enc32 s.enc.job.n)
        enc := { s.enc with wr := 4#32, pos := 0#32, phase := .iter } }) := by
  subst h
  unfold encHeaderStep
  split
  · exact .inl ⟨by omega, rfl⟩
  · simp only [Memory.store, encode_length, Instr.length]
    split
    · rename_i hstore
      split at hstore
      · simp at hstore
      · exact .inr (.inl ⟨by omega, by omega, rfl⟩)
    · rename_i m hstore
      split at hstore
      · cases hstore
        exact .inr (.inr ⟨by omega, by omega, rfl⟩)
      · simp at hstore

/-- Everything one iteration of the encoder can answer. -/
theorem encIterationStep_cases {s : State} {r : Host.Outcome State Fault Refusal} (h : encIterationStep s = r) :
    (Config.memSize < s.enc.job.src.toNat + s.enc.pos.toNat + (s.enc.job.n.toNat - s.enc.pos.toNat) ∧
      r = .fault .noSuchAddress) ∨
    (s.enc.job.src.toNat + s.enc.pos.toNat + (s.enc.job.n.toNat - s.enc.pos.toNat) ≤ Config.memSize ∧
      r = emitBlocks (iteration s.enc.maxblk.toNat
        (s.mem.readBytes (s.enc.job.src.toNat + s.enc.pos.toNat) (s.enc.job.n.toNat - s.enc.pos.toNat))) s) := by
  subst h
  unfold encIterationStep State.remainingSource Memory.load
  split
  · rename_i hload
    split at hload
    · simp at hload
    · exact .inl ⟨by omega, rfl⟩
  · rename_i rest hload
    split at hload
    · cases hload
      exact .inr ⟨by omega, rfl⟩
    · simp at hload

/-- The encoder is never refused. -/
theorem emitBlocks_not_refused (bs : List Instr) (s : State) (r : Refusal) : emitBlocks bs s ≠ .refused r := by
  induction bs generalizing s with
  | nil => nofun
  | cons b bs ih =>
    rcases emitBlocks_cons_cases (r := emitBlocks (b :: bs) s) rfl with ⟨-, h⟩ | ⟨-, -, h⟩ | ⟨-, -, h⟩
    · rw [h]; nofun
    · rw [h]; nofun
    · rw [h]; exact ih _

end Sys2Proof.Machine
end

