-- ==== Sys2Proof/Laws/Host.lean ====
section
/-! SUPPORT. What each shared operation of the host interface can do, said once. -/

namespace Sys2Proof.Machine

/-! ## The register map -/

@[simp] theorem regAt_offset (r : Reg) : regAt r.offset = some r := by cases r <;> rfl

theorem offset_of_regAt {offset : Nat} {r : Reg} (h : regAt offset = some r) : r.offset = offset := by
  simpa using List.find?_some h

/-- A reserved offset holds no register. -/
theorem regAt_reserved {offset : Nat} (h : offset ∉ implementedRegs.map Reg.offset) : regAt offset = none := by
  rw [regAt, List.find?_eq_none]
  intro r hr hc
  exact h (List.mem_map.mpr ⟨r, hr, by simpa using hc⟩)

/-! ## START commands -/

/-- Everything an encode START can do. -/
theorem encStart_cases (s : State) :
    (s.busy .enc = true ∧ s.encStart = s) ∨
    (s.busy .enc = false ∧ s.encLatch.enc.configBad ∧
      s.encStart = s.encLatch.faultStatus .enc .config 0#32) ∨
    (s.busy .enc = false ∧ ¬ s.encLatch.enc.configBad ∧
      ((s.busy .dec = true ∧ s.encLatch.crossOverlap ∧ s.encStart = { s.encLatch.encBegin with refused := true }) ∨
       (¬ (s.busy .dec = true ∧ s.encLatch.crossOverlap) ∧ s.encStart = s.encLatch.encBegin))) := by
  unfold State.encStart
  cases hb : s.busy .enc with
  | true => exact .inl ⟨rfl, rfl⟩
  | false =>
    simp only [Bool.false_eq_true, if_false]
    by_cases hc : s.encLatch.enc.configBad
    · exact .inr (.inl ⟨trivial, hc, if_pos hc⟩)
    · refine .inr (.inr ⟨trivial, hc, ?_⟩)
      rw [if_neg hc, State.checkOverlap]
      by_cases ho : s.encLatch.busy .dec = true ∧ s.encLatch.crossOverlap
      · rw [if_pos ho]
        exact .inl ⟨ho.1, ho.2, rfl⟩
      · rw [if_neg ho]
        exact .inr ⟨ho, rfl⟩

/-- Everything a decode START can do. -/
theorem decStart_cases (s : State) :
    (s.busy .dec = true ∧ s.decStart = s) ∨
    (s.busy .dec = false ∧ s.decLatch.dec.configBad ∧
      s.decStart = s.decLatch.faultStatus .dec .config 0#32) ∨
    (s.busy .dec = false ∧ ¬ s.decLatch.dec.configBad ∧
      ((s.busy .enc = true ∧ s.decLatch.crossOverlap ∧ s.decStart = { s.decLatch.decBegin with refused := true }) ∨
       (¬ (s.busy .enc = true ∧ s.decLatch.crossOverlap) ∧ s.decStart = s.decLatch.decBegin))) := by
  unfold State.decStart
  cases hb : s.busy .dec with
  | true => exact .inl ⟨rfl, rfl⟩
  | false =>
    simp only [Bool.false_eq_true, if_false]
    by_cases hc : s.decLatch.dec.configBad
    · exact .inr (.inl ⟨trivial, hc, if_pos hc⟩)
    · refine .inr (.inr ⟨trivial, hc, ?_⟩)
      rw [if_neg hc, State.checkOverlap]
      by_cases ho : s.decLatch.busy .enc = true ∧ s.decLatch.crossOverlap
      · rw [if_pos ho]
        exact .inl ⟨ho.1, ho.2, rfl⟩
      · rw [if_neg ho]
        exact .inr ⟨ho, rfl⟩

/-! ## Accesses to M -/

/-- A range meets a window if and only if one of its addresses lies in it. -/
theorem meets_iff (a n : Nat) (w : Window) :
    (⟨a, n⟩ : Window).meets w ↔ ∃ k, k < n ∧ w.contains (a + k) := by
  simp only [Window.meets, Window.contains]
  constructor
  · rintro ⟨h1, h2, h3, h4⟩
    by_cases h : a ≤ w.base
    · exact ⟨w.base - a, by omega, by omega, by omega⟩
    · exact ⟨0, h1, by omega, by omega⟩
  · rintro ⟨k, h1, h2, h3⟩
    omega

@[simp] theorem hostBytes_length (s : State) (a len : Nat) : (s.hostBytes a len).length = len := by
  induction len generalizing a with
  | zero => rfl
  | succ n ih => simp [State.hostBytes, ih]

theorem hostBytes_getElem? (s : State) (a len k : Nat) :
    (s.hostBytes a len)[k]? = if k < len then some (s.hostByte (a + k)) else none := by
  induction len generalizing a k with
  | zero => simp [State.hostBytes]
  | succ n ih =>
    cases k with
    | zero => simp [State.hostBytes]
    | succ k =>
      simp only [State.hostBytes, List.getElem?_cons_succ, ih, Nat.add_lt_add_iff_right]
      rw [show a + 1 + k = a + (k + 1) by omega]

/-! ## Reset -/

@[simp] theorem abandon_refused (s : State) (e : Engine) : (s.abandon e).refused = s.refused := by
  unfold State.abandon
  split <;> rfl

@[simp] theorem abandon_agenda (s : State) (e : Engine) : (s.abandon e).agenda = s.agenda := by
  unfold State.abandon
  split <;> rfl

@[simp] theorem abandon_response (s : State) (e : Engine) : (s.abandon e).response = s.response := by
  unfold State.abandon
  split <;> rfl

/-- Abandoning an operation changes no byte outside the DST window of a busy engine. -/
theorem read_abandon_outside {s : State} {e : Engine} {a : Nat}
    (h : ¬ (s.busy e = true ∧ (s.job e).dstWindow.contains a)) : (s.abandon e).mem.read a = s.mem.read a := by
  unfold State.abandon
  split
  · rename_i hb
    exact read_unspecify_outside _ fun hc => h ⟨hb, hc⟩
  · rfl

/-- Abandoning an operation makes every byte of the DST window of a busy engine a free draw. -/
theorem read_abandon_inside {s : State} {e : Engine} {a : Nat} (hb : s.busy e = true)
    (hc : (s.job e).dstWindow.contains a) : (s.abandon e).mem.read a = Config.freeByte s.draws a := by
  unfold State.abandon
  rw [if_pos hb]
  exact read_unspecify_inside _ hc

end Sys2Proof.Machine
end

