-- ==== Sys2Proof/Laws/Partition.lean ====
section
/-! SUPPORT. What `leadingEqual` counts: the lemmas the laws of the scan, the trim and the run extension rest on. -/

namespace Sys2Proof.Machine

theorem leadingEqual_le_cap (v : Byte) (cap : Nat) (bytes : List Byte) : leadingEqual v cap bytes ≤ cap := by
  induction cap generalizing bytes with
  | zero => simp [leadingEqual]
  | succ c ih =>
    cases bytes with
    | nil => simp [leadingEqual]
    | cons b bytes =>
      have := ih bytes
      simp only [leadingEqual]
      split <;> omega

theorem leadingEqual_le_length (v : Byte) (cap : Nat) (bytes : List Byte) :
    leadingEqual v cap bytes ≤ bytes.length := by
  induction cap generalizing bytes with
  | zero => simp [leadingEqual]
  | succ c ih =>
    cases bytes with
    | nil => simp [leadingEqual]
    | cons b bytes =>
      have := ih bytes
      simp only [leadingEqual, List.length_cons]
      split <;> omega

/-- Every counted byte equals `v`. -/
theorem leadingEqual_getElem? (v : Byte) (cap : Nat) (bytes : List Byte) :
    ∀ i, i < leadingEqual v cap bytes → bytes[i]? = some v := by
  induction cap generalizing bytes with
  | zero => simp [leadingEqual]
  | succ c ih =>
    cases bytes with
    | nil => simp [leadingEqual]
    | cons b bytes =>
      simp only [leadingEqual]
      split
      · rename_i h
        intro i hi
        cases i with
        | zero => simp [h]
        | succ i => simpa using ih bytes i (by omega)
      · intro i hi
        omega

/-- Where the count stops short of the cap, the next byte is another one or there is none. -/
theorem leadingEqual_stop (v : Byte) (cap : Nat) (bytes : List Byte) (h : leadingEqual v cap bytes < cap) :
    bytes[leadingEqual v cap bytes]? ≠ some v := by
  induction cap generalizing bytes with
  | zero => omega
  | succ c ih =>
    cases bytes with
    | nil => simp [leadingEqual]
    | cons b bytes =>
      simp only [leadingEqual] at *
      split at h
      · rename_i hb
        rw [if_pos hb]
        simpa using ih bytes (by omega)
      · rename_i hb
        simp [hb]

end Sys2Proof.Machine
end

