-- ==== Sys2Proof/Laws/PerInstr.lean ====
section
/-! SUPPORT. The per-instruction family EncodedLength: the length of an instruction's encoding (30_encoding.md R106). -/

namespace Sys2Proof.Laws.EncodedLength

/-- The encoding is as long as the tag and the count say, and at least 3 bytes long. -/
def Statement (i : Instr) : Prop := (encode i).length = i.length ∧ 3 ≤ i.length

theorem hdr (length : Word) : Statement (.hdr length) := ⟨encode_length _, by simp [Instr.length]⟩

theorem rpt (count : Count) (value : Byte) : Statement (.rpt count value) :=
  ⟨encode_length _, by simp [Instr.length]⟩

theorem lit (payload : List Byte) : Statement (.lit payload) := ⟨encode_length _, by simp [Instr.length]⟩

end Sys2Proof.Laws.EncodedLength
end

