-- ==== Sys2Proof/Laws/Step.lean ====
section
/-! SUPPORT. What a step of the machine can do, said once, and the induction over the steps of a run. -/

namespace Sys2Proof.Machine

/-- A refused run has no step (10_state.md R52). -/
theorem step_refused {s : State} (h : s.refused = true) : step s = .refused .runRefused := by simp [step, h]

/-- A step from a state that is not refused is its next move. -/
theorem step_eq_runNext {s : State} (h : s.refused = false) : step s = runNext s := by simp [step, h]

/-- A step that answers a next state ran the head of the agenda, or, with nothing on it, the decoder, the encoder or
nobody, in that order. -/
theorem step_cases {s t : State} (h : step s = .next t) :
    s.refused = false ∧
    ((∃ event rest, s.agenda = event :: rest ∧ runEvent event s.popped = .next t) ∨
     (s.agenda = [] ∧ s.dec.phase ≠ .idle ∧ decStep s = .next t) ∨
     (s.agenda = [] ∧ s.dec.phase = .idle ∧ s.enc.phase ≠ .idle ∧ encStep s = .next t) ∨
     (s.agenda = [] ∧ s.dec.phase = .idle ∧ s.enc.phase = .idle ∧ t = s)) := by
  cases hr : s.refused with
  | true => simp [step_refused hr] at h
  | false =>
    rw [step_eq_runNext hr] at h
    refine ⟨rfl, ?_⟩
    cases ha : s.agenda with
    | cons event rest =>
      exact .inl ⟨event, rest, rfl, by simpa [runNext, ha, State.popped] using h⟩
    | nil =>
      simp only [runNext, ha, runEngines] at h
      by_cases hd : s.dec.phase = .idle
      · by_cases he : s.enc.phase = .idle
        · simp only [hd, he, ne_eq, not_true_eq_false, if_false] at h
          cases h
          exact .inr (.inr (.inr ⟨rfl, hd, he, rfl⟩))
        · exact .inr (.inr (.inl ⟨rfl, hd, he, by simpa [hd, he] using h⟩))
      · exact .inr (.inl ⟨rfl, hd, by simpa [hd] using h⟩)

/-- Popping an empty agenda changes nothing. -/
theorem popped_of_nil {s : State} (h : s.agenda = []) : s.popped = s := by
  cases s
  simp_all [State.popped]

/-- When the decoder has the turn, a step is a step of the decoder. -/
theorem step_decTurn {s : State} (h : s.decTurn) : step s = decStep s.popped := by
  obtain ⟨hr, h | ⟨ha, hd⟩⟩ := h
  · obtain ⟨rest, ha⟩ : ∃ rest, s.agenda = .decStep :: rest := by
      cases hs : s.agenda <;> simp_all
    simp [step_eq_runNext hr, runNext, ha, runEvent, State.popped]
  · rw [popped_of_nil ha]
    simp [step_eq_runNext hr, runNext, ha, runEngines, hd]

/-- When the encoder has the turn, a step is a step of the encoder. -/
theorem step_encTurn {s : State} (h : s.encTurn) : step s = encStep s.popped := by
  obtain ⟨hr, h | ⟨ha, hd, he⟩⟩ := h
  · obtain ⟨rest, ha⟩ : ∃ rest, s.agenda = .encStep :: rest := by
      cases hs : s.agenda <;> simp_all
    simp [step_eq_runNext hr, runNext, ha, runEvent, State.popped]
  · rw [popped_of_nil ha]
    simp [step_eq_runNext hr, runNext, ha, runEngines, hd, he]

/-- When an event has the turn, a step runs it. -/
theorem step_hasTurn {s : State} {event : Event} (h : s.hasTurn event) : step s = runEvent event s.popped := by
  obtain ⟨hr, h⟩ := h
  cases ha : s.agenda with
  | nil => simp [ha] at h
  | cons e rest =>
    simp only [ha, List.head?_cons, Option.some.injEq] at h
    subst h
    simp [step_eq_runNext hr, runNext, ha, State.popped]

@[simp] theorem popped_cfg (s : State) : s.popped.cfg = s.cfg := rfl
@[simp] theorem popped_encRegs (s : State) : s.popped.encRegs = s.encRegs := rfl
@[simp] theorem popped_decRegs (s : State) : s.popped.decRegs = s.decRegs := rfl
@[simp] theorem popped_lenmm (s : State) : s.popped.lenmm = s.lenmm := rfl
@[simp] theorem popped_hdrLen (s : State) : s.popped.hdrLen = s.hdrLen := rfl
@[simp] theorem popped_errOff (s : State) : s.popped.errOff = s.errOff := rfl
@[simp] theorem popped_enc (s : State) : s.popped.enc = s.enc := rfl
@[simp] theorem popped_dec (s : State) : s.popped.dec = s.dec := rfl
@[simp] theorem popped_mem (s : State) : s.popped.mem = s.mem := rfl
@[simp] theorem popped_refused (s : State) : s.popped.refused = s.refused := rfl
@[simp] theorem popped_agenda (s : State) : s.popped.agenda = s.agenda.tail := rfl
@[simp] theorem popped_response (s : State) : s.popped.response = s.response := rfl
@[simp] theorem popped_draws (s : State) : s.popped.draws = s.draws := rfl

/-- What every step keeps holds at the end of every run that starts with it. -/
theorem run_induction {P : State → Prop} (hstep : ∀ s t, P s → step s = .next t → P t) {k : Nat} {s t : State}
    (hs : P s) (h : core.run k s = .next t) : P t := by
  induction k generalizing s with
  | zero =>
    simp only [Host.Core.run] at h
    cases h
    exact hs
  | succ k ih =>
    simp only [Host.Core.run] at h
    split at h
    · rename_i u hu
      exact ih (hstep s u hs hu) h
    · cases h
    · cases h

/-- A run of k + 1 steps is a step and a run of k steps. -/
theorem run_succ {k : Nat} {s u : State} (h : step s = .next u) : core.run (k + 1) s = core.run k u := by
  have h' : core.step s = .next u := h
  simp only [Host.Core.run, h']

end Sys2Proof.Machine
end

