-- ==== Sys2Proof/Tests/Slice0.lean ====
section
/-! SUPPORT. Small tests with results from spec/95_test_vectors.md (log 21) and the rules, and a witness for the hypotheses of every
statement that has some. -/

namespace Sys2Proof.Tests

open Sys2Proof Sys2Proof.Machine

/-! ## Helpers -/

/-- The next state of an outcome, if there is one. -/
def nextOf (o : Host.Outcome State Fault Refusal) : Option State :=
  match o with
  | .next t => some t
  | .fault _ => none
  | .refused _ => none

/-- Reset memory with some bytes written. -/
def memWith (a : Nat) (bytes : List Byte) : Memory := Memory.powerOn.writeBytes a bytes

/-- A decoder busy on a stream at 0x100, with its output at 0x1000. -/
def decAt (stream : List Byte) (phase : DecPhase) (rd wr cap : Nat) : State :=
  { State.reset with
    mem := memWith 0x100 stream
    decRegs := { EngineRegs.reset with status := Status.started }
    dec :=
      { phase := phase
        job := { src := 0x100#32, n := Word.ofNat stream.length, dst := 0x1000#32, cap := Word.ofNat cap }
        rd := Word.ofNat rd, wr := Word.ofNat wr, hdr := 0#32 } }

/-- An encoder busy on a source at 0x2000, with its output at 0x3000. -/
def encAt (source : List Byte) (phase : EncPhase) (pos wr cap maxblk : Nat) : State :=
  { State.reset with
    mem := memWith 0x2000 source
    encRegs := { EngineRegs.reset with status := Status.started }
    enc :=
      { phase := phase
        job := { src := 0x2000#32, n := Word.ofNat source.length, dst := 0x3000#32, cap := Word.ofNat cap }
        maxblk := BitVec.ofNat 16 maxblk
        pos := Word.ofNat pos, wr := Word.ofNat wr } }

/-- Both engines busy on disjoint windows. -/
def bothAt (stream source : List Byte) : State :=
  { decAt stream .hdr 0 0 64 with
    mem := (memWith 0x100 stream).writeBytes 0x2000 source
    encRegs := (encAt source .hdr 0 0 64 7).encRegs
    enc := (encAt source .hdr 0 0 64 7).enc }

/-- A state with one event to come. -/
def withEvent (s : State) (event : Event) : State := { s with agenda := [event] }

/-- What a word read of a register gives after the next step. -/
def readAfter (s : State) (r : Reg) : Option Word := (nextOf (step s)).map (fun t => t.readReg r)

/-- Reset with valid disjoint windows in the encoder's registers: 13 bytes at 0x1000 to 64 bytes at 0x2000. -/
def encReady (maxblk : Word) : State :=
  { State.reset with
    cfg := maxblk
    encRegs := { EngineRegs.reset with srcBase := 0x1000#32, srcLen := 13#32, dstBase := 0x2000#32, dstCap := 64#32 } }

/-- Reset with windows in the decoder's registers. -/
def decReady (src len dst cap : Word) : State :=
  { State.reset with
    decRegs := { EngineRegs.reset with srcBase := src, srcLen := len, dstBase := dst, dstCap := cap } }

/-- `c` times the byte `v`. -/
def rep (v : Byte) (c : Nat) : List Byte := List.replicate c v

/-! ## Well-formedness (30_encoding.md R104: a count has 16 bits) -/

theorem test_wellFormed_refuses_long_literal (payload : List Byte) (h : payload.length = 65536) :
    (Instr.lit payload).wellFormed = false := by simp [Instr.wellFormed, h]

/-- The ill-formed term: 65536 payload bytes. -/
theorem test_wellFormed_refuses_a_long_literal : (Instr.lit (List.replicate 65536 0#8)).wellFormed = false :=
  test_wellFormed_refuses_long_literal _ List.length_replicate

theorem test_wellFormed_accepts_longest_literal (payload : List Byte) (h : payload.length = 65535) :
    (Instr.lit payload).wellFormed = true := by simp [Instr.wellFormed, h]

theorem test_wellFormed_rpt_lit :
    (Instr.rpt 0xFFFF#16 0x41#8).wellFormed = true ∧ (Instr.lit []).wellFormed = true := by decide

/-! ## Decoding: words written out from 30_encoding.md R101, R103, R104 and the vectors -/

theorem test_decode_hdr :
    decodeAt .header [0x0E#8, 0x00#8, 0x00#8, 0x01#8, 0x09#8] = .ok (.hdr 0x0100000E#32, [0x09#8]) := by decide

theorem test_decode_hdr_short : decodeAt .header [0x00#8, 0x00#8, 0x00#8] = .error .truncated := by decide

theorem test_decode_rpt :
    decodeAt .block [0x00#8, 0x00#8, 0x01#8, 0x58#8, 0x02#8] = .ok (.rpt 256#16 0x58#8, [0x02#8]) := by
  decide

theorem test_decode_lit :
    decodeAt .block [0x01#8, 0x04#8, 0x00#8, 0x00#8, 0x02#8, 0x01#8, 0x41#8, 0x07#8] =
      .ok (.lit [0x00#8, 0x02#8, 0x01#8, 0x41#8], [0x07#8]) := by decide

theorem test_decode_illegal_last_byte : decodeAt .block [0x07#8] = .error (.illegalTag 0x07#8) := by decide

theorem test_table_word_rpt : decodeTableWord 32 0x43000D00 = some (.rpt 13#16 0x43#8) := by decide

theorem test_table_word_hdr : decodeTableWord 32 0x0000000D = some (.hdr 13#32) := by decide

theorem test_table_word_lit : decodeTableWord 24 0x000201 = some (.lit [0x00#8, 0x00#8]) := by decide

theorem test_fetch_word_runs_rpt :
    (nextOf (step (State.reset.withFetchWord 32 0x43000300))).map
      (fun t => (t.dec.wr, t.mem.readBytes 0x80000000 3)) = some (3#32, [0x43#8, 0x43#8, 0x43#8]) := by decide

theorem test_fetch_word_runs_hdr :
    (nextOf (step (State.reset.withFetchWord 32 0x0000000D))).map (fun t => t.hdrLen) = some 13#32 := by decide

theorem test_fetch_word_runs_lit :
    (nextOf (step (State.reset.withFetchWord 24 0x000201))).map
      (fun t => (t.dec.wr, t.dec.rd)) = some (2#32, 9#32) := by decide

/-! ## The decode function (95_test_vectors.md section 3) -/

theorem test_VD1 : decodeStream [0x00#8, 0x00#8, 0x00#8, 0x00#8] = .ok 0#32 [] := by decide

theorem test_VD6 :
    decodeStream [0x02#8, 0x00#8, 0x00#8, 0x00#8, 0x01#8, 0x02#8, 0x00#8, 0x41#8, 0x42#8, 0xFF#8] = .err .format 9 := by
  decide

theorem test_VD9 : decodeStream [0x00#8, 0x00#8, 0x00#8, 0x00#8, 0x00#8, 0x05#8, 0x00#8] = .err .truncated 4 := by decide

theorem test_VD12 :
    decodeStream [0x01#8, 0x00#8, 0x00#8, 0x00#8, 0x01#8, 0x01#8, 0x00#8, 0x41#8, 0x00#8] = .err .truncated 8 := by decide

theorem test_VD13 :
    decodeStream [0x01#8, 0x00#8, 0x00#8, 0x00#8, 0x01#8, 0x01#8, 0x00#8, 0x41#8, 0x07#8] = .err .format 8 := by decide

theorem test_VD14 :
    decodeStream [0x05#8, 0x00#8, 0x00#8, 0x00#8, 0x00#8, 0x03#8, 0x00#8, 0x41#8] = .ok 5#32 [0x41#8, 0x41#8, 0x41#8] := by
  decide

/-! ## The encode function (95_test_vectors.md sections 1 and 2) -/

theorem test_W4 :
    encodeStream ([0x41#8, 0x42#8] ++ rep 0x43#8 10 ++ [0x44#8, 0x45#8]) 65535 =
      [0x0E#8, 0x00#8, 0x00#8, 0x00#8, 0x01#8, 0x02#8, 0x00#8, 0x41#8, 0x42#8, 0x00#8, 0x0A#8, 0x00#8, 0x43#8,
       0x01#8, 0x02#8, 0x00#8, 0x44#8, 0x45#8] := by decide

theorem test_W5 :
    partitionSource 12 ([0x61#8, 0x62#8, 0x63#8, 0x64#8, 0x65#8, 0x61#8, 0x62#8, 0x63#8, 0x64#8] ++ rep 0x66#8 11) =
      [.lit [0x61#8, 0x62#8, 0x63#8, 0x64#8, 0x65#8, 0x61#8, 0x62#8, 0x63#8, 0x64#8], .rpt 11#16 0x66#8] := by decide

theorem test_VE1 :
    partitionSource 7 (rep 0x41#8 20) = [.rpt 7#16 0x41#8, .rpt 7#16 0x41#8, .lit (rep 0x41#8 6)] := by decide

theorem test_VE9 : partitionSource 7 (rep 0x41#8 6 ++ rep 0x42#8 7) = [.lit (rep 0x41#8 6), .rpt 7#16 0x42#8] := by decide

theorem test_VE10 :
    partitionSource 9 ([0x78#8] ++ rep 0x41#8 8 ++ [0x79#8]) = [.lit [0x78#8], .rpt 8#16 0x41#8, .lit [0x79#8]] := by
  decide

theorem test_VE16 :
    partitionSource 7 ([0x41#8] ++ rep 0x42#8 6 ++ [0x41#8] ++ rep 0x42#8 6) =
      [.lit [0x41#8], .lit (rep 0x42#8 6), .lit ([0x41#8] ++ rep 0x42#8 6)] := by decide

theorem test_VE17 : partitionSource 7 (rep 0x41#8 6 ++ [0x42#8]) = [.lit (rep 0x41#8 6 ++ [0x42#8])] := by decide

/-! ## Steps of the instructions (42_decoder.md R154, R155, R157) -/

theorem test_step_hdr :
    (nextOf (step (decAt [0x0D#8, 0x00#8, 0x00#8, 0x00#8] .hdr 0 0 0))).map
      (fun t => (t.hdrLen, t.dec.rd, t.dec.phase)) = some (13#32, 4#32, .blk) := by decide

theorem test_step_hdr_short :
    (nextOf (step (decAt [0x0D#8, 0x00#8, 0x00#8] .hdr 0 0 0))).map
      (fun t => (t.readReg .decStatus, t.errOff, t.hdrLen)) = some (0x22#32, 0#32, 0#32) := by decide

theorem test_step_rpt :
    (nextOf (step (decAt [0x00#8, 0x00#8, 0x00#8, 0x00#8, 0x00#8, 0x03#8, 0x00#8, 0x43#8] .blk 4 2 5))).map
      (fun t => (t.dec.rd, t.dec.wr, t.mem.readBytes 0x1002 3)) = some (8#32, 5#32, [0x43#8, 0x43#8, 0x43#8]) := by decide

theorem test_step_rpt_overflow :
    (nextOf (step (decAt [0x00#8, 0x00#8, 0x00#8, 0x00#8, 0x00#8, 0x03#8, 0x00#8, 0x41#8] .blk 4 0 2))).map
      (fun t => (t.readReg .decStatus, t.errOff, t.dec.phase)) = some (0x32#32, 4#32, .idle) := by decide

theorem test_step_lit :
    (nextOf (step (decAt [0x00#8, 0x00#8, 0x00#8, 0x00#8, 0x01#8, 0x02#8, 0x00#8, 0x41#8, 0x42#8] .blk 4 0 2))).map
      (fun t => (t.dec.rd, t.dec.wr, t.mem.readBytes 0x1000 2)) = some (9#32, 2#32, [0x41#8, 0x42#8]) := by decide

/-- V-D19: TRUNCATED beats OVERFLOW (60_exceptions.md R238). -/
theorem test_step_lit_truncated_first :
    (nextOf (step (decAt [0x00#8, 0x00#8, 0x00#8, 0x00#8, 0x01#8, 0x05#8, 0x00#8, 0x41#8] .blk 4 0 0))).map
      (fun t => (t.readReg .decStatus, t.errOff)) = some (0x22#32, 4#32) := by decide

/-- FORMAT has code 1 (60_exceptions.md R230, R231). -/
theorem test_step_illegal_tag :
    (nextOf (step (decAt [0x00#8, 0x00#8, 0x00#8, 0x00#8, 0x02#8] .blk 4 0 0))).map
      (fun t => (t.readReg .decStatus, t.errOff)) = some (0x12#32, 4#32) := by decide

/-! ## Registers and commands (95_test_vectors.md section 4) -/

theorem test_VC1 :
    State.reset.readReg .cfg = 0x0000FFFF#32 ∧ State.reset.readReg .encStatus = 0#32 ∧
      State.reset.readReg .decStatus = 0#32 := by decide

theorem test_VC2 : readAfter (withEvent State.reset (.regWrite .word 0x00 0x1234FFFF#32)) .cfg = some 0x0000FFFF#32 := by
  decide

theorem test_VC3 : readAfter (withEvent (encReady 6#32) (.regWrite .word 0x10 1#32)) .encStatus = some 0x42#32 := by decide

theorem test_VC5 : readAfter (withEvent (encReady 7#32) (.regWrite .word 0x10 1#32)) .encStatus = some 0x01#32 := by decide

theorem test_VC8 :
    readAfter (withEvent (decReady 0x1000#32 0x100#32 0x10FF#32 0x10#32) (.regWrite .word 0x30 1#32)) .decStatus =
      some 0x42#32 := by decide

theorem test_VC9 :
    readAfter (withEvent (decReady 0x1000#32 0x100#32 0x1100#32 0x10#32) (.regWrite .word 0x30 1#32)) .decStatus =
      some 0x01#32 := by decide

theorem test_VC15 :
    [0x10, 0x30, 0x08, 0xFC].map State.reset.readOffset = [0#32, 0#32, 0#32, 0#32] := by decide

theorem test_VC16 :
    readAfter (withEvent State.reset (.regWrite .word 0x14 0xFFFFFFFF#32)) .encStatus = some 0#32 := by decide

/-! ## Steps of the encoder (43_encoder.md R202) -/

/-- V-C12: the header does not fit. -/
theorem test_enc_header_overflow : readAfter (encAt (rep 0x43#8 13) .hdr 0 0 3 7) .encStatus = some 0x32#32 := by decide

theorem test_enc_iteration :
    (nextOf (step (encAt (rep 0x43#8 13) .iter 0 4 8 65535))).map
      (fun t => (t.enc.pos, t.enc.wr, t.mem.readBytes 0x3004 4)) =
      some (13#32, 8#32, [0x00#8, 0x0D#8, 0x00#8, 0x43#8]) := by decide

/-! ## Witnesses: the hypotheses of each statement can be met, each clause at a boundary of its range -/

theorem decAt_hdr_inv : Invariant (decAt [0x01#8, 0x00#8, 0x00#8, 0x00#8] .hdr 0 0 0) where
  memWf := by decide
  drawn := by decide
  cfgReserved := by decide
  enc := by constructor <;> decide
  dec := by constructor <;> decide
  apart := by decide

/-- A stream of three elements, standing at the RPT block, with 1 byte of output room. -/
def atRpt (cap : Nat) : State :=
  decAt [0x00#8, 0x00#8, 0x00#8, 0x00#8, 0x00#8, 0x01#8, 0x00#8, 0x41#8] .blk 4 0 cap

theorem atRpt_inv : Invariant (atRpt 1) where
  memWf := by decide
  drawn := by decide
  cfgReserved := by decide
  enc := by constructor <;> decide
  dec := by constructor <;> decide
  apart := by decide

theorem encAt_hdr_inv : Invariant (encAt [0x41#8] .hdr 0 0 8 7) where
  memWf := by decide
  drawn := by decide
  cfgReserved := by decide
  enc := by constructor <;> decide
  dec := by constructor <;> decide
  apart := by decide

theorem encAt_iter_inv : Invariant (encAt [0x41#8] .iter 0 4 8 7) where
  memWf := by decide
  drawn := by decide
  cfgReserved := by decide
  enc := by constructor <;> decide
  dec := by constructor <;> decide
  apart := by decide

theorem bothAt_inv : Invariant (bothAt [0x00#8, 0x00#8, 0x00#8, 0x00#8] [0x41#8]) where
  memWf := by decide
  drawn := by decide
  cfgReserved := by decide
  enc := by constructor <;> decide
  dec := by constructor <;> decide
  apart := by decide

theorem reset_inv : Invariant State.reset where
  memWf := by decide
  drawn := by decide
  cfgReserved := by decide
  enc := by constructor <;> decide
  dec := by constructor <;> decide
  apart := by decide

theorem witness_DecodeOfEncodeIsIdentity :
    (Instr.hdr 0xFFFFFFFF#32).wellFormed = true ∧ (Instr.rpt 0xFFFF#16 0#8).wellFormed = true ∧
      (Instr.lit [0x00#8]).wellFormed = true := by decide

theorem witness_EncodeOfDecodeIsIdentity :
    decodeAt .block [0x01#8, 0x01#8, 0x00#8, 0x41#8, 0x09#8] = .ok (.lit [0x41#8], [0x09#8]) := by decide

theorem witness_DisassembleOfAssembleIsIdentity :
    ∀ b ∈ [Instr.rpt 0#16 1#8, Instr.lit []], b.wellFormed = true ∧ b.position = .block := by decide

theorem witness_HdrCompletes : 4 ≤ (decAt (rep 0#8 4) .hdr 0 0 0).dec.job.n.toNat := by decide

theorem witness_RptCompletes :
    (atRpt 1).dec.rd.toNat + 4 = (atRpt 1).dec.job.n.toNat ∧ (atRpt 1).dec.wr.toNat + (1#16 : Count).toNat = (atRpt 1).dec.job.cap.toNat ∧
      (atRpt 1).dec.job.dstWindow.inMemory := by decide

theorem witness_LitCompletes :
    (atRpt 1).dec.rd.toNat + 3 + [0x41#8].length = (atRpt 1).dec.job.n.toNat ∧
      (atRpt 1).dec.wr.toNat + [0x41#8].length = (atRpt 1).dec.job.cap.toNat ∧ (atRpt 1).dec.job.dstWindow.inMemory := by
  decide

theorem witness_InstructionsFaultInOrder :
    (decAt (rep 0#8 3) .hdr 0 0 0).dec.job.n.toNat < 4 ∧
      (Instr.lit [1#8, 2#8]).position = .block ∧ (atRpt 1).dec.job.n.toNat + 1 = (atRpt 1).dec.rd.toNat + (Instr.lit [1#8, 2#8]).length ∧
      (atRpt 0).dec.rd.toNat + (Instr.rpt 1#16 0#8).length = (atRpt 0).dec.job.n.toNat ∧
      (atRpt 0).dec.job.cap.toNat + 1 = (atRpt 0).dec.wr.toNat + (Instr.rpt 1#16 0#8).count := by decide

theorem witness_InstructionFrame :
    (∃ t, exec (.rpt 1#16 0x41#8) (atRpt 1) = .next t ∧ t.dec.phase ≠ .idle) ∧
      (∃ t, exec (.rpt 1#16 0x41#8) (atRpt 0) = .next t ∧ t.dec.phase = .idle) :=
  ⟨⟨_, rfl, by decide⟩, ⟨_, rfl, rfl⟩⟩

theorem witness_StepRunsDecodedInstruction :
    (atRpt 1).decTurn ∧ (atRpt 1).dec.phase ≠ .idle ∧
      ((atRpt 1).dec.phase = .blk → (atRpt 1).dec.rd.toNat < (atRpt 1).dec.job.n.toNat) ∧
      (atRpt 1).dec.job.srcWindow.inMemory ∧
      decodeAt (atRpt 1).dec.position ((atRpt 1).mem.readBytes ((atRpt 1).dec.job.src.toNat + (atRpt 1).dec.offset)
        ((atRpt 1).dec.job.n.toNat - (atRpt 1).dec.offset)) = .ok (.rpt 1#16 0x41#8, []) := by decide

/-- Standing at the last byte of the stream, which is `tag`. -/
def atLast (tag : Byte) : State := decAt [0x00#8, 0x00#8, 0x00#8, 0x00#8, tag] .blk 4 0 0

theorem witness_StepRaisesOnRejectedElement :
    (atLast 0x00#8).decTurn ∧ (atLast 0x00#8).dec.phase ≠ .idle ∧
      ((atLast 0x00#8).dec.phase = .blk → (atLast 0x00#8).dec.rd.toNat < (atLast 0x00#8).dec.job.n.toNat) ∧
      (atLast 0x00#8).dec.job.srcWindow.inMemory ∧
      decodeAt .block ((atLast 0x00#8).mem.readBytes 0x104 1) = .error .truncated ∧
      decodeAt .block ((atLast 0x02#8).mem.readBytes 0x104 1) = .error (.illegalTag 0x02#8) := by decide

theorem witness_HeaderStep :
    ∀ n ∈ [3, 4], (decAt (rep 0#8 n) .hdr 0 0 0).decTurn ∧ (decAt (rep 0#8 n) .hdr 0 0 0).dec.phase = .hdr ∧
      (decAt (rep 0#8 n) .hdr 0 0 0).dec.job.srcWindow.inMemory ∧
      (decAt (rep 0#8 n) .hdr 0 0 0).dec.job.n.toNat = n := by decide

/-- The bytes of a block at offset 4, with an output room of `cap`. -/
def atBlock (block : List Byte) (cap : Nat) : State := decAt (rep 0#8 4 ++ block) .blk 4 0 cap

theorem witness_RepeatBlockStep :
    ∀ x ∈ [(rep 0#8 3, 0), (rep 0#8 1 ++ [1#8, 0#8, 0x41#8], 0), (rep 0#8 1 ++ [1#8, 0#8, 0x41#8], 1)],
      (atBlock x.1 x.2).decTurn ∧ (atBlock x.1 x.2).dec.phase = .blk ∧
      (atBlock x.1 x.2).dec.rd.toNat < (atBlock x.1 x.2).dec.job.n.toNat ∧
      (atBlock x.1 x.2).dec.job.srcWindow.inMemory ∧ (atBlock x.1 x.2).dec.job.dstWindow.inMemory ∧
      (atBlock x.1 x.2).mem.read 0x104 = 0x00#8 := by decide

theorem witness_LiteralBlockStep :
    ∀ x ∈ [([1#8, 1#8], 0), ([1#8, 1#8, 0#8], 0), ([1#8, 1#8, 0#8, 0x41#8], 0), ([1#8, 1#8, 0#8, 0x41#8], 1)],
      (atBlock x.1 x.2).decTurn ∧ (atBlock x.1 x.2).dec.phase = .blk ∧
      (atBlock x.1 x.2).dec.rd.toNat < (atBlock x.1 x.2).dec.job.n.toNat ∧
      (atBlock x.1 x.2).dec.job.srcWindow.inMemory ∧ (atBlock x.1 x.2).dec.job.dstWindow.inMemory ∧
      (atBlock x.1 x.2).mem.read 0x104 = 0x01#8 := by decide

theorem witness_IllegalTagStep :
    ∀ k ∈ [0x02, 0xFF], (atLast (BitVec.ofNat 8 k)).decTurn ∧ (atLast (BitVec.ofNat 8 k)).dec.phase = .blk ∧
      (atLast (BitVec.ofNat 8 k)).dec.rd.toNat < (atLast (BitVec.ofNat 8 k)).dec.job.n.toNat ∧
      (atLast (BitVec.ofNat 8 k)).dec.job.srcWindow.inMemory ∧
      (atLast (BitVec.ofNat 8 k)).mem.read 0x104 ≠ 0x00#8 ∧ (atLast (BitVec.ofNat 8 k)).mem.read 0x104 ≠ 0x01#8 := by
  decide

/-- A decoder at the end of its stream, 1 byte of 2 written. -/
def atEnd : State := decAt (rep 0#8 4) .blk 4 1 2

theorem witness_DecoderCompletionStep :
    atEnd.decTurn ∧ atEnd.dec.phase = .blk ∧ atEnd.dec.rd = atEnd.dec.job.n ∧
      (¬ (0x1001 ≤ 0x1000 ∧ 0x1000 < 0x1002) ∧ (0x1001 ≤ 0x1001 ∧ 0x1001 < 0x1002)) ∧
      atEnd.dec.job.dst.toNat + atEnd.dec.wr.toNat = 0x1001 ∧ atEnd.dec.job.dst.toNat + atEnd.dec.job.cap.toNat = 0x1002 := by
  decide

theorem witness_CursorMovesForward :
    Invariant (atRpt 1) ∧ (atRpt 1).decTurn ∧ (atRpt 1).dec.phase = .blk ∧
      ∃ t, step (atRpt 1) = .next t ∧ t.dec.phase = .blk :=
  ⟨atRpt_inv, by decide, rfl, _, rfl, rfl⟩

/-- The whole decode of a stream, as steps on the agenda. -/
def decodeAll (stream : List Byte) (cap : Nat) : State :=
  { decAt stream .hdr 0 0 cap with agenda := List.replicate (decodeStepBound stream.length) .decStep }

theorem decodeAll_inv (cap : Nat) (h : cap ≤ 1) :
    Invariant (decodeAll [0x01#8, 0x00#8, 0x00#8, 0x00#8, 0x00#8, 0x01#8, 0x00#8, 0x41#8] cap) := by
  have : cap = 0 ∨ cap = 1 := by omega
  rcases this with rfl | rfl <;>
    exact
      { memWf := by decide
        drawn := by decide
        cfgReserved := by decide
        enc := by constructor <;> decide
        dec := by constructor <;> decide
        apart := by decide }

/-- The results a stream can have: it fits, it does not fit, it is rejected. -/
theorem witness_DecoderComputesDecode :
    (∀ cap ∈ [0, 1], Invariant (decodeAll [0x01#8, 0x00#8, 0x00#8, 0x00#8, 0x00#8, 0x01#8, 0x00#8, 0x41#8] cap)) ∧
      decodeStream [0x01#8, 0x00#8, 0x00#8, 0x00#8, 0x00#8, 0x01#8, 0x00#8, 0x41#8] = .ok 1#32 [0x41#8] ∧
      Invariant (decodeAll (rep 0#8 3) 0) ∧ decodeStream (rep 0#8 3) = .err .truncated 0 ∧
      ∀ stream cap, (decodeAll stream cap).refused = false ∧ (decodeAll stream cap).dec.phase = .hdr ∧
        (decodeAll stream cap).agenda = List.replicate (decodeStepBound stream.length) .decStep := by
  refine ⟨fun cap hc => decodeAll_inv cap ?_, by decide, ?_, by decide, fun _ _ => ⟨rfl, rfl, rfl⟩⟩
  · simp only [List.mem_cons, List.not_mem_nil, or_false] at hc
    omega
  · exact
      { memWf := by decide
        drawn := by decide
        cfgReserved := by decide
        enc := by constructor <;> decide
        dec := by constructor <;> decide
        apart := by decide }

theorem witness_FaultEntry :
    ErrCode.format ≠ .none ∧ (atRpt 1).dec.job.dstWindow.contains 0x1000 ∧
      ¬ (atRpt 1).dec.job.dstWindow.contains 0x1001 := by decide

/-- A state whose two engines both ended with an error. -/
def bothEnded : State :=
  { State.reset with
    encRegs := { EngineRegs.reset with status := Status.ended .overflow }
    decRegs := { EngineRegs.reset with status := Status.ended .format }
    errOff := 4#32 }

theorem bothEnded_inv : Invariant bothEnded where
  memWf := by decide
  drawn := by decide
  cfgReserved := by decide
  enc := by constructor <;> decide
  dec := by constructor <;> decide
  apart := by decide

theorem witness_OutcomeStays :
    Invariant bothEnded ∧ (∃ t, step bothEnded = .next t) ∧ bothEnded.agenda.head? ≠ some .reset ∧
      bothEnded.encRegs.status.done = true ∧ bothEnded.decRegs.status.done = true ∧
      (∀ w v, bothEnded.agenda.head? = some (.regWrite w 0x10 v) → v.getLsbD 0 = false) ∧
      (∀ w v, bothEnded.agenda.head? = some (.regWrite w 0x30 v) → v.getLsbD 0 = false) :=
  ⟨bothEnded_inv, ⟨_, rfl⟩, by decide, rfl, rfl, nofun, nofun⟩

theorem witness_EngineStepsStayInside :
    ((atRpt 1).decTurn ∧ ∃ t, step (atRpt 1) = .next t) ∧
      ((encAt [0x41#8] .iter 0 4 8 7).encTurn ∧ ∃ t, step (encAt [0x41#8] .iter 0 4 8 7) = .next t) :=
  ⟨⟨by decide, _, rfl⟩, ⟨by decide, _, rfl⟩⟩

/-- Another memory, which agrees with the first on the SRC window and differs beside it. -/
theorem witness_EnginesReadOnlyTheirSource :
    ((atRpt 1).decTurn ∧
        (∀ a, (atRpt 1).dec.job.srcWindow.contains a →
          ((atRpt 1).mem.writeBytes 0x108 [0x55#8]).read a = (atRpt 1).mem.read a) ∧
        ∃ t, step (atRpt 1) = .next t) ∧
      ((encAt [0x41#8] .iter 0 4 8 7).encTurn ∧
        (∀ a, (encAt [0x41#8] .iter 0 4 8 7).enc.job.srcWindow.contains a →
          ((encAt [0x41#8] .iter 0 4 8 7).mem.writeBytes 0x2001 [0x55#8]).read a =
            (encAt [0x41#8] .iter 0 4 8 7).mem.read a) ∧
        ∃ t, step (encAt [0x41#8] .iter 0 4 8 7) = .next t) := by
  refine ⟨⟨by decide, fun a h => ?_, _, rfl⟩, ⟨by decide, fun a h => ?_, _, rfl⟩⟩
  · exact read_writeBytes_outside _ (Or.inl h.2)
  · exact read_writeBytes_outside _ (Or.inl h.2)

theorem witness_EngineStepsCommute :
    Safe (bothAt [0x00#8, 0x00#8, 0x00#8, 0x00#8] [0x41#8]) ∧
      ∃ a b, encStep (bothAt [0x00#8, 0x00#8, 0x00#8, 0x00#8] [0x41#8]) = .next a ∧ a.enc.phase = .iter ∧
        decStep (bothAt [0x00#8, 0x00#8, 0x00#8, 0x00#8] [0x41#8]) = .next b ∧ b.dec.phase = .blk :=
  ⟨⟨rfl, bothAt_inv⟩, _, _, rfl, rfl, rfl, rfl⟩

theorem witness_FindRunGivesLeastStart :
    findRun ([0x41#8] ++ rep 0x42#8 7) = some 1 ∧ findRun ([0x41#8] ++ rep 0x42#8 6) = none := by decide

theorem witness_TrimIsWellDefined :
    7 ≤ ([0x41#8] ++ rep 0x42#8 6).length ∧ findRun ([0x41#8] ++ rep 0x42#8 6) = none := by decide

/-- The least and the greatest MaxBlockSize, and a source with bytes left. -/
theorem witness_IterationMakesProgress :
    7 ≤ 7 ∧ 65535 ≤ 65535 ∧ [0x41#8] ≠ ([] : List Byte) ∧ iteration 7 [0x41#8] = [.lit [0x41#8]] := by decide

theorem witness_BlockCountRanges :
    partitionSource 7 ([0x41#8] ++ rep 0x42#8 7) = [.lit [0x41#8]] ++ .rpt 7#16 0x42#8 :: [] := by decide

theorem witness_BlocksPartitionSource :
    7 ≤ 65535 ∧ 65535 ≤ 65535 ∧ partitionSource 65535 ([] : List Byte) = [] ∧
      partitionSource 65535 [0x41#8] = [.lit [0x41#8]] := by decide

/-- Runs between other bytes, for M = 9: the source `x run y` with runs of 7, 9, 16 and 15 bytes, the last with a
remainder of 6, and of 6 and 1 bytes. -/
theorem witness_EqualBytesSplitIntoRepeats :
    7 ≤ 9 ∧ 9 ≤ 65535 ∧ [0x78#8].getLast? ≠ some 0x43#8 ∧ [0x79#8].head? ≠ some 0x43#8 ∧
      [7, 9, 16, 15, 6, 1].map (fun L => partitionSource 9 ([0x78#8] ++ (rep 0x43#8 L ++ [0x79#8]))) =
        [[.lit [0x78#8], .rpt 7#16 0x43#8, .lit [0x79#8]],
         [.lit [0x78#8], .rpt 9#16 0x43#8, .lit [0x79#8]],
         [.lit [0x78#8], .rpt 9#16 0x43#8, .rpt 7#16 0x43#8, .lit [0x79#8]],
         [.lit [0x78#8], .rpt 9#16 0x43#8, .lit (rep 0x43#8 6 ++ [0x79#8])],
         [.lit ([0x78#8] ++ rep 0x43#8 6 ++ [0x79#8])],
         [.lit [0x78#8, 0x43#8, 0x79#8]]] := by decide

/-- A RPT that ends where a run of 6 begins, and one that begins where it ends. -/
theorem witness_EqualBytesSplitIntoRepeats_short :
    partitionSource 9 (rep 0x41#8 7 ++ (rep 0x43#8 6 ++ rep 0x42#8 7)) =
      [.rpt 7#16 0x41#8] ++ .lit (rep 0x43#8 6) :: [.rpt 7#16 0x42#8] := by decide

/-- Lengths 0, 1 and 6. -/
theorem witness_ShortSourceIsLiteral :
    encodeStream ([] : List Byte) 7 = rep 0#8 4 ∧ partitionSource 7 [0x41#8] = [.lit [0x41#8]] ∧
      partitionSource 7 (rep 0x41#8 6) = [.lit (rep 0x41#8 6)] := by decide

theorem witness_EncodedSizeBound :
    7 ≤ 7 ∧ [0x41#8].length = 1 ∧ (encodeStream [0x41#8] 7).length = 8 := by decide

theorem witness_DecodeOfEncodeRoundTrip :
    7 ≤ 7 ∧ [0x41#8].length < 4294967296 ∧ decodeStream (encodeStream [0x41#8] 7) = .ok 1#32 [0x41#8] ∧
      { (atRpt 1).dec with hdr := 1#32, wr := 1#32 }.wr.toNat = [0x41#8].length := by decide

/-- Two adjacent literal blocks (V-E16). -/
theorem witness_LiteralContent :
    partitionSource 7 ([0x41#8] ++ rep 0x42#8 6 ++ [0x41#8] ++ rep 0x42#8 6) =
      [] ++ .lit [0x41#8] :: .lit (rep 0x42#8 6) :: [.lit ([0x41#8] ++ rep 0x42#8 6)] ∧
      7 ≤ ([0x41#8] ++ rep 0x42#8 6).length := by decide

theorem witness_EncoderHeaderStep :
    ∀ cap ∈ [3, 4], (encAt [0x41#8] .hdr 0 0 cap 7).encTurn ∧ (encAt [0x41#8] .hdr 0 0 cap 7).enc.phase = .hdr ∧
      (encAt [0x41#8] .hdr 0 0 cap 7).enc.job.dstWindow.inMemory ∧
      (encAt [0x41#8] .hdr 0 0 cap 7).enc.job.cap.toNat = cap := by decide

/-- The one block of the source has 4 bytes: it fits a capacity of 8 after the header, and not one of 7. -/
theorem witness_EncoderIterationStep :
    Safe (encAt [0x41#8] .iter 0 4 8 7) ∧ Safe (encAt [0x41#8] .iter 0 4 7 7) ∧
      (encAt [0x41#8] .iter 0 4 8 7).encTurn ∧ (encAt [0x41#8] .iter 0 4 7 7).encTurn ∧
      (encAt [0x41#8] .iter 0 4 8 7).enc.phase = .iter ∧
      (encAt [0x41#8] .iter 0 4 8 7).enc.pos.toNat < (encAt [0x41#8] .iter 0 4 8 7).enc.job.n.toNat ∧
      (iteration 7 [0x41#8]).flatMap encode = [0x01#8, 0x01#8, 0x00#8, 0x41#8] :=
  ⟨⟨rfl, encAt_iter_inv⟩,
    ⟨rfl, { memWf := by decide, drawn := by decide, cfgReserved := by decide
            enc := by constructor <;> decide
            dec := by constructor <;> decide
            apart := by decide }⟩,
    by decide, by decide, rfl, by decide, by decide⟩

/-- One byte and a run of 7: the LIT of 4 bytes fits a capacity of 11 after the header, and the RPT does not. -/
theorem witness_EncoderIterationStep_second_block :
    (iteration 8 ([0x41#8] ++ rep 0x42#8 7)).map (fun b => (encode b).length) = [4, 4] ∧
      (nextOf (step (encAt ([0x41#8] ++ rep 0x42#8 7) .iter 0 4 11 8))).map
        (fun t => (t.enc.wr, t.readReg .encStatus, t.enc.phase)) = some (8#32, 0x32#32, .idle) := by decide

theorem witness_EncoderCompletionStep :
    (encAt [] .iter 0 4 5 7).encTurn ∧ (encAt [] .iter 0 4 5 7).enc.phase = .iter ∧
      (encAt [] .iter 0 4 5 7).enc.pos = (encAt [] .iter 0 4 5 7).enc.job.n := by decide

/-- The whole encode of one byte, as steps on the agenda. -/
def encodeAll (cap : Nat) : State :=
  { encAt [0x41#8] .hdr 0 0 cap 7 with agenda := List.replicate (encodeStepBound 1) .encStep }

/-- Its stream has 8 bytes: it fits a capacity of 8, and not one of 7. -/
theorem witness_EncoderComputesEncode :
    Invariant (encodeAll 8) ∧ Invariant (encodeAll 7) ∧ (encodeStream [0x41#8] 7).length = 8 ∧
      ∀ cap, (encodeAll cap).refused = false ∧ (encodeAll cap).enc.phase = .hdr ∧
        (encodeAll cap).agenda = List.replicate (encodeStepBound (encodeAll cap).enc.job.n.toNat) .encStep := by
  refine ⟨?_, ?_, by decide, fun _ => ⟨rfl, rfl, rfl⟩⟩ <;>
    exact
      { memWf := by decide
        drawn := by decide
        cfgReserved := by decide
        enc := by constructor <;> decide
        dec := by constructor <;> decide
        apart := by decide }

/-- The offsets of the RW registers of 10_state.md R21, lowest and highest among them. -/
theorem witness_RegisterWriteStores_offsets :
    ∀ o ∈ [0x00, 0x18, 0x1C, 0x20, 0x24, 0x38, 0x3C, 0x40, 0x44],
      (withEvent State.reset (.regWrite .word o 1#32)).hasTurn (.regWrite .word o 1#32) := by decide

theorem witness_RegisterWriteStores :
    (withEvent (encAt [0x41#8] .hdr 0 0 8 7) (.regWrite .word 0x00 0xFFFF0006#32)).hasTurn
      (.regWrite .word 0x00 0xFFFF0006#32) ∧ (0x00, Reg.cfg) ∈ [(0x00, Reg.cfg)] := by decide

theorem witness_StartWhileBusyIsIgnored :
    (withEvent (encAt [] .hdr 0 0 8 7) (.regWrite .word 0x10 1#32)).hasTurn (.regWrite .word 0x10 1#32) ∧
      (encAt [] .hdr 0 0 8 7).encRegs.status.busy = true ∧
      (withEvent (atRpt 1) (.regWrite .word 0x30 1#32)).hasTurn (.regWrite .word 0x30 1#32) ∧
      (atRpt 1).decRegs.status.busy = true := by decide

/-- Ignored because busy (`witness_StartWhileBusyIsIgnored`), rejected, and accepted. -/
theorem witness_EncodeStart :
    (withEvent (encReady 6#32) (.regWrite .word 0x10 1#32)).hasTurn (.regWrite .word 0x10 1#32) ∧
      (encReady 6#32).encRegs.status.busy = false ∧ (1#32 : Word).getLsbD 0 = true ∧
      ((encReady 6#32).cfg.extractLsb' 0 16).toNat = 6 ∧ ((encReady 7#32).cfg.extractLsb' 0 16).toNat = 7 := by decide

/-- An encode START accepted beside a busy decoder whose SRC window is [0x100, 0x108): with its DST window from 0x107 on
the refused mark is set, from 0x108 on it is not (20_memory.md R85). -/
theorem test_encode_start_overlap :
    [0x107#32, 0x108#32].map (fun d => (nextOf (step
      { withEvent (atRpt 1) (.regWrite .word 0x10 1#32) with
        encRegs := { EngineRegs.reset with srcBase := 0x100#32, srcLen := 1#32, dstBase := d, dstCap := 8#32 } })).map
      (fun t => (t.encRegs.status.busy, t.refused))) = [some (true, true), some (true, false)] := by decide

theorem witness_DecodeStart :
    (withEvent (decReady 0x1000#32 0x100#32 0x10FF#32 0x10#32) (.regWrite .word 0x30 1#32)).hasTurn
        (.regWrite .word 0x30 1#32) ∧
      (decReady 0x1000#32 0x100#32 0x10FF#32 0x10#32).decRegs.status.busy = false ∧
      (1#32 : Word).getLsbD 0 = true := by decide

/-- A decode START whose SRC window meets the busy encoder's DST window, as in the false variant of program P5
(95_test_vectors.md section 5). -/
theorem test_decode_start_overlap :
    [0x3007#32, 0x3008#32].map (fun a => (nextOf (step
      { withEvent (encAt [0x41#8] .hdr 0 0 8 7) (.regWrite .word 0x30 1#32) with
        decRegs := (decReady a 8#32 0x5000#32 8#32).decRegs })).map
      (fun t => (t.decRegs.status.busy, t.refused))) = [some (true, true), some (true, false)] := by decide

theorem witness_WritesWithoutEffect :
    ∀ o ∈ [0x10, 0x30, 0x14, 0x28, 0x34, 0x48, 0x4C, 0x50, 0x04, 0x54, 0xFC],
      (withEvent State.reset (.regWrite .word o 2#32)).hasTurn (.regWrite .word o 2#32) ∧ o % 4 = 0 ∧ o < 256 ∧
      ((o = 0x10 ∨ o = 0x30) ∧ (2#32 : Word).getLsbD 0 = false ∨ o ∈ [0x14, 0x28, 0x34, 0x48, 0x4C, 0x50] ∨
        o ∉ [0x00, 0x10, 0x14, 0x18, 0x1C, 0x20, 0x24, 0x28, 0x30, 0x34, 0x38, 0x3C, 0x40, 0x44, 0x48, 0x4C, 0x50]) := by
  decide

/-- OUT_LEN while BUSY and after an error. -/
theorem witness_RegisterRead_outLen :
    (withEvent (atRpt 1) (.regRead .word 0x48)).hasTurn (.regRead .word 0x48) ∧
      (atRpt 1).decRegs.status.busy = true ∧
      (withEvent bothEnded (.regRead .word 0x28)).hasTurn (.regRead .word 0x28) ∧
      bothEnded.encRegs.status.err ≠ .none := by decide

theorem witness_RegisterRead :
    ∀ o ∈ [0x00, 0x10, 0x30, 0x50, 0x54, 0xFC], (withEvent State.reset (.regRead .word o)).hasTurn (.regRead .word o) ∧ o % 4 = 0 ∧
      o < 256 := by decide

theorem witness_OutLenReads :
    ((atRpt 1).regs .dec).status.busy = true ∧ (bothEnded.regs .enc).status.err ≠ .none ∧
      (State.reset.regs .enc).status.busy = false ∧ (State.reset.regs .enc).status.err = .none := by decide

theorem witness_OutsideAccessRefusesRun :
    (withEvent State.reset (.regRead .byte 0)).hasTurn (.regRead .byte 0) ∧
      (withEvent State.reset (.regWrite .word 2 0#32)).hasTurn (.regWrite .word 2 0#32) ∧
      (withEvent State.reset (.regRead .word 256)).hasTurn (.regRead .word 256) ∧
      (withEvent State.reset (.regRead .other 0)).hasTurn (.regRead .other 0) ∧
      (AccessWidth.byte ≠ .word ∧ AccessWidth.other ≠ .word ∧ 2 % 4 ≠ 0 ∧ 256 ≤ 256) := by decide

/-- A 64-bit write of CFG refuses the run and writes nothing (93_implementation_defined.md I17). -/
theorem test_wide_register_write :
    (nextOf (step (withEvent State.reset (.regWrite .other 0x00 7#32)))).map (fun t => (t.cfg, t.refused)) =
      some (0x0000FFFF#32, true) := by decide

/-- A write to the first byte of a busy decoder's SRC window breaks a duty; the byte before it does not. -/
theorem witness_RefusedMarkIsDutyViolation :
    (∃ t, step (withEvent (atRpt 1) (.memWrite 0x100 [0#8])) = .next t ∧ t.refused = true) ∧
      (∃ t, step (withEvent (atRpt 1) (.memWrite 0xFF [0#8])) = .next t ∧ t.refused = false) :=
  ⟨⟨_, rfl, by decide⟩, ⟨_, rfl, by decide⟩⟩

/-- A host write of CFG while both engines are busy is a step of neither. -/
theorem witness_HostDoesNotStopAnEngine :
    Invariant (withEvent (bothAt (rep 0#8 4) [0x41#8]) (.regWrite .word 0x00 0#32)) ∧
      (∃ t, step (withEvent (bothAt (rep 0#8 4) [0x41#8]) (.regWrite .word 0x00 0#32)) = .next t) ∧
      (withEvent (bothAt (rep 0#8 4) [0x41#8]) (.regWrite .word 0x00 0#32)).agenda.head? ≠ some .reset ∧
      (bothAt (rep 0#8 4) [0x41#8]).encRegs.status.busy = true ∧
      (bothAt (rep 0#8 4) [0x41#8]).decRegs.status.busy = true ∧
      ¬ (withEvent (bothAt (rep 0#8 4) [0x41#8]) (.regWrite .word 0x00 0#32)).encTurn ∧
      ¬ (withEvent (bothAt (rep 0#8 4) [0x41#8]) (.regWrite .word 0x00 0#32)).decTurn :=
  ⟨{ memWf := by decide, drawn := by decide, cfgReserved := by decide
     enc := by constructor <;> decide
     dec := by constructor <;> decide
     apart := by decide },
    ⟨_, rfl⟩, by decide, by decide, by decide, by decide, by decide⟩

theorem witness_HostReadOfMemory :
    (withEvent (atRpt 1) (.memRead 0x1000 2)).hasTurn (.memRead 0x1000 2) ∧
      (withEvent (atRpt 1) (.memRead 0x1000 2)).inBusyDst 0x1000 ∧
      ¬ (withEvent (atRpt 1) (.memRead 0x1000 2)).inBusyDst 0x1001 ∧ 0xFFFFFFFF + 1 ≤ 4294967296 := by decide

theorem witness_HostWriteOfMemory :
    (withEvent (atRpt 1) (.memWrite 0x107 [0#8])).hasTurn (.memWrite 0x107 [0#8]) ∧
      (atRpt 1).dec.job.srcWindow.contains 0x107 ∧ ¬ (atRpt 1).dec.job.srcWindow.contains 0x108 ∧
      0xFFFFFFFF + [0#8].length ≤ 4294967296 := by decide

theorem witness_ResetInput :
    (withEvent (atRpt 1) .reset).hasTurn .reset ∧ (withEvent (atRpt 1) .reset).inBusyDst 0x1000 ∧
      ¬ (withEvent (atRpt 1) .reset).inBusyDst 0x1001 := by decide

theorem witness_StepKeepsInvariant : Invariant (atRpt 1) ∧ ∃ t, step (atRpt 1) = .next t := ⟨atRpt_inv, _, rfl⟩

theorem witness_StepStopsOnlyForTheHost :
    Safe (atRpt 1) ∧ step (withEvent (atRpt 1) (.memRead 0xFFFFFFFF 2)) = .fault .noSuchAddress :=
  ⟨⟨rfl, atRpt_inv⟩, rfl⟩

theorem witness_BusyEnginesFinish :
    Safe (bothAt [0x00#8, 0x00#8, 0x00#8, 0x00#8] [0x41#8]) ∧
      (bothAt [0x00#8, 0x00#8, 0x00#8, 0x00#8] [0x41#8]).agenda = [] := ⟨⟨rfl, bothAt_inv⟩, rfl⟩

end Sys2Proof.Tests
end

section
/-! PROOFS. Status words, OUT_LEN, and register accesses outside the interface (10_state.md R24, R29, R31, R36, R40). -/

namespace Sys2Proof.Machine

/-! ## The STATUS word -/

/-- The fields of a STATUS word, each at its bits. -/
theorem statusWord_fields (st : Status) (bit2 : Bool) :
    (st.word bit2).getLsbD 0 = st.busy ∧ (st.word bit2).getLsbD 1 = st.done ∧ (st.word bit2).getLsbD 2 = bit2 ∧
    (st.word bit2).getLsbD 3 = false ∧ (st.word bit2).extractLsb' 4 4 = st.err.code ∧
    (st.word bit2).extractLsb' 8 24 = 0#24 := by
  obtain ⟨busy, done, err⟩ := st
  cases err <;> revert busy done bit2 <;> decide

/-- The two bits above DONE are clear in a STATUS word whose bit 2 is 0. -/
theorem statusWord_false_bits (st : Status) : (st.word false).extractLsb' 2 2 = 0#2 := by
  obtain ⟨-, -, h2, h3, -, -⟩ := statusWord_fields st false
  ext i hi
  match i with
  | 0 => simpa using h2
  | 1 => simpa using h3

/-- Settles O40: both STATUS registers read as a STATUS word, the encoder's with bit 2 clear. -/
theorem statusWordLayout : Obligations.StatusWordLayout := by
  unfold Obligations.StatusWordLayout
  intro s code
  have hcode (err : ErrCode) : err.code = code err := by cases err <;> rfl
  obtain ⟨eBusy, eDone, -, -, eErr, eHigh⟩ := statusWord_fields s.encRegs.status false
  obtain ⟨dBusy, dDone, dLenmm, dBit3, dErr, dHigh⟩ := statusWord_fields s.decRegs.status s.lenmm
  exact ⟨eBusy, eDone, statusWord_false_bits _, eErr.trans (hcode _), eHigh,
    dBusy, dDone, dLenmm, dBit3, dErr.trans (hcode _), dHigh⟩

/-! ## OUT_LEN -/

/-- OUT_LEN is open exactly while BUSY and after an operation that ended with an error. -/
theorem outLenOpen_iff (st : Status) : st.outLenOpen = true ↔ st.busy = true ∨ st.err ≠ .none := by
  simp [Status.outLenOpen]

/-- Settles O47: the two cases of a read of OUT_LEN are the two values of `Status.outLenOpen`. -/
theorem outLenReads : Obligations.OutLenReads := by
  unfold Obligations.OutLenReads
  intro s e
  constructor
  · intro h
    exact if_pos ((outLenOpen_iff _).mpr h)
  · intro hbusy herr
    refine if_neg fun h => ?_
    rcases (outLenOpen_iff _).mp h with hb | he
    · simp [hbusy] at hb
    · exact he herr

/-! ## Accesses outside the interface -/

/-- A register read outside the interface only sets the refused mark. -/
theorem hostRegRead_outside {width : AccessWidth} {offset : Nat} (h : ¬ regAccessAllowed width offset) (s : State) :
    s.hostRegRead width offset = { s with refused := true } := if_neg h

/-- A register write outside the interface only sets the refused mark. -/
theorem hostRegWrite_outside {width : AccessWidth} {offset : Nat} (h : ¬ regAccessAllowed width offset) (s : State)
    (value : Word) : s.hostRegWrite width offset value = { s with refused := true } := if_neg h

/-- Settles O48: such an access sets the mark and does nothing else, and a marked run has no step. -/
theorem outsideAccessRefusesRun : Obligations.OutsideAccessRefusesRun := by
  unfold Obligations.OutsideAccessRefusesRun
  intro s width offset v hturn hout
  have hbad : ¬ regAccessAllowed width offset := by
    rintro ⟨hw, ha, hb⟩
    simp only [regBlockBytes] at hb
    rcases hout with h | h | h
    · exact h hw
    · exact h ha
    · omega
  refine ⟨_, ?_, rfl, step_refused rfl⟩
  rcases hturn with h | h
  · rw [step_hasTurn h, runEvent, hostRegRead_outside hbad]
  · rw [step_hasTurn h, runEvent, hostRegWrite_outside hbad]

end Sys2Proof.Machine
end

section
/-! PROOFS. A step of the decoder engine: everything it can answer, what it leaves alone, and that its cursor moves only
forward (42_decoder.md R151 to R158, 20_memory.md R73). -/

namespace Sys2Proof.Machine

/-! ## What a decoder step can do -/

/-- The decoder reads at each position only the elements that stand there. -/
theorem decodeAt_position {p : Position} {bytes rest : List Byte} {i : Instr} (h : decodeAt p bytes = .ok (i, rest)) :
    i.position = p := by
  cases p with
  | header =>
    simp only [decodeAt, decodeHeader] at h
    split at h <;> cases h
    rfl
  | block =>
    simp only [decodeAt, decodeBlock] at h
    split at h
    · cases h
    · split at h
      · simp only [decodeRpt] at h
        split at h <;> cases h
        rfl
      · split at h
        · simp only [decodeLit] at h
          split at h
          · split at h <;> cases h
            rfl
          · cases h
        · cases h

/-- What bytes are rejected for is an error. -/
theorem errOf_ne_none (e : DecodeError) : errOf e ≠ .none := by cases e <;> nofun

/-- No element is shorter than a LIT block without payload. -/
theorem three_le_length (i : Instr) : 3 ≤ i.length := by
  cases i with
  | hdr length => exact (Laws.EncodedLength.hdr length).2
  | rpt count value => exact (Laws.EncodedLength.rpt count value).2
  | lit payload => exact (Laws.EncodedLength.lit payload).2

/-- The state after a block that completes. -/
def State.afterBlock (s : State) (i : Instr) : State :=
  { s with
    mem := s.mem.writeBytes (s.dec.job.dst.toNat + s.dec.wr.toNat) i.expand
    dec := { s.dec with
      wr := Word.ofNat (s.dec.wr.toNat + i.count)
      rd := Word.ofNat (s.dec.rd.toNat + i.length) } }

/-- The state after a header that completes. -/
def State.afterHeader (s : State) (length : Word) : State :=
  { s with hdrLen := length, dec := { s.dec with hdr := length, rd := 4#32, phase := .blk } }

/-- A block that fits: it ends within the stream, its output within the capacity and within M. -/
structure BlockFits (s : State) (i : Instr) : Prop where
  position : i.position = .block
  stream : s.dec.rd.toNat + i.length ≤ s.dec.job.n.toNat
  capacity : s.dec.wr.toNat + i.count ≤ s.dec.job.cap.toNat
  memory : s.dec.job.dst.toNat + s.dec.wr.toNat + i.count ≤ Config.memSize

/-- An instruction that answers a next state takes a fault entry or completes. -/
theorem exec_cases {i : Instr} {s t : State} (h : exec i s = .next t) :
    (∃ err off, err ≠ .none ∧ t = s.raiseFault .dec err off) ∨
    (i.position = .header ∧ 4 ≤ s.dec.job.n.toNat ∧ ∃ length, t = s.afterHeader length) ∨
    (BlockFits s i ∧ t = s.afterBlock i) := by
  cases hp : i.position with
  | header =>
    obtain ⟨length, rfl⟩ := header_eq_hdr hp
    rcases execHdr_cases h with ⟨-, h⟩ | ⟨hn, h⟩ <;> cases h
    · exact .inl ⟨.truncated, 0#32, nofun, rfl⟩
    · exact .inr (.inl ⟨rfl, hn, length, rfl⟩)
  | block =>
    rw [exec_block hp] at h
    rcases decodeBlockInto_cases h with ⟨-, h⟩ | ⟨-, -, h⟩ | ⟨-, -, -, h⟩ | ⟨hn, hcap, hmem, h⟩ <;> cases h
    · exact .inl ⟨.truncated, _, nofun, rfl⟩
    · exact .inl ⟨.overflow, _, nofun, rfl⟩
    · exact .inr (.inr ⟨⟨hp, hn, hcap, hmem⟩, rfl⟩)

/-- A header or block step takes a fault entry or completes the element of its position. -/
theorem decElementStep_cases {s t : State} (h : decElementStep s = .next t) :
    (∃ err off, err ≠ .none ∧ t = s.raiseFault .dec err off) ∨
    (s.dec.position = .header ∧ 4 ≤ s.dec.job.n.toNat ∧ ∃ length, t = s.afterHeader length) ∨
    (s.dec.position = .block ∧ ∃ i, BlockFits s i ∧ t = s.afterBlock i) := by
  unfold decElementStep at h
  split at h
  · cases h
  · split at h
    · rename_i hd
      have hp := decodeAt_position hd
      rcases exec_cases h with hfault | ⟨hi, hn, ht⟩ | ⟨hfits, ht⟩
      · exact .inl hfault
      · exact .inr (.inl ⟨hp.symm.trans hi, hn, ht⟩)
      · exact .inr (.inr ⟨hp.symm.trans hfits.position, _, hfits, ht⟩)
    · cases h
      exact .inl ⟨_, _, errOf_ne_none _, rfl⟩

/-- Everything a step of the decoder engine can do: nothing while idle, else a fault entry, the header, a block, or the
completion. -/
theorem decStep_cases {s t : State} (h : decStep s = .next t) :
    (s.dec.phase = .idle ∧ t = s) ∨
    (s.dec.phase ≠ .idle ∧ ∃ err off, err ≠ .none ∧ t = s.raiseFault .dec err off) ∨
    (s.dec.phase = .hdr ∧ 4 ≤ s.dec.job.n.toNat ∧ ∃ length, t = s.afterHeader length) ∨
    (s.dec.phase = .blk ∧ ∃ i, BlockFits s i ∧ t = s.afterBlock i) ∨
    (s.dec.phase = .blk ∧ s.dec.job.n.toNat ≤ s.dec.rd.toNat ∧ t = decCompletion s) := by
  unfold decStep at h
  cases hp : s.dec.phase with
  | idle =>
    simp only [hp] at h
    cases h
    exact .inl ⟨rfl, rfl⟩
  | hdr =>
    simp only [hp] at h
    rcases decElementStep_cases h with hfault | ⟨-, hn, ht⟩ | ⟨hpos, -⟩
    · exact .inr (.inl ⟨nofun, hfault⟩)
    · exact .inr (.inr (.inl ⟨rfl, hn, ht⟩))
    · simp [DecEngine.position, hp] at hpos
  | blk =>
    simp only [hp] at h
    split at h
    · rcases decElementStep_cases h with hfault | ⟨hpos, -⟩ | ⟨-, ht⟩
      · exact .inr (.inl ⟨nofun, hfault⟩)
      · simp [DecEngine.position, hp] at hpos
      · exact .inr (.inr (.inr (.inl ⟨rfl, ht⟩)))
    · cases h
      exact .inr (.inr (.inr (.inr ⟨rfl, by omega, rfl⟩)))

/-- After a block that fits the read cursor is past the block's bytes. -/
theorem afterBlock_rd {s : State} {i : Instr} (h : BlockFits s i) :
    (s.afterBlock i).dec.rd.toNat = s.dec.rd.toNat + i.length := word_toNat _ h.stream

/-- After a block that fits the output is longer by the bytes the block denotes. -/
theorem afterBlock_wr {s : State} {i : Instr} (h : BlockFits s i) :
    (s.afterBlock i).dec.wr.toNat = s.dec.wr.toNat + i.count := word_toNat _ h.capacity

/-! ## What a decoder step leaves alone -/

/-- A step of the decoder engine moves only the decoder (20_memory.md R73, 60_exceptions.md R242). -/
theorem decStep_onlyDecoderMoved {s t : State} (h : decStep s = .next t) : OnlyDecoderMoved s t := by
  rcases decStep_cases h with ⟨-, rfl⟩ | ⟨-, err, off, -, rfl⟩ | ⟨-, -, length, rfl⟩ | ⟨-, i, hfits, rfl⟩ | ⟨-, -, rfl⟩
  · exact ⟨rfl, rfl, rfl, rfl, rfl, rfl, rfl, rfl, fun _ _ => rfl⟩
  · exact ⟨rfl, rfl, rfl, rfl, rfl, rfl, rfl, rfl, fun _ ha => read_unspecify_outside _ ha⟩
  · exact ⟨rfl, rfl, rfl, rfl, rfl, rfl, rfl, rfl, fun _ _ => rfl⟩
  · refine ⟨rfl, rfl, rfl, rfl, rfl, rfl, rfl, rfl, fun a ha => read_writeBytes_outside _ ?_⟩
    have hcap := hfits.capacity
    simp only [Latched.dstWindow, Window.contains, expand_length] at ha ⊢
    omega
  · refine ⟨rfl, rfl, rfl, rfl, rfl, rfl, rfl, rfl, fun a ha => read_unspecify_outside _ ?_⟩
    simp only [Latched.dstWindow, Window.contains, State.job] at ha ⊢
    omega

/-! ## The cursor -/

/-- Settles O18: by the cases of a decoder step; only a header and a block move the cursor. -/
theorem cursorMovesForward : Obligations.CursorMovesForward := by
  unfold Obligations.CursorMovesForward
  intro s t hi hturn hbusy h
  rw [step_decTurn hturn] at h
  have hrd : s.dec.rd.toNat ≤ s.dec.job.n.toNat := by
    cases hp : s.dec.phase with
    | idle => exact absurd hp hbusy
    | hdr => simp [(hi.dec.hdrPhase hp).1]
    | blk => exact (hi.dec.blkPhase hp).2.1
  rcases decStep_cases h with
    ⟨hp, -⟩ | ⟨-, err, off, -, rfl⟩ | ⟨hp, hn, length, rfl⟩ | ⟨-, i, hfits, rfl⟩ | ⟨-, -, rfl⟩
  · exact absurd hp hbusy
  · exact ⟨Nat.le_refl _, hrd, nofun⟩
  · obtain ⟨h0, -, -⟩ := hi.dec.hdrPhase hp
    refine ⟨by simp [h0], hn, fun hblk => ?_⟩
    rw [popped_dec, hblk] at hp
    cases hp
  · have h3 := three_le_length i
    have hend := hfits.stream
    rw [afterBlock_rd hfits]
    simp only [popped_dec] at hend ⊢
    exact ⟨by omega, hend, fun _ _ => by omega⟩
  · exact ⟨Nat.le_refl _, hrd, nofun⟩

end Sys2Proof.Machine
end

section
/-! PROOFS. A step of the encoder engine: an iteration covers no more than the source left, everything a step can answer,
and what it leaves alone (43_encoder.md R182 to R202, 20_memory.md R73). -/

namespace Sys2Proof.Machine

/-! ## An iteration covers no more than the source left -/

/-- The scan finds a run start at or after its candidate, with a whole run inside the bytes. -/
theorem findRunFrom_bounds {fuel p start : Nat} {bytes : List Byte} (h : findRunFrom fuel p bytes = some start) :
    p ≤ start ∧ start + Config.threshold ≤ p + bytes.length := by
  induction fuel generalizing p bytes with
  | zero => cases h
  | succ fuel ih =>
    cases bytes with
    | nil => cases h
    | cons b bytes =>
      simp only [findRunFrom] at h
      split at h
      · cases h
      · split at h
        · cases h
          omega
        · have hle := leadingEqual_le_length b (Config.threshold - 1) bytes
          have := ih h
          simp only [List.length_drop, List.length_cons] at this ⊢
          omega

/-- A run that is found lies in the block (43_encoder.md R184). -/
theorem findRun_bound {block : List Byte} {start : Nat} (h : findRun block = some start) :
    start + Config.threshold ≤ block.length := by
  have := (findRunFrom_bounds h).2
  omega

theorem trimBoundary_le (block : List Byte) : trimBoundary block ≤ block.length := by
  unfold trimBoundary
  split <;> omega

/-- The bytes before the run start are no more than the source left. -/
theorem prefixLength_le (maxBlock : Nat) (rest : List Byte) : prefixLength maxBlock rest ≤ rest.length := by
  have htake (k : Nat) : (rest.take k).length ≤ rest.length := List.length_take_le' k rest
  simp only [prefixLength]
  split
  · rename_i start hrun
    have := findRun_bound hrun
    have := htake (blockSize maxBlock rest)
    omega
  · split
    · simp only [blockSize]
      omega
    · exact (trimBoundary_le _).trans (htake _)

@[simp] theorem covered_nil : covered [] = 0 := rfl

@[simp] theorem covered_cons (b : Instr) (bs : List Instr) : covered (b :: bs) = b.count + covered bs := by
  simp [covered]

@[simp] theorem covered_append (xs ys : List Instr) : covered (xs ++ ys) = covered xs + covered ys := by
  simp [covered]

/-- The literal blocks of some bytes cover those bytes. -/
@[simp] theorem covered_literalBlocks (lit : List Byte) : covered (literalBlocks lit) = lit.length := by
  cases lit <;> simp [literalBlocks, Instr.count]

/-- A repeat block covers no more than what is left from the run start on. -/
theorem covered_repeatBlocks_le (maxBlock : Nat) {rest : List Byte} (h : Config.threshold ≤ rest.length) :
    covered (repeatBlocks maxBlock rest) ≤ rest.length := by
  cases rest with
  | nil => simp [repeatBlocks]
  | cons v bytes =>
    simp only [repeatBlocks, covered_cons, covered_nil, Instr.count, BitVec.toNat_ofNat, Nat.add_zero]
    refine (Nat.mod_le _ _).trans ?_
    have := leadingEqual_le_length v (blockSize maxBlock (v :: bytes) - Config.threshold)
      ((v :: bytes).drop Config.threshold)
    rw [List.length_drop] at this
    omega

/-- One iteration covers no more than the source left, whatever the block size (43_encoder.md R198). -/
theorem covered_iteration_le (maxBlock : Nat) (rest : List Byte) :
    covered (iteration maxBlock rest) ≤ rest.length := by
  have hplen := prefixLength_le maxBlock rest
  simp only [iteration, covered_append, covered_literalBlocks, List.length_take]
  cases hrun : findRun (rest.take (blockSize maxBlock rest)) with
  | none => simp only [covered_nil]; omega
  | some start =>
    have hstart : prefixLength maxBlock rest = start := by simp [prefixLength, hrun]
    have hbound := findRun_bound hrun
    have htake := List.length_take_le' (blockSize maxBlock rest) rest
    have hrun : Config.threshold ≤ (rest.drop (prefixLength maxBlock rest)).length := by
      rw [List.length_drop]
      omega
    have hrepeat := covered_repeatBlocks_le maxBlock hrun
    rw [List.length_drop] at hrepeat
    simp only
    omega

/-! ## What an encoder step can do -/

/-- The state after the stream's header is written. -/
def State.afterEncodedHeader (s : State) : State :=
  { s with
    mem := s.mem.writeBytes s.enc.job.dst.toNat (enc32 s.enc.job.n)
    enc := { s.enc with wr := 4#32, pos := 0#32, phase := .iter } }

/-- The state after a block is written. -/
def State.afterEncodedBlock (s : State) (b : Instr) : State :=
  s.appendEncoded (s.mem.writeBytes (s.enc.job.dst.toNat + s.enc.wr.toNat) (encode b)) b

/-- The source left, as M holds it. -/
def State.sourceLeft (s : State) : List Byte :=
  s.mem.readBytes (s.enc.job.src.toNat + s.enc.pos.toNat) (s.enc.job.n.toNat - s.enc.pos.toNat)

/-- A block whose encoding fits the capacity and M. -/
structure EncodingFits (s : State) (b : Instr) : Prop where
  capacity : s.enc.wr.toNat + b.length ≤ s.enc.job.cap.toNat
  memory : s.enc.job.dst.toNat + s.enc.wr.toNat + b.length ≤ Config.memSize

/-- Blocks that answer a next state are written one by one, up to the first that does not fit. -/
theorem emitBlocks_cons_next {b : Instr} {bs : List Instr} {s t : State} (h : emitBlocks (b :: bs) s = .next t) :
    t = s.raiseFault .enc .overflow 0#32 ∨ (EncodingFits s b ∧ emitBlocks bs (s.afterEncodedBlock b) = .next t) := by
  rcases emitBlocks_cons_cases h with ⟨-, h⟩ | ⟨-, -, h⟩ | ⟨hcap, hmem, h⟩
  · cases h
    exact .inl rfl
  · cases h
  · exact .inr ⟨⟨hcap, hmem⟩, h.symm⟩

/-- Everything a step of the encoder engine can do: nothing while idle, the header or its overflow, one iteration, or the
completion. -/
theorem encStep_cases {s t : State} (h : encStep s = .next t) :
    (s.enc.phase = .idle ∧ t = s) ∨
    (s.enc.phase = .hdr ∧ s.enc.job.cap.toNat < 4 ∧ t = s.raiseFault .enc .overflow 0#32) ∨
    (s.enc.phase = .hdr ∧ 4 ≤ s.enc.job.cap.toNat ∧ s.enc.job.dst.toNat + 4 ≤ Config.memSize ∧
      t = s.afterEncodedHeader) ∨
    (s.enc.phase = .iter ∧ s.enc.pos.toNat < s.enc.job.n.toNat ∧
      emitBlocks (iteration s.enc.maxblk.toNat s.sourceLeft) s = .next t) ∨
    (s.enc.phase = .iter ∧ s.enc.job.n.toNat ≤ s.enc.pos.toNat ∧ t = s.complete .enc s.enc.wr) := by
  unfold encStep at h
  cases hp : s.enc.phase with
  | idle =>
    simp only [hp] at h
    cases h
    exact .inl ⟨rfl, rfl⟩
  | hdr =>
    simp only [hp] at h
    rcases encHeaderStep_cases h with ⟨hcap, h⟩ | ⟨-, -, h⟩ | ⟨hcap, hmem, h⟩ <;> cases h
    · exact .inr (.inl ⟨rfl, hcap, rfl⟩)
    · exact .inr (.inr (.inl ⟨rfl, hcap, hmem, rfl⟩))
  | iter =>
    simp only [hp] at h
    split at h
    · rename_i hpos
      rcases encIterationStep_cases h with ⟨-, h⟩ | ⟨-, h⟩
      · cases h
      · exact .inr (.inr (.inr (.inl ⟨rfl, hpos, h.symm⟩)))
    · cases h
      exact .inr (.inr (.inr (.inr ⟨rfl, by omega, rfl⟩)))

/-- After a block that fits the stream is longer by the block's bytes. -/
theorem afterEncodedBlock_wr {s : State} {b : Instr} (h : EncodingFits s b) :
    (s.afterEncodedBlock b).enc.wr.toNat = s.enc.wr.toNat + b.length := by
  simpa [State.afterEncodedBlock, State.appendEncoded] using word_toNat _ h.capacity

/-- After a block of the source left the position is past the bytes the block covers. -/
theorem afterEncodedBlock_pos {s : State} {b : Instr} (h : s.enc.pos.toNat + b.count ≤ s.enc.job.n.toNat) :
    (s.afterEncodedBlock b).enc.pos.toNat = s.enc.pos.toNat + b.count := word_toNat _ h

/-! ## What an encoder step leaves alone -/

theorem OnlyEncoderMoved.refl (s : State) : OnlyEncoderMoved s s :=
  ⟨rfl, rfl, rfl, rfl, rfl, rfl, rfl, rfl, rfl, rfl, rfl, rfl, fun _ _ => rfl⟩

theorem OnlyEncoderMoved.trans {s t u : State} (h : OnlyEncoderMoved s t) (h' : OnlyEncoderMoved t u) :
    OnlyEncoderMoved s u where
  cfg := h'.cfg.trans h.cfg
  decRegs := h'.decRegs.trans h.decRegs
  lenmm := h'.lenmm.trans h.lenmm
  hdrLen := h'.hdrLen.trans h.hdrLen
  errOff := h'.errOff.trans h.errOff
  dec := h'.dec.trans h.dec
  operands := h'.operands.trans h.operands
  job := h'.job.trans h.job
  maxblk := h'.maxblk.trans h.maxblk
  refused := h'.refused.trans h.refused
  agenda := h'.agenda.trans h.agenda
  response := h'.response.trans h.response
  mem a ha := (h'.mem a (h.job ▸ ha)).trans (h.mem a ha)

theorem raiseFault_onlyEncoderMoved (s : State) (err : ErrCode) (off : Word) :
    OnlyEncoderMoved s (s.raiseFault .enc err off) :=
  ⟨rfl, rfl, rfl, rfl, rfl, rfl, rfl, rfl, rfl, rfl, rfl, rfl, fun _ ha => read_unspecify_outside _ ha⟩

theorem afterEncodedBlock_onlyEncoderMoved {s : State} {b : Instr} (h : EncodingFits s b) :
    OnlyEncoderMoved s (s.afterEncodedBlock b) := by
  refine ⟨rfl, rfl, rfl, rfl, rfl, rfl, rfl, rfl, rfl, rfl, rfl, rfl, fun a ha => read_writeBytes_outside _ ?_⟩
  have := h.capacity
  simp only [Latched.dstWindow, Window.contains, encode_length] at ha ⊢
  omega

theorem emitBlocks_onlyEncoderMoved {bs : List Instr} {s t : State} (h : emitBlocks bs s = .next t) :
    OnlyEncoderMoved s t := by
  induction bs generalizing s with
  | nil =>
    cases h
    exact .refl _
  | cons b bs ih =>
    rcases emitBlocks_cons_next h with rfl | ⟨hfits, h⟩
    · exact raiseFault_onlyEncoderMoved s _ _
    · exact (afterEncodedBlock_onlyEncoderMoved hfits).trans (ih h)

/-- A step of the encoder engine moves only the encoder (20_memory.md R73, 60_exceptions.md R242). -/
theorem encStep_onlyEncoderMoved {s t : State} (h : encStep s = .next t) : OnlyEncoderMoved s t := by
  rcases encStep_cases h with ⟨-, rfl⟩ | ⟨-, -, rfl⟩ | ⟨-, hcap, -, rfl⟩ | ⟨-, -, h⟩ | ⟨-, -, rfl⟩
  · exact .refl _
  · exact raiseFault_onlyEncoderMoved s _ _
  · refine ⟨rfl, rfl, rfl, rfl, rfl, rfl, rfl, rfl, rfl, rfl, rfl, rfl, fun a ha => read_writeBytes_outside _ ?_⟩
    simp only [Latched.dstWindow, Window.contains, enc32_length] at ha ⊢
    omega
  · exact emitBlocks_onlyEncoderMoved h
  · refine ⟨rfl, rfl, rfl, rfl, rfl, rfl, rfl, rfl, rfl, rfl, rfl, rfl, fun a ha => read_unspecify_outside _ ?_⟩
    simp only [Latched.dstWindow, Window.contains, State.job] at ha ⊢
    omega

end Sys2Proof.Machine
end

section
/-! PROOFS. The refused mark: which events set it (10_state.md R52). -/

namespace Sys2Proof.Machine

/-- A register is known by its offset. -/
theorem offset_eq_iff {r q : Reg} : r.offset = q.offset ↔ r = q := by
  constructor
  · intro h
    simpa using congrArg regAt h
  · exact congrArg Reg.offset

/-- An encode START that is accepted to a busy decoder's windows sets the mark; no other does. -/
theorem encStart_refused {s : State} (hr : s.refused = false) :
    s.encStart.refused = true ↔
      s.busy .enc = false ∧ ¬ s.encLatch.enc.configBad ∧ s.busy .dec = true ∧ s.encLatch.crossOverlap := by
  have hlatch : s.encLatch.refused = false := hr
  have hbegin : s.encLatch.encBegin.refused = false := hr
  rcases encStart_cases s with ⟨hb, h⟩ | ⟨hb, hbad, h⟩ | ⟨hb, hok, ⟨hd, ho, h⟩ | ⟨hno, h⟩⟩ <;> rw [h]
  · simp [hr, hb]
  · simp [hlatch, hbad]
  · exact iff_of_true rfl ⟨hb, hok, hd, ho⟩
  · refine iff_of_false (by simp [hbegin]) ?_
    rintro ⟨-, -, hd, ho⟩
    exact hno ⟨hd, ho⟩

/-- A decode START that is accepted to a busy encoder's windows sets the mark; no other does. -/
theorem decStart_refused {s : State} (hr : s.refused = false) :
    s.decStart.refused = true ↔
      s.busy .dec = false ∧ ¬ s.decLatch.dec.configBad ∧ s.busy .enc = true ∧ s.decLatch.crossOverlap := by
  have hlatch : s.decLatch.refused = false := hr
  have hbegin : s.decLatch.decBegin.refused = false := hr
  rcases decStart_cases s with ⟨hb, h⟩ | ⟨hb, hbad, h⟩ | ⟨hb, hok, ⟨he, ho, h⟩ | ⟨hno, h⟩⟩ <;> rw [h]
  · simp [hr, hb]
  · simp [hlatch, hbad]
  · exact iff_of_true rfl ⟨hb, hok, he, ho⟩
  · refine iff_of_false (by simp [hbegin]) ?_
    rintro ⟨-, -, he, ho⟩
    exact hno ⟨he, ho⟩

/-- A write of an implemented register sets the mark exactly where it is a START that breaks a duty. -/
theorem writeReg_refused {s : State} (hr : s.refused = false) (r : Reg) (value : Word) :
    (s.writeReg r value).refused = true ↔
      (s.encAccepts r.offset value ∧ s.busy .dec = true ∧ s.encLatch.crossOverlap) ∨
      (s.decAccepts r.offset value ∧ s.busy .enc = true ∧ s.decLatch.crossOverlap) := by
  simp only [State.encAccepts, State.decAccepts, offset_eq_iff]
  cases r with
  | encCtrl =>
    cases hv : startBit value with
    | true => simp [State.writeReg, hv, encStart_refused hr, and_assoc]
    | false => simp [State.writeReg, hv, hr]
  | decCtrl =>
    cases hv : startBit value with
    | true => simp [State.writeReg, hv, decStart_refused hr, and_assoc]
    | false => simp [State.writeReg, hv, hr]
  | _ => simp [State.writeReg, hr]

/-- Everything a register write can do: the refused mark alone, what the register at the offset does, or nothing. -/
theorem hostRegWrite_cases (s : State) (width : AccessWidth) (offset : Nat) (value : Word) :
    (¬ regAccessAllowed width offset ∧ s.hostRegWrite width offset value = { s with refused := true }) ∨
    (regAccessAllowed width offset ∧ ∃ r, r.offset = offset ∧ s.hostRegWrite width offset value = s.writeReg r value) ∨
    (regAccessAllowed width offset ∧ (∀ r, offset ≠ Reg.offset r) ∧ s.hostRegWrite width offset value = s) := by
  by_cases hok : regAccessAllowed width offset
  · cases hreg : regAt offset with
    | some r => exact .inr (.inl ⟨hok, r, offset_of_regAt hreg, by rw [State.hostRegWrite, if_pos hok, hreg]⟩)
    | none =>
      refine .inr (.inr ⟨hok, ?_, by rw [State.hostRegWrite, if_pos hok, hreg]⟩)
      rintro r rfl
      simp at hreg
  · exact .inl ⟨hok, hostRegWrite_outside hok s value⟩

/-- A register write sets the mark exactly where it breaks a duty. -/
theorem hostRegWrite_refused {s : State} (hr : s.refused = false) (width : AccessWidth) (offset : Nat)
    (value : Word) :
    (s.hostRegWrite width offset value).refused = true ↔ s.breaksDuty (.regWrite width offset value) := by
  rcases hostRegWrite_cases s width offset value with ⟨hbad, h⟩ | ⟨hok, r, rfl, h⟩ | ⟨hok, hno, h⟩ <;> rw [h]
  · exact iff_of_true rfl (.inl hbad)
  · exact (writeReg_refused hr r value).trans (or_iff_right (not_not.mpr hok)).symm
  · refine iff_of_false (by simp [hr]) ?_
    rintro (hbad | ⟨⟨henc, -⟩, -⟩ | ⟨⟨hdec, -⟩, -⟩)
    · exact hbad hok
    · exact hno _ henc
    · exact hno _ hdec

/-- A register read sets the mark exactly where it breaks a duty. -/
theorem hostRegRead_refused {s : State} (hr : s.refused = false) (width : AccessWidth) (offset : Nat) :
    (s.hostRegRead width offset).refused = true ↔ s.breaksDuty (.regRead width offset) := by
  by_cases hok : regAccessAllowed width offset
  · rw [State.hostRegRead, if_pos hok]
    exact iff_of_false (by simp [hr]) (not_not.mpr hok)
  · rw [hostRegRead_outside hok]
    exact iff_of_true rfl hok

/-- Everything a host write of M can answer: a stop, the refused mark alone, or the bytes stored. -/
theorem hostMemWrite_cases {s t : State} {a : Nat} {bytes : List Byte} (h : s.hostMemWrite a bytes = .next t) :
    a + bytes.length ≤ Config.memSize ∧
    ((s.writeMeetsBusy { base := a, size := bytes.length } ∧ t = { s with refused := true }) ∨
     (¬ s.writeMeetsBusy { base := a, size := bytes.length } ∧ t = { s with mem := s.mem.writeBytes a bytes })) := by
  unfold State.hostMemWrite at h
  split at h
  · cases h
  · rename_i m hstore
    obtain ⟨hle, rfl⟩ := store_eq_some.mp hstore
    refine ⟨hle, ?_⟩
    split at h <;> cases h
    · exact .inl ⟨by assumption, rfl⟩
    · exact .inr ⟨by assumption, rfl⟩

/-- Everything a host read of M can answer. -/
theorem hostMemRead_next {s t : State} {a len : Nat} (h : s.hostMemRead a len = .next t) :
    t = { s with response := .bytes (s.hostBytes a len), draws := s.draws + 1 } := by
  unfold State.hostMemRead at h
  split at h <;> cases h
  rfl

@[simp] theorem applyReset_refused (s : State) : s.applyReset.refused = s.refused := by
  simp [State.applyReset]

/-- An event sets the mark exactly where it breaks a duty of the host. -/
theorem runEvent_refused_iff {event : Event} {s t : State} (hr : s.refused = false) (h : runEvent event s = .next t) :
    t.refused = true ↔ s.breaksDuty event := by
  cases event with
  | regWrite width offset value =>
    cases h
    exact hostRegWrite_refused hr width offset value
  | regRead width offset =>
    cases h
    exact hostRegRead_refused hr width offset
  | memWrite addr bytes =>
    rcases (hostMemWrite_cases h).2 with ⟨hmeets, rfl⟩ | ⟨hno, rfl⟩
    · exact iff_of_true rfl hmeets
    · exact iff_of_false (by simp [hr]) hno
  | memRead addr len =>
    rw [hostMemRead_next h]
    exact iff_of_false (by simp [hr]) not_false
  | reset =>
    cases h
    exact iff_of_false (by simp [hr]) not_false
  | encStep =>
    rw [(encStep_onlyEncoderMoved h).refused]
    exact iff_of_false (by simp [hr]) not_false
  | decStep =>
    rw [(decStep_onlyDecoderMoved h).refused]
    exact iff_of_false (by simp [hr]) not_false

/-- What breaks a duty does not depend on the agenda. -/
theorem breaksDuty_popped (s : State) (event : Event) : s.popped.breaksDuty event ↔ s.breaksDuty event := by
  cases event <;> exact Iff.rfl

/-- Settles O49: a step runs the head of the agenda, which sets the mark as its duty says, or an engine, which does not
touch the mark. -/
theorem refusedMarkIsDutyViolation : Obligations.RefusedMarkIsDutyViolation := by
  unfold Obligations.RefusedMarkIsDutyViolation
  refine ⟨rfl, fun s => step_refused, fun s t hr h => ?_⟩
  have hidle (ha : s.agenda = []) (ht : t.refused = s.refused) :
      t.refused = true ↔ ∃ event, s.agenda.head? = some event ∧ s.breaksDuty event :=
    iff_of_false (by simp [ht, hr]) (by simp [ha])
  rcases (step_cases h).2 with
    ⟨event, rest, ha, h⟩ | ⟨ha, -, h⟩ | ⟨ha, -, -, h⟩ | ⟨ha, -, -, rfl⟩
  · have hpopped : s.popped.refused = false := hr
    rw [runEvent_refused_iff hpopped h, breaksDuty_popped]
    simp [ha]
  · exact hidle ha (decStep_onlyDecoderMoved h).refused
  · exact hidle ha (encStep_onlyEncoderMoved h).refused
  · exact hidle ha rfl

end Sys2Proof.Machine
end

section
/-! PROOFS. Every step keeps the invariant: the invariant is taken apart into M, the encoder, the decoder and what binds
them, and each move of an engine or of the host is shown to keep its parts. -/

namespace Sys2Proof.Machine

/-! ## The memory -/

/-- The part of the invariant that speaks of M: its canonical form, and draws made already. -/
structure MemInv (m : Memory) (draws : Nat) : Prop where
  wf : m.wf
  drawn : ∀ u ∈ m.unspecified, u.draw < draws

theorem Invariant.memInv {s : State} (hi : Invariant s) : MemInv s.mem s.draws := ⟨hi.memWf, hi.drawn⟩

theorem MemInv.writeBytes {m : Memory} {draws a : Nat} {bytes : List Byte} (h : MemInv m draws)
    (hle : a + bytes.length ≤ Config.memSize) : MemInv (m.writeBytes a bytes) draws :=
  ⟨writeBytes_wf h.wf hle, h.drawn⟩

theorem MemInv.unspecify {m : Memory} {draws : Nat} {w : Window} (h : MemInv m draws) (hw : w.inMemory) :
    MemInv (m.unspecify w draws) (draws + 1) := by
  refine ⟨unspecify_wf h.wf hw, fun u hu => ?_⟩
  rcases unspecify_draws hu with hu | hu
  · exact Nat.lt_succ_of_lt (h.drawn u hu)
  · omega

theorem MemInv.nextDraw {m : Memory} {draws : Nat} (h : MemInv m draws) : MemInv m (draws + 1) :=
  ⟨h.wf, fun u hu => Nat.lt_succ_of_lt (h.drawn u hu)⟩

/-! ## The status of a busy engine -/

/-- A legal STATUS with BUSY is the one an accepted START sets. -/
theorem Status.eq_started {st : Status} (hb : st.busy = true) (hx : ¬ (st.busy = true ∧ st.done = true))
    (he : st.err ≠ .none → st.done = true) : st = .started := by
  have hd : st.done = false := by simpa [hb] using hx
  have hn : st.err = .none := by simpa [hd] using he
  cases st
  simp_all [Status.started]

/-! ## The encoder -/

/-- The encoder's part speaks of its engine and its STATUS only. -/
theorem EncInv.congr {s t : State} (h : EncInv s) (hst : t.encRegs.status = s.encRegs.status) (he : t.enc = s.enc) :
    EncInv t := by
  constructor <;> simp only [hst, he]
  exacts [h.exclusive, h.errDone, h.errKind, h.busyPhase, h.accepted, h.hdrPhase, h.iterPhase]

theorem EncInv.status_of_busy {s : State} (h : EncInv s) (hp : s.enc.phase ≠ .idle) : s.encRegs.status = .started :=
  Status.eq_started (h.busyPhase.mpr hp) h.exclusive h.errDone

theorem EncInv.dst_inMemory {s : State} (h : EncInv s) (hp : s.enc.phase ≠ .idle) :
    s.enc.job.dstWindow.inMemory :=
  of_not_not fun hout => h.accepted hp (.inr (.inr (.inl hout)))

/-- An operation of the encoder that ended has the encoder's part. -/
theorem EncInv.of_ended {t : State} {err : ErrCode} (hst : t.encRegs.status = .ended err) (hp : t.enc.phase = .idle)
    (herr : err = .none ∨ err = .overflow ∨ err = .config) : EncInv t := by
  constructor <;> simp [hst, hp, herr, Status.ended]

/-- An operation of the encoder in progress has the encoder's part if its windows and cursors have theirs. -/
theorem EncInv.of_running {t : State} (hst : t.encRegs.status = .started) (hp : t.enc.phase ≠ .idle)
    (hacc : ¬ t.enc.configBad) (hhdr : t.enc.phase = .hdr → t.enc.pos = 0#32 ∧ t.enc.wr = 0#32)
    (hiter : t.enc.phase = .iter →
      t.enc.pos.toNat ≤ t.enc.job.n.toNat ∧ 4 ≤ t.enc.wr.toNat ∧ t.enc.wr.toNat ≤ t.enc.job.cap.toNat) :
    EncInv t where
  exclusive := by simp [hst, Status.started]
  errDone := by simp [hst, Status.started]
  errKind := by simp [hst, Status.started]
  busyPhase := by simp [hst, hp, Status.started]
  accepted _ := hacc
  hdrPhase := hhdr
  iterPhase := hiter

/-- A fault entry of a busy encoder keeps the parts of the encoder and of M. -/
theorem EncInv.raiseFault {s : State} (h : EncInv s) (hm : MemInv s.mem s.draws) (hp : s.enc.phase ≠ .idle)
    (off : Word) :
    EncInv (s.raiseFault .enc .overflow off) ∧
      MemInv (s.raiseFault .enc .overflow off).mem (s.raiseFault .enc .overflow off).draws :=
  ⟨.of_ended rfl rfl (.inr (.inl rfl)), hm.unspecify (h.dst_inMemory hp)⟩

/-- Writing a block that fits keeps the parts of the encoder and of M. -/
theorem EncInv.afterEncodedBlock {s : State} {b : Instr} (h : EncInv s) (hm : MemInv s.mem s.draws)
    (hp : s.enc.phase = .iter) (hfits : EncodingFits s b) (hpos : s.enc.pos.toNat + b.count ≤ s.enc.job.n.toNat) :
    EncInv (s.afterEncodedBlock b) ∧ MemInv (s.afterEncodedBlock b).mem (s.afterEncodedBlock b).draws := by
  have hbusy : s.enc.phase ≠ .idle := by simp [hp]
  have hp' : (s.afterEncodedBlock b).enc.phase = .iter := hp
  obtain ⟨-, hwr, -⟩ := h.iterPhase hp
  refine ⟨.of_running (h.status_of_busy hbusy) hbusy (h.accepted hbusy) (by simp [hp']) fun _ => ?_,
    hm.writeBytes (by simpa using hfits.memory)⟩
  rw [afterEncodedBlock_pos hpos, afterEncodedBlock_wr hfits]
  exact ⟨hpos, by omega, hfits.capacity⟩

/-- Emitting blocks that cover no more than the source left keeps the parts of the encoder and of M. -/
theorem EncInv.emitBlocks {bs : List Instr} {s t : State} (h : EncInv s) (hm : MemInv s.mem s.draws)
    (hp : s.enc.phase = .iter) (hcov : s.enc.pos.toNat + covered bs ≤ s.enc.job.n.toNat)
    (ht : emitBlocks bs s = .next t) : EncInv t ∧ MemInv t.mem t.draws := by
  induction bs generalizing s with
  | nil =>
    cases ht
    exact ⟨h, hm⟩
  | cons b bs ih =>
    rw [covered_cons] at hcov
    have hpos : s.enc.pos.toNat + b.count ≤ s.enc.job.n.toNat := by omega
    rcases emitBlocks_cons_next ht with rfl | ⟨hfits, ht⟩
    · exact h.raiseFault hm (by simp [hp]) _
    · obtain ⟨h', hm'⟩ := h.afterEncodedBlock hm hp hfits hpos
      refine ih h' hm' hp ?_ ht
      rw [afterEncodedBlock_pos hpos, Nat.add_assoc]
      exact hcov

/-- A step of the encoder engine keeps the parts of the encoder and of M. -/
theorem EncInv.encStep {s t : State} (h : EncInv s) (hm : MemInv s.mem s.draws) (ht : encStep s = .next t) :
    EncInv t ∧ MemInv t.mem t.draws := by
  rcases encStep_cases ht with ⟨-, rfl⟩ | ⟨hp, -, rfl⟩ | ⟨hp, hcap, hmem, rfl⟩ | ⟨hp, hpos, ht⟩ | ⟨hp, -, rfl⟩
  · exact ⟨h, hm⟩
  · exact h.raiseFault hm (by simp [hp]) _
  · have hbusy : s.enc.phase ≠ .idle := by simp [hp]
    exact ⟨.of_running (h.status_of_busy hbusy) nofun (h.accepted hbusy) nofun
      fun _ => ⟨Nat.zero_le _, Nat.le_refl 4, hcap⟩, hm.writeBytes hmem⟩
  · have hcov := covered_iteration_le s.enc.maxblk.toNat s.sourceLeft
    rw [State.sourceLeft, readBytes_length] at hcov
    exact h.emitBlocks hm hp (by rw [State.sourceLeft]; omega) ht
  · obtain ⟨-, -, hwr⟩ := h.iterPhase hp
    have hdst := h.dst_inMemory (by simp [hp])
    refine ⟨.of_ended rfl rfl (.inl rfl), hm.unspecify ?_⟩
    simp only [Latched.dstWindow, Window.inMemory, State.job] at hdst ⊢
    omega

/-! ## The decoder -/

/-- The decoder's part speaks of its engine, its STATUS, LENMM, ERR_OFF, HDR_LEN and OUT_LEN only. -/
theorem DecInv.congr {s t : State} (h : DecInv s) (hst : t.decRegs.status = s.decRegs.status)
    (ho : t.decRegs.outLen = s.decRegs.outLen) (hl : t.lenmm = s.lenmm) (hh : t.hdrLen = s.hdrLen)
    (he : t.errOff = s.errOff) (hd : t.dec = s.dec) : DecInv t := by
  constructor <;> simp only [hst, ho, hl, hh, he, hd]
  exacts [h.exclusive, h.errDone, h.lenmmDone, h.lenmmMeans, h.errOff, h.busyPhase, h.accepted, h.hdrPhase, h.blkPhase]

theorem DecInv.status_of_busy {s : State} (h : DecInv s) (hp : s.dec.phase ≠ .idle) : s.decRegs.status = .started :=
  Status.eq_started (h.busyPhase.mpr hp) h.exclusive h.errDone

theorem DecInv.lenmm_of_busy {s : State} (h : DecInv s) (hp : s.dec.phase ≠ .idle) : s.lenmm = false := by
  refine Bool.eq_false_iff.mpr fun hl => ?_
  have := (h.status_of_busy hp).symm.trans (h.lenmmDone hl)
  cases this

theorem DecInv.errOff_of_busy {s : State} (h : DecInv s) (hp : s.dec.phase ≠ .idle) : s.errOff = 0#32 :=
  h.errOff (by rw [h.status_of_busy hp]; rfl)

theorem DecInv.dst_inMemory {s : State} (h : DecInv s) (hp : s.dec.phase ≠ .idle) :
    s.dec.job.dstWindow.inMemory :=
  of_not_not fun hout => h.accepted hp (.inr (.inl hout))

/-- An operation of the decoder that ended with an error has the decoder's part. -/
theorem DecInv.of_failed {t : State} {err : ErrCode} (hst : t.decRegs.status = .ended err) (herr : err ≠ .none)
    (hl : t.lenmm = false) (hp : t.dec.phase = .idle) : DecInv t := by
  constructor <;> simp [hst, herr, hl, hp, Status.ended]

/-- A decode that completed has the decoder's part if LENMM compares its lengths. -/
theorem DecInv.of_completed {t : State} (hst : t.decRegs.status = .ended .none)
    (hl : t.lenmm = true ↔ t.decRegs.outLen ≠ t.hdrLen) (he : t.errOff = 0#32) (hp : t.dec.phase = .idle) :
    DecInv t := by
  constructor <;> simp [hst, he, hp, Status.ended]
  simpa using hl

/-- An operation of the decoder in progress has the decoder's part if its windows and cursors have theirs. -/
theorem DecInv.of_running {t : State} (hst : t.decRegs.status = .started) (hl : t.lenmm = false)
    (he : t.errOff = 0#32) (hp : t.dec.phase ≠ .idle) (hacc : ¬ t.dec.configBad)
    (hhdr : t.dec.phase = .hdr → t.dec.rd = 0#32 ∧ t.dec.wr = 0#32 ∧ t.hdrLen = 0#32)
    (hblk : t.dec.phase = .blk →
      4 ≤ t.dec.rd.toNat ∧ t.dec.rd.toNat ≤ t.dec.job.n.toNat ∧ t.dec.wr.toNat ≤ t.dec.job.cap.toNat ∧
      t.hdrLen = t.dec.hdr) : DecInv t where
  exclusive := by simp [hst, Status.started]
  errDone := by simp [hst, Status.started]
  lenmmDone := by simp [hl]
  lenmmMeans := by simp [hst, Status.started, Status.ended]
  errOff _ := he
  busyPhase := by simp [hst, hp, Status.started]
  accepted _ := hacc
  hdrPhase := hhdr
  blkPhase := hblk

/-- A step of the decoder engine keeps the parts of the decoder and of M. -/
theorem DecInv.decStep {s t : State} (h : DecInv s) (hm : MemInv s.mem s.draws) (ht : decStep s = .next t) :
    DecInv t ∧ MemInv t.mem t.draws := by
  rcases decStep_cases ht with
    ⟨-, rfl⟩ | ⟨hp, err, off, herr, rfl⟩ | ⟨hp, hn, length, rfl⟩ | ⟨hp, i, hfits, rfl⟩ | ⟨hp, -, rfl⟩
  · exact ⟨h, hm⟩
  · exact ⟨.of_failed rfl herr rfl rfl, hm.unspecify (h.dst_inMemory hp)⟩
  · have hbusy : s.dec.phase ≠ .idle := by simp [hp]
    obtain ⟨-, hwr, -⟩ := h.hdrPhase hp
    refine ⟨.of_running (h.status_of_busy hbusy) (h.lenmm_of_busy hbusy) (h.errOff_of_busy hbusy) nofun
      (h.accepted hbusy) nofun fun _ => ⟨Nat.le_refl 4, hn, ?_, rfl⟩, hm⟩
    simp [State.afterHeader, hwr]
  · have hbusy : s.dec.phase ≠ .idle := by simp [hp]
    have hp' : (s.afterBlock i).dec.phase = .blk := hp
    obtain ⟨hrd, -, -, hlen⟩ := h.blkPhase hp
    refine ⟨.of_running (h.status_of_busy hbusy) (h.lenmm_of_busy hbusy) (h.errOff_of_busy hbusy) hbusy
      (h.accepted hbusy) (by simp [hp']) fun _ => ?_, hm.writeBytes (by simpa using hfits.memory)⟩
    rw [afterBlock_rd hfits, afterBlock_wr hfits]
    exact ⟨by omega, hfits.stream, hfits.capacity, hlen⟩
  · have hbusy : s.dec.phase ≠ .idle := by simp [hp]
    obtain ⟨-, -, hwr, hlen⟩ := h.blkPhase hp
    have hdst := h.dst_inMemory hbusy
    refine ⟨.of_completed rfl ?_ (h.errOff_of_busy hbusy) rfl, hm.unspecify ?_⟩
    · simp [decCompletion, hlen]
    · simp only [Latched.dstWindow, Window.inMemory, State.job] at hdst ⊢
      omega

/-! ## Moves of one engine -/

/-- A move of the encoder that keeps its part and M's, and does not wake it, keeps the invariant. -/
theorem Invariant.of_encoderMoved {s t : State} (hi : Invariant s) (hmoved : OnlyEncoderMoved s t)
    (hparts : EncInv t ∧ MemInv t.mem t.draws) (hwake : s.enc.phase = .idle → t.enc.phase = .idle) :
    Invariant t where
  memWf := hparts.2.wf
  drawn := hparts.2.drawn
  cfgReserved := hmoved.cfg ▸ hi.cfgReserved
  enc := hparts.1
  dec := hi.dec.congr (by rw [hmoved.decRegs]) (by rw [hmoved.decRegs]) hmoved.lenmm hmoved.hdrLen hmoved.errOff
    hmoved.dec
  apart he hd ho := by
    simp only [State.crossOverlap, hmoved.job, hmoved.dec] at ho hd
    rw [hmoved.refused]
    exact hi.apart (fun h => he (hwake h)) hd ho

/-- A move of the decoder that keeps its part and M's, and does not wake it, keeps the invariant. -/
theorem Invariant.of_decoderMoved {s t : State} (hi : Invariant s) (hmoved : OnlyDecoderMoved s t)
    (hparts : DecInv t ∧ MemInv t.mem t.draws) (hwake : s.dec.phase = .idle → t.dec.phase = .idle) :
    Invariant t where
  memWf := hparts.2.wf
  drawn := hparts.2.drawn
  cfgReserved := hmoved.cfg ▸ hi.cfgReserved
  enc := hi.enc.congr (by rw [hmoved.encRegs]) hmoved.enc
  dec := hparts.1
  apart he hd ho := by
    simp only [State.crossOverlap, hmoved.job, hmoved.enc] at ho he
    rw [hmoved.refused]
    exact hi.apart he (fun h => hd (hwake h)) ho

/-- A step of the encoder engine keeps the invariant. -/
theorem Invariant.encStep {s t : State} (hi : Invariant s) (ht : encStep s = .next t) : Invariant t :=
  hi.of_encoderMoved (encStep_onlyEncoderMoved ht) (hi.enc.encStep hi.memInv ht) fun hp => by
    rw [Machine.encStep, hp] at ht
    cases ht
    exact hp

/-- A step of the decoder engine keeps the invariant. -/
theorem Invariant.decStep {s t : State} (hi : Invariant s) (ht : decStep s = .next t) : Invariant t :=
  hi.of_decoderMoved (decStep_onlyDecoderMoved ht) (hi.dec.decStep hi.memInv ht) fun hp => by
    rw [Machine.decStep, hp] at ht
    cases ht
    exact hp

/-! ## Moves of the host that touch no operation -/

/-- From `s` to `t` no operation is touched: both engines, what their STATUS words show, LENMM, HDR_LEN, ERR_OFF and the
decoder's OUT_LEN are as before, and the refused mark is not cleared. -/
structure OperationsUntouched (s t : State) : Prop where
  enc : t.enc = s.enc
  encStatus : t.encRegs.status = s.encRegs.status
  dec : t.dec = s.dec
  decStatus : t.decRegs.status = s.decRegs.status
  decOutLen : t.decRegs.outLen = s.decRegs.outLen
  lenmm : t.lenmm = s.lenmm
  hdrLen : t.hdrLen = s.hdrLen
  errOff : t.errOff = s.errOff
  refused : s.refused = true → t.refused = true

/-- A move that touches no operation keeps the invariant if it keeps M's part and the reserved bits of CFG. -/
theorem Invariant.of_operationsUntouched {s t : State} (hi : Invariant s) (hu : OperationsUntouched s t)
    (hm : MemInv t.mem t.draws) (hcfg : t.cfg &&& ~~~cfgMask = 0#32) : Invariant t where
  memWf := hm.wf
  drawn := hm.drawn
  cfgReserved := hcfg
  enc := hi.enc.congr hu.encStatus hu.enc
  dec := hi.dec.congr hu.decStatus hu.decOutLen hu.lenmm hu.hdrLen hu.errOff hu.dec
  apart he hd ho := by
    simp only [State.crossOverlap, hu.enc, hu.dec] at he hd ho
    exact hu.refused (hi.apart he hd ho)

/-- Taking the head off the agenda keeps the invariant. -/
theorem Invariant.popped {s : State} (hi : Invariant s) : Invariant s.popped :=
  hi.of_operationsUntouched ⟨rfl, rfl, rfl, rfl, rfl, rfl, rfl, rfl, id⟩ hi.memInv hi.cfgReserved

/-- Setting the refused mark keeps the invariant. -/
theorem Invariant.refuse {s : State} (hi : Invariant s) : Invariant { s with refused := true } :=
  hi.of_operationsUntouched ⟨rfl, rfl, rfl, rfl, rfl, rfl, rfl, rfl, fun _ => rfl⟩ hi.memInv hi.cfgReserved

/-- The answer of a host read keeps the invariant. -/
theorem Invariant.answer {s : State} (hi : Invariant s) (r : Response) :
    Invariant { s with response := r, draws := s.draws + 1 } :=
  hi.of_operationsUntouched ⟨rfl, rfl, rfl, rfl, rfl, rfl, rfl, rfl, id⟩ hi.memInv.nextDraw hi.cfgReserved

/-- A write of CFG leaves its reserved bits 0 (41_control.md R130). -/
theorem cfgMask_reserved (value : Word) : value &&& cfgMask &&& ~~~cfgMask = 0#32 := by
  rw [BitVec.and_assoc, BitVec.and_not_self]
  exact BitVec.and_zero

/-! ## START commands -/

/-- An encode START that passed its checks keeps the invariant, if the mark is set where the windows overlap those of a
busy decoder (20_memory.md R85). -/
theorem Invariant.encBegin {s : State} (hi : Invariant s) (hacc : ¬ s.encLatch.enc.configBad) (mark : Bool)
    (hmark : s.dec.phase ≠ .idle → s.encLatch.crossOverlap → mark = true) :
    Invariant { s.encLatch.encBegin with refused := mark } where
  memWf := hi.memWf
  drawn := hi.drawn
  cfgReserved := hi.cfgReserved
  enc := .of_running rfl nofun hacc (fun _ => ⟨rfl, rfl⟩) nofun
  dec := hi.dec.congr rfl rfl rfl rfl rfl rfl
  apart _ hd ho := hmark hd ho

/-- A decode START that passed its checks keeps the invariant, if the mark is set where the windows overlap those of a
busy encoder (20_memory.md R85). -/
theorem Invariant.decBegin {s : State} (hi : Invariant s) (hacc : ¬ s.decLatch.dec.configBad) (mark : Bool)
    (hmark : s.enc.phase ≠ .idle → s.decLatch.crossOverlap → mark = true) :
    Invariant { s.decLatch.decBegin with refused := mark } where
  memWf := hi.memWf
  drawn := hi.drawn
  cfgReserved := hi.cfgReserved
  enc := hi.enc.congr rfl rfl
  dec := .of_running rfl rfl rfl nofun hacc (fun _ => ⟨rfl, rfl, rfl⟩) nofun
  apart he _ ho := hmark he ho

/-- An encode START keeps the invariant. -/
theorem Invariant.encStart {s : State} (hi : Invariant s) : Invariant s.encStart := by
  rcases encStart_cases s with ⟨-, h⟩ | ⟨-, -, h⟩ | ⟨-, hok, ⟨-, -, h⟩ | ⟨hno, h⟩⟩ <;> rw [h]
  · exact hi
  · exact
      { memWf := hi.memWf
        drawn := hi.drawn
        cfgReserved := hi.cfgReserved
        enc := .of_ended rfl rfl (.inr (.inr rfl))
        dec := hi.dec.congr rfl rfl rfl rfl rfl rfl
        apart := fun he => absurd rfl he }
  · exact hi.encBegin hok true fun _ _ => rfl
  · exact hi.encBegin hok s.refused fun hd ho => absurd ⟨hi.dec.busyPhase.mpr hd, ho⟩ hno

/-- A decode START keeps the invariant. -/
theorem Invariant.decStart {s : State} (hi : Invariant s) : Invariant s.decStart := by
  rcases decStart_cases s with ⟨-, h⟩ | ⟨-, -, h⟩ | ⟨-, hok, ⟨-, -, h⟩ | ⟨hno, h⟩⟩ <;> rw [h]
  · exact hi
  · exact
      { memWf := hi.memWf
        drawn := hi.drawn
        cfgReserved := hi.cfgReserved
        enc := hi.enc.congr rfl rfl
        dec := .of_failed rfl nofun rfl rfl
        apart := fun _ hd => absurd rfl hd }
  · exact hi.decBegin hok true fun _ _ => rfl
  · exact hi.decBegin hok s.refused fun he ho => absurd ⟨hi.enc.busyPhase.mpr he, ho⟩ hno

/-! ## Accesses of the host -/

/-- A write of an implemented register keeps the invariant: a CTRL register may start its engine, a RW register is an
operand that no operation reads, a RO register ignores the write. -/
theorem Invariant.writeReg {s : State} (hi : Invariant s) (r : Reg) (value : Word) :
    Invariant (s.writeReg r value) := by
  cases r with
  | cfg =>
    exact hi.of_operationsUntouched ⟨rfl, rfl, rfl, rfl, rfl, rfl, rfl, rfl, id⟩ hi.memInv (cfgMask_reserved value)
  | encCtrl =>
    simp only [State.writeReg]
    split
    · exact hi.encStart
    · exact hi
  | decCtrl =>
    simp only [State.writeReg]
    split
    · exact hi.decStart
    · exact hi
  | _ => exact hi.of_operationsUntouched ⟨rfl, rfl, rfl, rfl, rfl, rfl, rfl, rfl, id⟩ hi.memInv hi.cfgReserved

/-- A host register write keeps the invariant. -/
theorem Invariant.hostRegWrite {s : State} (hi : Invariant s) (width : AccessWidth) (offset : Nat) (value : Word) :
    Invariant (s.hostRegWrite width offset value) := by
  rcases hostRegWrite_cases s width offset value with ⟨-, h⟩ | ⟨-, r, -, h⟩ | ⟨-, -, h⟩ <;> rw [h]
  · exact hi.refuse
  · exact hi.writeReg r value
  · exact hi

/-- A host register read keeps the invariant. -/
theorem Invariant.hostRegRead {s : State} (hi : Invariant s) (width : AccessWidth) (offset : Nat) :
    Invariant (s.hostRegRead width offset) := by
  unfold State.hostRegRead
  split
  · exact hi.answer _
  · exact hi.refuse

/-- A host write of M keeps the invariant. -/
theorem Invariant.hostMemWrite {s t : State} {a : Nat} {bytes : List Byte} (hi : Invariant s)
    (h : s.hostMemWrite a bytes = .next t) : Invariant t := by
  obtain ⟨hle, ⟨-, rfl⟩ | ⟨-, rfl⟩⟩ := hostMemWrite_cases h
  · exact hi.refuse
  · exact hi.of_operationsUntouched ⟨rfl, rfl, rfl, rfl, rfl, rfl, rfl, rfl, id⟩ (hi.memInv.writeBytes hle)
      hi.cfgReserved

/-! ## The reset input -/

@[simp] theorem abandon_busy (s : State) (e f : Engine) : (s.abandon e).busy f = s.busy f := by
  unfold State.abandon
  split <;> cases f <;> rfl

@[simp] theorem abandon_job (s : State) (e f : Engine) : (s.abandon e).job f = s.job f := by
  unfold State.abandon
  split <;> cases f <;> rfl

/-- Abandoning an operation keeps M's part, if a busy engine's DST window lies in M. -/
theorem MemInv.abandon {s : State} {e : Engine} (hm : MemInv s.mem s.draws)
    (hw : s.busy e = true → (s.job e).dstWindow.inMemory) : MemInv (s.abandon e).mem (s.abandon e).draws := by
  unfold State.abandon
  split
  · exact hm.unspecify (hw (by assumption))
  · exact hm

/-- A busy engine's DST window lies in M (20_memory.md R72). -/
theorem Invariant.dst_inMemory {s : State} (hi : Invariant s) {e : Engine} (hb : s.busy e = true) :
    (s.job e).dstWindow.inMemory := by
  cases e with
  | enc => exact hi.enc.dst_inMemory (hi.enc.busyPhase.mp hb)
  | dec => exact hi.dec.dst_inMemory (hi.dec.busyPhase.mp hb)

/-- The encoder's part holds of the idle encoder that reset leaves. -/
theorem encInv_reset : EncInv State.reset := by constructor <;> decide

/-- The decoder's part holds of the idle decoder that reset leaves. -/
theorem decInv_reset : DecInv State.reset := by constructor <;> decide

/-- The reset input keeps the invariant. -/
theorem Invariant.applyReset {s : State} (hi : Invariant s) : Invariant s.applyReset := by
  have henc : MemInv (s.abandon .enc).mem (s.abandon .enc).draws := hi.memInv.abandon hi.dst_inMemory
  have hmem : MemInv s.applyReset.mem s.applyReset.draws :=
    henc.abandon fun hb => by
      rw [abandon_busy] at hb
      rw [abandon_job]
      exact hi.dst_inMemory hb
  exact
    { memWf := hmem.wf
      drawn := hmem.drawn
      cfgReserved := (by decide : State.reset.cfg &&& ~~~cfgMask = 0#32)
      enc := encInv_reset.congr rfl rfl
      dec := decInv_reset.congr rfl rfl rfl rfl rfl rfl
      apart := fun he => absurd rfl he }

/-! ## Every step -/

/-- Every event keeps the invariant. -/
theorem Invariant.runEvent {event : Event} {s t : State} (hi : Invariant s) (h : runEvent event s = .next t) :
    Invariant t := by
  cases event with
  | regWrite width offset value =>
    cases h
    exact hi.hostRegWrite width offset value
  | regRead width offset =>
    cases h
    exact hi.hostRegRead width offset
  | memWrite addr bytes => exact hi.hostMemWrite h
  | memRead addr len =>
    rw [hostMemRead_next h]
    exact hi.answer _
  | reset =>
    cases h
    exact hi.applyReset
  | encStep => exact hi.encStep h
  | decStep => exact hi.decStep h

/-- Settles O56: a step runs an event from the popped agenda, or a step of an engine, or changes nothing. -/
theorem stepKeepsInvariant : Obligations.StepKeepsInvariant := by
  unfold Obligations.StepKeepsInvariant
  intro s t hi h
  rcases (step_cases h).2 with ⟨event, rest, -, h⟩ | ⟨-, -, h⟩ | ⟨-, -, -, h⟩ | ⟨-, -, -, rfl⟩
  · exact hi.popped.runEvent h
  · exact hi.decStep h
  · exact hi.encStep h
  · exact hi

end Sys2Proof.Machine
end

section
/-! PROOFS. What a step of an engine reads: its own engine state and the bytes of its SRC window. From states that agree
on these, the engine makes the same move (20_memory.md R73, R74). -/

namespace Sys2Proof.Machine

/-! ## The decoder -/

/-- The decoder sees the same in `s'` as in `s`: its engine state and the bytes of its SRC window. -/
structure SameForDecoder (s s' : State) : Prop where
  dec : s'.dec = s.dec
  source : ∀ a, s.dec.job.srcWindow.contains a → s'.mem.read a = s.mem.read a

/-- What a step of a busy decoder does to the state. -/
inductive DecMove where
  | fault (err : ErrCode) (off : Word)
  | header (length : Word)
  | block (i : Instr)
  | completion

/-- The state after a move of the decoder. -/
def DecMove.apply (s : State) : DecMove → State
  | .fault err off => s.raiseFault .dec err off
  | .header length => s.afterHeader length
  | .block i => s.afterBlock i
  | .completion => decCompletion s

/-- A move whose block, if it decodes one, fits. -/
def DecMove.Fits (s : State) : DecMove → Prop
  | .block i => BlockFits s i
  | .fault _ _ | .header _ | .completion => True

/-- Whether a block fits depends on the engine state of the decoder only. -/
theorem BlockFits.congr {s s' : State} {i : Instr} (h : BlockFits s i) (hdec : s'.dec = s.dec) : BlockFits s' i :=
  ⟨h.position, hdec ▸ h.stream, hdec ▸ h.capacity, hdec ▸ h.memory⟩

theorem DecMove.Fits.congr {move : DecMove} {s s' : State} (h : move.Fits s) (hdec : s'.dec = s.dec) :
    move.Fits s' := by
  cases move with
  | block i => exact BlockFits.congr h hdec
  | fault err off => trivial
  | header length => trivial
  | completion => trivial

/-- A block that fits completes. -/
theorem exec_of_fits {s : State} {i : Instr} (h : BlockFits s i) : exec i s = .next (s.afterBlock i) := by
  obtain ⟨hp, hn, hcap, hmem⟩ := h
  rcases decodeBlockInto_cases (exec_block hp s).symm with ⟨h, -⟩ | ⟨-, h, -⟩ | ⟨-, -, h, -⟩ | ⟨-, -, -, h⟩
  · omega
  · omega
  · omega
  · exact h

/-- Whether an instruction faults or completes depends on the engine state of the decoder only. -/
theorem exec_congr {i : Instr} {s s' t : State} (hdec : s'.dec = s.dec) (h : exec i s = .next t) :
    ∃ move : DecMove, move.Fits s ∧ t = move.apply s ∧ exec i s' = .next (move.apply s') := by
  cases hp : i.position with
  | header =>
    obtain ⟨length, rfl⟩ := header_eq_hdr hp
    rcases execHdr_cases h with ⟨hn, h⟩ | ⟨hn, h⟩ <;> cases h
    · exact ⟨.fault .truncated 0#32, trivial, rfl, if_pos (by rw [hdec]; exact hn)⟩
    · exact ⟨.header length, trivial, rfl, if_neg (by rw [hdec]; omega)⟩
  | block =>
    rw [exec_block hp] at h
    rcases decodeBlockInto_cases h with ⟨hn, h⟩ | ⟨hn, hcap, h⟩ | ⟨-, -, -, h⟩ | ⟨hn, hcap, hmem, h⟩ <;> cases h
    · refine ⟨.fault .truncated s.dec.rd, trivial, rfl, ?_⟩
      rw [exec_block hp, State.decodeBlockInto, hdec, if_pos hn]
      rfl
    · refine ⟨.fault .overflow s.dec.rd, trivial, rfl, ?_⟩
      rw [exec_block hp, State.decodeBlockInto, hdec, if_neg (by omega), if_pos hcap]
      rfl
    · have hfits : BlockFits s i := ⟨hp, hn, hcap, hmem⟩
      exact ⟨.block i, hfits, rfl, exec_of_fits (hfits.congr hdec)⟩

/-- The decoder fetches bytes of its SRC window only. -/
theorem fetch_congr {s s' : State} (hsame : SameForDecoder s s') : s'.fetch = s.fetch := by
  have hbytes : s'.mem.readBytes (s.dec.job.src.toNat + s.dec.offset)
        (min (s.dec.job.n.toNat - s.dec.offset) longestElement) =
      s.mem.readBytes (s.dec.job.src.toNat + s.dec.offset)
        (min (s.dec.job.n.toNat - s.dec.offset) longestElement) :=
    readBytes_congr fun a hlo hhi => hsame.source a (by
      simp only [Latched.srcWindow, Window.contains]
      omega)
  simp only [State.fetch, Memory.load, hsame.dec, hbytes]

/-- A header or block step makes the same move wherever the decoder sees the same. -/
theorem decElementStep_congr {s s' t : State} (hsame : SameForDecoder s s') (h : decElementStep s = .next t) :
    ∃ move : DecMove, move.Fits s ∧ t = move.apply s ∧ decElementStep s' = .next (move.apply s') := by
  unfold decElementStep at h ⊢
  rw [fetch_congr hsame, hsame.dec]
  cases hfetch : s.fetch with
  | none => simp [hfetch] at h
  | some bytes =>
    cases hdecode : decodeAt s.dec.position bytes with
    | error e =>
      simp only [hfetch, hdecode] at h
      cases h
      exact ⟨.fault (errOf e) (Word.ofNat s.dec.offset), trivial, rfl, by simp only [hdecode]; rfl⟩
    | ok r =>
      simp only [hfetch, hdecode] at h ⊢
      exact exec_congr hsame.dec h

/-- A step of the busy decoder makes the same move wherever the decoder sees the same. -/
theorem decStep_congr {s s' t : State} (hsame : SameForDecoder s s') (hbusy : s.dec.phase ≠ .idle)
    (h : decStep s = .next t) :
    ∃ move : DecMove, move.Fits s ∧ t = move.apply s ∧ decStep s' = .next (move.apply s') := by
  unfold decStep at h ⊢
  rw [hsame.dec]
  cases hp : s.dec.phase with
  | idle => exact absurd hp hbusy
  | hdr =>
    simp only [hp] at h ⊢
    exact decElementStep_congr hsame h
  | blk =>
    simp only [hp] at h ⊢
    split at h
    · rename_i hrd
      simp only [if_pos hrd]
      exact decElementStep_congr hsame h
    · rename_i hrd
      cases h
      exact ⟨.completion, trivial, rfl, if_neg hrd⟩

/-! ## The encoder -/

/-- The encoder sees the same in `s'` as in `s`: its engine state and the bytes of its SRC window. -/
structure SameForEncoder (s s' : State) : Prop where
  enc : s'.enc = s.enc
  source : ∀ a, s.enc.job.srcWindow.contains a → s'.mem.read a = s.mem.read a

/-- What a step of a busy encoder is to do: write the header, write the blocks of one iteration, or complete. -/
inductive EncTask where
  | header
  | blocks (bs : List Instr)
  | completion

/-- The encoder does a task. -/
def EncTask.run (s : State) : EncTask → Host.Outcome State Fault Refusal
  | .header => encHeaderStep s
  | .blocks bs => emitBlocks bs s
  | .completion => .next (s.complete .enc s.enc.wr)

/-- The encoder reads bytes of its SRC window only. -/
theorem remainingSource_congr {s s' : State} (hsame : SameForEncoder s s') :
    s'.remainingSource = s.remainingSource := by
  have hbytes : s'.mem.readBytes (s.enc.job.src.toNat + s.enc.pos.toNat) (s.enc.job.n.toNat - s.enc.pos.toNat) =
      s.mem.readBytes (s.enc.job.src.toNat + s.enc.pos.toNat) (s.enc.job.n.toNat - s.enc.pos.toNat) :=
    readBytes_congr fun a hlo hhi => hsame.source a (by
      simp only [Latched.srcWindow, Window.contains]
      omega)
  simp only [State.remainingSource, Memory.load, hsame.enc, hbytes]

/-- A step of the busy encoder has the same task wherever the encoder sees the same. -/
theorem encStep_congr {s s' t : State} (hsame : SameForEncoder s s') (hbusy : s.enc.phase ≠ .idle)
    (h : encStep s = .next t) : ∃ task : EncTask, task.run s = .next t ∧ encStep s' = task.run s' := by
  unfold encStep at h ⊢
  rw [hsame.enc]
  cases hp : s.enc.phase with
  | idle => exact absurd hp hbusy
  | hdr =>
    simp only [hp] at h
    exact ⟨.header, h, rfl⟩
  | iter =>
    simp only [hp] at h ⊢
    split at h
    · rename_i hpos
      unfold encIterationStep at h ⊢
      rw [remainingSource_congr hsame, hsame.enc, if_pos hpos]
      cases hsource : s.remainingSource with
      | none => simp [hsource] at h
      | some rest =>
        simp only [hsource] at h
        exact ⟨.blocks (iteration s.enc.maxblk.toNat rest), h, rfl⟩
    · rename_i hpos
      refine ⟨.completion, h, ?_⟩
      rw [if_neg hpos, ← hsame.enc]
      rfl

/-- A header that fits is written. -/
theorem encHeaderStep_of_fits {s : State} (hcap : 4 ≤ s.enc.job.cap.toNat)
    (hmem : s.enc.job.dst.toNat + 4 ≤ Config.memSize) : encHeaderStep s = .next s.afterEncodedHeader := by
  rcases encHeaderStep_cases (s := s) rfl with ⟨h, -⟩ | ⟨-, h, -⟩ | ⟨-, -, h⟩
  · omega
  · omega
  · exact h

/-- A block that fits is written, and the next one has its turn. -/
theorem emitBlocks_cons_of_fits {b : Instr} {bs : List Instr} {s : State} (h : EncodingFits s b) :
    emitBlocks (b :: bs) s = emitBlocks bs (s.afterEncodedBlock b) := by
  obtain ⟨hcap, hmem⟩ := h
  rcases emitBlocks_cons_cases (b := b) (bs := bs) (s := s) rfl with ⟨h, -⟩ | ⟨-, h, -⟩ | ⟨-, -, h⟩
  · omega
  · omega
  · exact h

/-- A block that does not fit the capacity ends the operation. -/
theorem emitBlocks_cons_of_overflow {b : Instr} {bs : List Instr} {s : State}
    (h : s.enc.job.cap.toNat < s.enc.wr.toNat + b.length) :
    emitBlocks (b :: bs) s = .next (s.raiseFault .enc .overflow 0#32) := by
  rw [emitBlocks, encode_length, if_pos h]

end Sys2Proof.Machine
end

section
/-! PROOFS. Steps of the two engines commute while neither ends: each moves its own engine and writes its own DST window,
which meets no window of the other (20_memory.md R73, R85, 70_reset_and_hazards.md R270). -/

namespace Sys2Proof.Machine

/-! ## Windows apart -/

/-- Windows that do not meet share no address. -/
theorem not_contains_of_not_meets {v w : Window} (h : ¬ v.meets w) {a : Nat} (hv : v.contains a) : ¬ w.contains a := by
  intro hw
  simp only [Window.meets, Window.contains] at *
  omega

/-- Writes inside windows that do not meet commute. -/
theorem writeBytes_comm_of_windows {m : Memory} {v w : Window} {a b : Nat} {xs ys : List Byte} (hm : m.wf)
    (hv : v.inMemory) (hw : w.inMemory) (hapart : ¬ v.meets w) (hxs : (⟨a, xs.length⟩ : Window).within v)
    (hys : (⟨b, ys.length⟩ : Window).within w) :
    (m.writeBytes a xs).writeBytes b ys = (m.writeBytes b ys).writeBytes a xs := by
  simp only [Window.meets, Window.within, Window.inMemory] at *
  refine writeBytes_comm hm (by omega) (by omega) ?_
  simp only [← List.length_eq_zero_iff]
  omega

/-- The DST windows of both engines lie in M and do not meet. -/
structure OutputsApart (s : State) : Prop where
  enc : s.enc.job.dstWindow.inMemory
  dec : s.dec.job.dstWindow.inMemory
  apart : ¬ s.enc.job.dstWindow.meets s.dec.job.dstWindow

/-! ## Writes of the encoder and moves of the decoder -/

/-- A move after which the decoder goes on. -/
def DecMove.GoesOn : DecMove → Prop
  | .header _ | .block _ => True
  | .fault _ _ | .completion => False

/-- A decoder that is not idle after a move goes on. -/
theorem DecMove.goesOn_of_busy {move : DecMove} {s : State} (h : (move.apply s).dec.phase ≠ .idle) : move.GoesOn := by
  cases move with
  | header length => trivial
  | block i => trivial
  | fault err off => exact h rfl
  | completion => exact h rfl

/-- A move of the decoder leaves the encoder as it is. -/
theorem DecMove.apply_enc (move : DecMove) (s : State) : (move.apply s).enc = s.enc := by cases move <;> rfl

/-- A block that fits is written inside the decoder's DST window. -/
theorem BlockFits.within {s : State} {i : Instr} (h : BlockFits s i) :
    (⟨s.dec.job.dst.toNat + s.dec.wr.toNat, i.expand.length⟩ : Window).within s.dec.job.dstWindow := by
  have := h.capacity
  simp only [Window.within, Latched.dstWindow, expand_length]
  omega

/-- A block whose encoding fits is written inside the encoder's DST window. -/
theorem EncodingFits.within {s : State} {b : Instr} (h : EncodingFits s b) :
    (⟨s.enc.job.dst.toNat + s.enc.wr.toNat, (encode b).length⟩ : Window).within s.enc.job.dstWindow := by
  have := h.capacity
  simp only [Window.within, Latched.dstWindow, encode_length]
  omega

/-- A write of the encoder inside its DST window commutes with a move after which the decoder goes on. -/
theorem DecMove.apply_encoderWrite {move : DecMove} {s : State} (hm : s.mem.wf) (hapart : OutputsApart s)
    (hfits : move.Fits s) (hgo : move.GoesOn) {a : Nat} {bytes : List Byte} (enc : EncEngine)
    (hin : (⟨a, bytes.length⟩ : Window).within s.enc.job.dstWindow) :
    move.apply { s with mem := s.mem.writeBytes a bytes, enc := enc } =
      { move.apply s with mem := (move.apply s).mem.writeBytes a bytes, enc := enc } := by
  cases move with
  | fault err off => exact hgo.elim
  | completion => exact hgo.elim
  | header length => rfl
  | block i =>
    simp only [DecMove.apply, State.afterBlock]
    rw [writeBytes_comm_of_windows hm hapart.enc hapart.dec hapart.apart hin (BlockFits.within hfits)]

/-- Emitting blocks commutes with a move after which the decoder goes on, if the encoder goes on too. -/
theorem emitBlocks_decMove {move : DecMove} {bs : List Instr} {s a : State} (hm : s.mem.wf) (hapart : OutputsApart s)
    (hfits : move.Fits s) (hgo : move.GoesOn) (h : emitBlocks bs s = .next a) (hbusy : a.enc.phase ≠ .idle) :
    emitBlocks bs (move.apply s) = .next (move.apply a) := by
  induction bs generalizing s with
  | nil =>
    cases h
    rfl
  | cons b bs ih =>
    rcases emitBlocks_cons_next h with rfl | ⟨hb, h⟩
    · exact absurd rfl hbusy
    · have hb' : EncodingFits (move.apply s) b := by
        constructor <;> rw [DecMove.apply_enc]
        exacts [hb.capacity, hb.memory]
      have hcomm : (move.apply s).afterEncodedBlock b = move.apply (s.afterEncodedBlock b) := by
        simp only [State.afterEncodedBlock, State.appendEncoded]
        rw [DecMove.apply_encoderWrite hm hapart hfits hgo _ hb.within, DecMove.apply_enc]
      rw [emitBlocks_cons_of_fits hb', hcomm]
      refine ih (writeBytes_wf hm (by simpa using hb.memory)) ⟨hapart.enc, hapart.dec, hapart.apart⟩ (hfits.congr rfl) h

/-- Writing the header commutes with a move after which the decoder goes on. -/
theorem encHeaderStep_decMove {move : DecMove} {s a : State} (hm : s.mem.wf) (hapart : OutputsApart s)
    (hfits : move.Fits s) (hgo : move.GoesOn) (h : encHeaderStep s = .next a) (hbusy : a.enc.phase ≠ .idle) :
    encHeaderStep (move.apply s) = .next (move.apply a) := by
  rcases encHeaderStep_cases h with ⟨-, h⟩ | ⟨-, -, h⟩ | ⟨hcap, hmem, h⟩ <;> cases h
  · exact absurd rfl hbusy
  · have hin : (⟨s.enc.job.dst.toNat, (enc32 s.enc.job.n).length⟩ : Window).within s.enc.job.dstWindow := by
      simp only [Window.within, Latched.dstWindow, enc32_length]
      omega
    rw [encHeaderStep_of_fits (by rw [DecMove.apply_enc]; exact hcap) (by rw [DecMove.apply_enc]; exact hmem),
      DecMove.apply_encoderWrite hm hapart hfits hgo _ hin, State.afterEncodedHeader, DecMove.apply_enc]

/-- A task after which the encoder goes on commutes with a move after which the decoder goes on. -/
theorem EncTask.run_decMove {task : EncTask} {move : DecMove} {s a : State} (hm : s.mem.wf) (hapart : OutputsApart s)
    (hfits : move.Fits s) (hgo : move.GoesOn) (h : task.run s = .next a) (hbusy : a.enc.phase ≠ .idle) :
    task.run (move.apply s) = .next (move.apply a) := by
  cases task with
  | header => exact encHeaderStep_decMove hm hapart hfits hgo h hbusy
  | blocks bs => exact emitBlocks_decMove hm hapart hfits hgo h hbusy
  | completion =>
    cases h
    exact absurd rfl hbusy

/-- Two busy engines of a safe state have windows apart (20_memory.md R85). -/
theorem Safe.not_crossOverlap {s : State} (hs : Safe s) (he : s.enc.phase ≠ .idle) (hd : s.dec.phase ≠ .idle) :
    ¬ s.crossOverlap := fun ho => by simpa [hs.meaningful] using hs.inv.apart he hd ho

/-- Settles O25: neither engine writes what the other reads, so each makes the same move in either order, and the two
moves commute. -/
theorem engineStepsCommute : Obligations.EngineStepsCommute := by
  unfold Obligations.EngineStepsCommute
  intro s a b hs he hd ha habusy hb hbbusy
  have hover := hs.not_crossOverlap he hd
  have hapart : OutputsApart s :=
    ⟨hs.inv.enc.dst_inMemory he, hs.inv.dec.dst_inMemory hd, fun h => hover (.inr (.inl h))⟩
  have hdecSees : SameForDecoder s a :=
    ⟨(encStep_onlyEncoderMoved ha).dec, fun x hx => (encStep_onlyEncoderMoved ha).mem x fun hdst =>
      not_contains_of_not_meets (fun h => hover (.inl h)) hdst hx⟩
  have hencSees : SameForEncoder s b :=
    ⟨(decStep_onlyDecoderMoved hb).enc, fun x hx => (decStep_onlyDecoderMoved hb).mem x fun hdst =>
      not_contains_of_not_meets (fun h => hover (.inr (.inr h))) hdst hx⟩
  obtain ⟨move, hfits, rfl, hdec⟩ := decStep_congr hdecSees hd hb
  obtain ⟨task, hrun, henc⟩ := encStep_congr hencSees he ha
  exact ⟨move.apply a, hdec,
    henc.trans (task.run_decMove hs.inv.memWf hapart hfits (DecMove.goesOn_of_busy hbbusy) hrun habusy)⟩

end Sys2Proof.Machine
end

section
/-! PROOFS. What an engine leaves alone and what it does not read: the frame of its steps and of its instructions, and
that bytes outside its SRC window do not matter (20_memory.md R73, 60_exceptions.md R242). -/

namespace Sys2Proof.Machine

/-! ## The frame -/

/-- Settles O23: the turn is a step of the engine from the popped state. -/
theorem engineStepsStayInside : Obligations.EngineStepsStayInside := by
  unfold Obligations.EngineStepsStayInside
  intro s t
  constructor
  · intro hturn h
    rw [step_decTurn hturn] at h
    exact decStep_onlyDecoderMoved h
  · intro hturn h
    rw [step_encTurn hturn] at h
    exact encStep_onlyEncoderMoved h

theorem raiseFault_onlyDecoderMoved (s : State) (err : ErrCode) (off : Word) :
    OnlyDecoderMoved s (s.raiseFault .dec err off) :=
  ⟨rfl, rfl, rfl, rfl, rfl, rfl, rfl, rfl, fun _ ha => read_unspecify_outside _ ha⟩

theorem afterHeader_onlyDecoderMoved (s : State) (length : Word) : OnlyDecoderMoved s (s.afterHeader length) :=
  ⟨rfl, rfl, rfl, rfl, rfl, rfl, rfl, rfl, fun _ _ => rfl⟩

theorem afterBlock_onlyDecoderMoved {s : State} {i : Instr} (h : BlockFits s i) :
    OnlyDecoderMoved s (s.afterBlock i) := by
  refine ⟨rfl, rfl, rfl, rfl, rfl, rfl, rfl, rfl, fun a ha => read_writeBytes_outside _ ?_⟩
  have hwithin := h.within
  simp only [Window.within, Window.contains] at ha hwithin
  omega

/-- Settles O10: an instruction takes a fault entry or completes, and each has its frame. -/
theorem instructionFrame : Obligations.InstructionFrame := by
  unfold Obligations.InstructionFrame
  intro i s t h
  rcases exec_cases h with ⟨err, off, -, rfl⟩ | ⟨hp, -, length, rfl⟩ | ⟨hfits, rfl⟩
  · exact ⟨raiseFault_onlyDecoderMoved s err off, rfl, fun hbusy => absurd rfl hbusy, fun _ => ⟨rfl, rfl⟩⟩
  · exact ⟨afterHeader_onlyDecoderMoved s length, rfl, fun _ => ⟨rfl, rfl, rfl, rfl⟩, fun hblock => by
      simp [hp] at hblock⟩
  · exact ⟨afterBlock_onlyDecoderMoved hfits, rfl, fun _ => ⟨rfl, rfl, rfl, rfl⟩, fun _ => ⟨rfl, rfl⟩⟩

/-! ## Another memory -/

/-- A byte that was the same in two memories is the same after one write to both. -/
theorem read_writeBytes_congr {m m' : Memory} {x : Nat} (a : Nat) (bytes : List Byte) (h : m.read x = m'.read x) :
    (m.writeBytes a bytes).read x = (m'.writeBytes a bytes).read x := by
  by_cases hx : x < a ∨ a + bytes.length ≤ x
  · rw [read_writeBytes_outside m hx, read_writeBytes_outside m' hx, h]
  · obtain ⟨k, rfl⟩ : ∃ k, x = a + k := ⟨x - a, by omega⟩
    rw [read_writeBytes_inside m (by omega), read_writeBytes_inside m' (by omega)]

/-- A byte that was the same in two memories is the same after one draw for a window of both. -/
theorem read_unspecify_congr {m m' : Memory} {x : Nat} (w : Window) (d : Nat) (h : m.read x = m'.read x) :
    (m.unspecify w d).read x = (m'.unspecify w d).read x := by
  by_cases hx : w.contains x
  · rw [read_unspecify_inside m hx, read_unspecify_inside m' hx]
  · rw [read_unspecify_outside m hx, read_unspecify_outside m' hx, h]

/-- An idle decoder takes no step (42_decoder.md R151). -/
theorem decStep_of_idle {s : State} (h : s.dec.phase = .idle) : decStep s = .next s := by rw [decStep, h]

/-- An idle encoder takes no step (43_encoder.md R202). -/
theorem encStep_of_idle {s : State} (h : s.enc.phase = .idle) : encStep s = .next s := by rw [encStep, h]

/-- With memory `m` in place of that of `s` the outcome is `t` but for its memory, and a byte that was the same before is
the same after. -/
def FollowsWith (s : State) (m : Memory) (t : State) (outcome : Host.Outcome State Fault Refusal) : Prop :=
  ∃ m', outcome = .next { t with mem := m' } ∧ ∀ a, m.read a = s.mem.read a → m'.read a = t.mem.read a

/-- A move of the decoder does the same with another memory. -/
theorem DecMove.followsWith (move : DecMove) (s : State) (m : Memory) :
    FollowsWith s m (move.apply s) (.next (move.apply { s with mem := m })) := by
  cases move with
  | fault err off => exact ⟨_, rfl, fun _ => read_unspecify_congr _ _⟩
  | header length => exact ⟨_, rfl, fun _ => id⟩
  | block i => exact ⟨_, rfl, fun _ => read_writeBytes_congr _ _⟩
  | completion => exact ⟨_, rfl, fun _ => read_unspecify_congr _ _⟩

/-- A step of the decoder does the same with another memory that agrees on its SRC window. -/
theorem decStep_followsWith {s t : State} {m : Memory}
    (hsource : ∀ a, s.dec.job.srcWindow.contains a → m.read a = s.mem.read a) (h : decStep s = .next t) :
    FollowsWith s m t (decStep { s with mem := m }) := by
  by_cases hp : s.dec.phase = .idle
  · rw [decStep_of_idle hp] at h
    cases h
    exact ⟨m, decStep_of_idle hp, fun _ => id⟩
  · have hsame : SameForDecoder s { s with mem := m } := ⟨rfl, hsource⟩
    obtain ⟨move, -, rfl, hmove⟩ := decStep_congr hsame hp h
    rw [hmove]
    exact move.followsWith s m

/-- Emitting blocks does the same with another memory. -/
theorem emitBlocks_followsWith {bs : List Instr} {s t : State} (m : Memory) (h : emitBlocks bs s = .next t) :
    FollowsWith s m t (emitBlocks bs { s with mem := m }) := by
  induction bs generalizing s m with
  | nil =>
    cases h
    exact ⟨m, rfl, fun _ => id⟩
  | cons b bs ih =>
    rcases emitBlocks_cons_cases h with ⟨hcap, h⟩ | ⟨-, -, h⟩ | ⟨hcap, hmem, h⟩
    · cases h
      exact ⟨_, emitBlocks_cons_of_overflow hcap, fun _ => read_unspecify_congr _ _⟩
    · cases h
    · have hfits : EncodingFits { s with mem := m } b := ⟨hcap, hmem⟩
      obtain ⟨m', hrun, hread⟩ :=
        ih (m.writeBytes (s.enc.job.dst.toNat + s.enc.wr.toNat) (encode b)) h.symm
      rw [emitBlocks_cons_of_fits hfits]
      exact ⟨m', hrun, fun a ha => hread a (read_writeBytes_congr _ _ ha)⟩

/-- A task of the encoder does the same with another memory. -/
theorem EncTask.followsWith {task : EncTask} {s t : State} (m : Memory) (h : task.run s = .next t) :
    FollowsWith s m t (task.run { s with mem := m }) := by
  cases task with
  | header =>
    rcases encHeaderStep_cases h with ⟨hcap, h⟩ | ⟨-, -, h⟩ | ⟨hcap, hmem, h⟩ <;> cases h
    · exact ⟨_, if_pos hcap, fun _ => read_unspecify_congr _ _⟩
    · exact ⟨_, encHeaderStep_of_fits hcap hmem, fun _ => read_writeBytes_congr _ _⟩
  | blocks bs => exact emitBlocks_followsWith m h
  | completion =>
    cases h
    exact ⟨_, rfl, fun _ => read_unspecify_congr _ _⟩

/-- A step of the encoder does the same with another memory that agrees on its SRC window. -/
theorem encStep_followsWith {s t : State} {m : Memory}
    (hsource : ∀ a, s.enc.job.srcWindow.contains a → m.read a = s.mem.read a) (h : encStep s = .next t) :
    FollowsWith s m t (encStep { s with mem := m }) := by
  by_cases hp : s.enc.phase = .idle
  · rw [encStep_of_idle hp] at h
    cases h
    exact ⟨m, encStep_of_idle hp, fun _ => id⟩
  · have hsame : SameForEncoder s { s with mem := m } := ⟨rfl, hsource⟩
    obtain ⟨task, hrun, htask⟩ := encStep_congr hsame hp h
    rw [htask]
    exact EncTask.followsWith m hrun

/-- Settles O24: an engine's step does the same with another memory that agrees on its SRC window. -/
theorem enginesReadOnlyTheirSource : Obligations.EnginesReadOnlyTheirSource := by
  unfold Obligations.EnginesReadOnlyTheirSource
  intro s t m
  constructor
  · intro hturn hsource h
    have hturn' : State.decTurn { s with mem := m } := hturn
    rw [step_decTurn hturn] at h
    rw [step_decTurn hturn']
    exact decStep_followsWith (s := s.popped) hsource h
  · intro hturn hsource h
    have hturn' : State.encTurn { s with mem := m } := hturn
    rw [step_encTurn hturn] at h
    rw [step_encTurn hturn']
    exact encStep_followsWith (s := s.popped) hsource h

end Sys2Proof.Machine
end

section
/-! PROOFS. Accesses of the host to M (20_memory.md R71, R84). -/

namespace Sys2Proof.Machine

/-- Settles O51: each byte of the read is the draw's in the DST window of a busy engine, M's elsewhere. -/
theorem hostReadOfMemory : Obligations.HostReadOfMemory := by
  unfold Obligations.HostReadOfMemory
  intro s a len hturn hle
  refine ⟨s.popped.hostBytes a len, ?_, hostBytes_length .., fun k hk => ?_⟩
  · rw [step_hasTurn hturn]
    exact if_pos hle
  · rw [hostBytes_getElem?, if_pos hk]
    exact ⟨fun hbusy => congrArg some (if_pos hbusy), fun hfree => congrArg some (if_neg hfree)⟩

/-- A host write of M inside M sets the mark alone, or stores its bytes. -/
theorem hostMemWrite_eq (s : State) {a : Nat} {bytes : List Byte} (h : a + bytes.length ≤ Config.memSize) :
    s.hostMemWrite a bytes =
      if s.writeMeetsBusy { base := a, size := bytes.length } then .next { s with refused := true }
      else .next { s with mem := s.mem.writeBytes a bytes } := by
  rw [State.hostMemWrite, store_eq_some.mpr ⟨h, rfl⟩]

/-- A host write touches a window of a busy engine if and only if one of its bytes lies in one. -/
theorem writeMeetsBusy_iff (s : State) (a n : Nat) :
    s.writeMeetsBusy { base := a, size := n } ↔
      ∃ k e, k < n ∧ s.busy e = true ∧
        ((s.job e).srcWindow.contains (a + k) ∨ (s.job e).dstWindow.contains (a + k)) := by
  have hengine (e : Engine) :
      ((⟨a, n⟩ : Window).meets (s.job e).srcWindow ∨ (⟨a, n⟩ : Window).meets (s.job e).dstWindow) ↔
        ∃ k, k < n ∧ ((s.job e).srcWindow.contains (a + k) ∨ (s.job e).dstWindow.contains (a + k)) := by
    rw [meets_iff, meets_iff, ← exists_or]
    simp only [and_or_left]
  constructor
  · rintro (⟨hb, hw⟩ | ⟨hb, hw⟩)
    · obtain ⟨k, hk, hin⟩ := (hengine .enc).mp hw
      exact ⟨k, .enc, hk, hb, hin⟩
    · obtain ⟨k, hk, hin⟩ := (hengine .dec).mp hw
      exact ⟨k, .dec, hk, hb, hin⟩
  · rintro ⟨k, e, hk, hb, hin⟩
    have hw := (hengine e).mpr ⟨k, hk, hin⟩
    cases e with
    | enc => exact .inl ⟨hb, hw⟩
    | dec => exact .inr ⟨hb, hw⟩

/-- Settles O52: the write sets the mark where it touches a window of a busy engine, else it stores its bytes. -/
theorem hostWriteOfMemory : Obligations.HostWriteOfMemory := by
  unfold Obligations.HostWriteOfMemory
  intro s a bytes hturn hle
  have hstep : step s = s.popped.hostMemWrite a bytes := step_hasTurn hturn
  rw [hostMemWrite_eq _ hle] at hstep
  by_cases hmeets : s.popped.writeMeetsBusy { base := a, size := bytes.length }
  · rw [if_pos hmeets] at hstep
    exact ⟨_, hstep, rfl, iff_of_true rfl ((writeMeetsBusy_iff s a _).mp hmeets), nofun⟩
  · rw [if_neg hmeets] at hstep
    refine ⟨_, hstep, rfl, iff_of_false ?_ (mt (writeMeetsBusy_iff s a _).mpr hmeets), fun _ => ⟨?_, fun x hx => ?_⟩⟩
    · simp [hturn.1]
    · exact readBytes_writeBytes_same _ _ _
    · exact read_writeBytes_outside _ hx

end Sys2Proof.Machine
end

section
/-! PROOFS. A step of a safe state stops only for an access of the host past the end of M: no engine leaves its windows,
which lie in M (20_memory.md R70, R72, R73). -/

namespace Sys2Proof.Machine

theorem DecInv.src_inMemory {s : State} (h : DecInv s) (hp : s.dec.phase ≠ .idle) :
    s.dec.job.srcWindow.inMemory :=
  of_not_not fun hout => h.accepted hp (.inl hout)

theorem EncInv.src_inMemory {s : State} (h : EncInv s) (hp : s.enc.phase ≠ .idle) :
    s.enc.job.srcWindow.inMemory :=
  of_not_not fun hout => h.accepted hp (.inr (.inl hout))

/-- An instruction answers a next state if the DST window lies in M. -/
theorem exec_next {s : State} (hdst : s.dec.job.dstWindow.inMemory) (i : Instr) : ∃ t, exec i s = .next t := by
  cases hp : i.position with
  | header =>
    obtain ⟨length, rfl⟩ := header_eq_hdr hp
    rcases execHdr_cases (length := length) (s := s) rfl with ⟨-, h⟩ | ⟨-, h⟩
    · exact ⟨_, h⟩
    · exact ⟨_, h⟩
  | block =>
    simp only [Latched.dstWindow, Window.inMemory] at hdst
    rcases decodeBlockInto_cases (exec_block hp s).symm with ⟨-, h⟩ | ⟨-, -, h⟩ | ⟨-, hcap, hmem, -⟩ | ⟨-, -, -, h⟩
    · exact ⟨_, h⟩
    · exact ⟨_, h⟩
    · omega
    · exact ⟨_, h⟩

/-- A header or block step answers a next state if both windows lie in M. -/
theorem decElementStep_next {s : State} (hsrc : s.dec.job.srcWindow.inMemory) (hdst : s.dec.job.dstWindow.inMemory)
    (hoff : s.dec.offset ≤ s.dec.job.n.toNat) : ∃ t, decElementStep s = .next t := by
  rw [decElementStep_eq hsrc hoff]
  split
  · exact exec_next hdst _
  · exact ⟨_, rfl⟩

/-- The decoder never stops. -/
theorem decStep_next {s : State} (h : DecInv s) : ∃ t, decStep s = .next t := by
  unfold decStep
  cases hp : s.dec.phase with
  | idle => exact ⟨s, rfl⟩
  | hdr =>
    have hbusy : s.dec.phase ≠ .idle := by simp [hp]
    exact decElementStep_next (h.src_inMemory hbusy) (h.dst_inMemory hbusy) (by simp [DecEngine.offset, hp])
  | blk =>
    have hbusy : s.dec.phase ≠ .idle := by simp [hp]
    simp only
    split
    · refine decElementStep_next (h.src_inMemory hbusy) (h.dst_inMemory hbusy) ?_
      simp only [DecEngine.offset, hp]
      omega
    · exact ⟨_, rfl⟩

/-- Blocks are emitted or overflow if the DST window lies in M. -/
theorem emitBlocks_next {bs : List Instr} {s : State} (hdst : s.enc.job.dstWindow.inMemory) :
    ∃ t, emitBlocks bs s = .next t := by
  induction bs generalizing s with
  | nil => exact ⟨s, rfl⟩
  | cons b bs ih =>
    rcases emitBlocks_cons_cases (b := b) (bs := bs) (s := s) rfl with ⟨-, h⟩ | ⟨hcap, hmem, -⟩ | ⟨-, -, h⟩
    · exact ⟨_, h⟩
    · simp only [Latched.dstWindow, Window.inMemory] at hdst
      omega
    · rw [h]
      exact ih hdst

/-- The encoder never stops. -/
theorem encStep_next {s : State} (h : EncInv s) : ∃ t, encStep s = .next t := by
  unfold encStep
  cases hp : s.enc.phase with
  | idle => exact ⟨s, rfl⟩
  | hdr =>
    have hdst := h.dst_inMemory (by simp [hp])
    simp only [Latched.dstWindow, Window.inMemory] at hdst
    rcases encHeaderStep_cases (s := s) rfl with ⟨-, h⟩ | ⟨hcap, hmem, -⟩ | ⟨-, -, h⟩
    · exact ⟨_, h⟩
    · omega
    · exact ⟨_, h⟩
  | iter =>
    have hbusy : s.enc.phase ≠ .idle := by simp [hp]
    have hsrc := h.src_inMemory hbusy
    simp only [Latched.srcWindow, Window.inMemory] at hsrc
    simp only
    split
    · rcases encIterationStep_cases (s := s) rfl with ⟨hout, -⟩ | ⟨-, hrun⟩
      · omega
      · rw [hrun]
        exact emitBlocks_next (h.dst_inMemory hbusy)
    · exact ⟨_, rfl⟩

/-- The event is an access of the host past the end of M. -/
def Event.PastEnd (event : Event) : Prop :=
  (∃ a len, event = .memRead a len ∧ 4294967296 < a + len) ∨
  (∃ a bytes, event = .memWrite a bytes ∧ 4294967296 < a + bytes.length)

/-- An event answers a next state, or it is an access of the host past the end of M. -/
theorem runEvent_next_or_pastEnd {s : State} (hi : Invariant s) (event : Event) :
    (∃ t, runEvent event s = .next t) ∨ (runEvent event s = .fault .noSuchAddress ∧ event.PastEnd) := by
  cases event with
  | regWrite width offset value => exact .inl ⟨_, rfl⟩
  | regRead width offset => exact .inl ⟨_, rfl⟩
  | reset => exact .inl ⟨_, rfl⟩
  | encStep => exact .inl (encStep_next hi.enc)
  | decStep => exact .inl (decStep_next hi.dec)
  | memRead a len =>
    by_cases hle : a + len ≤ Config.memSize
    · exact .inl ⟨_, if_pos hle⟩
    · exact .inr ⟨if_neg hle, .inl ⟨a, len, rfl, Nat.lt_of_not_le hle⟩⟩
  | memWrite a bytes =>
    by_cases hle : a + bytes.length ≤ Config.memSize
    · left
      rw [runEvent, hostMemWrite_eq s hle]
      split
      · exact ⟨_, rfl⟩
      · exact ⟨_, rfl⟩
    · have hstore : s.mem.store a bytes = none := if_neg hle
      exact .inr ⟨by rw [runEvent, State.hostMemWrite, hstore], .inr ⟨a, bytes, rfl, Nat.lt_of_not_le hle⟩⟩

/-- With nothing on the agenda a step answers a next state. -/
theorem runEngines_next {s : State} (hi : Invariant s) : ∃ t, runEngines s = .next t := by
  unfold runEngines
  split
  · exact decStep_next hi.dec
  · split
    · exact encStep_next hi.enc
    · exact ⟨s, rfl⟩

/-- Settles O57: the engines never stop, and of the events only an access of the host past the end of M does. -/
theorem stepStopsOnlyForTheHost : Obligations.StepStopsOnlyForTheHost := by
  unfold Obligations.StepStopsOnlyForTheHost
  intro s hs
  cases ha : s.agenda with
  | nil =>
    left
    rw [step_eq_runNext hs.meaningful, runNext, ha]
    exact runEngines_next hs.inv
  | cons event rest =>
    rw [step_hasTurn ⟨hs.meaningful, by rw [ha, List.head?_cons]⟩]
    rcases runEvent_next_or_pastEnd hs.inv.popped event with h | ⟨h, ⟨a, len, rfl, hout⟩ | ⟨a, bytes, rfl, hout⟩⟩
    · exact .inl h
    · exact .inr ⟨h, .inl ⟨a, len, rfl, hout⟩⟩
    · exact .inr ⟨h, .inr ⟨a, bytes, rfl, hout⟩⟩

end Sys2Proof.Machine
end

section
/-! PROOFS. The decoder and the encoder of instructions are inverse to each other, and so are assembly and disassembly
(30_encoding.md R101 to R108, R112, R113). -/

namespace Sys2Proof

/-! ## Which fields a tag selects -/

theorem decodeBlock_tagRpt (bytes : List Byte) : decodeBlock (tagRpt :: bytes) = decodeRpt bytes := rfl

theorem decodeBlock_tagLit (bytes : List Byte) : decodeBlock (tagLit :: bytes) = decodeLit bytes := rfl

theorem decodeBlock_otherTag {tag : Byte} (hrpt : tag ≠ tagRpt) (hlit : tag ≠ tagLit) (bytes : List Byte) :
    decodeBlock (tag :: bytes) = .error (.illegalTag tag) := by
  rw [decodeBlock, if_neg hrpt, if_neg hlit]

/-! ## Decoding what was encoded -/

theorem decodeHeader_enc32 (length : Word) (rest : List Byte) :
    decodeHeader (enc32 length ++ rest) = .ok (.hdr length, rest) := by
  simp only [enc32, List.cons_append, List.nil_append, decodeHeader, le32_enc32]

theorem decodeRpt_enc16 (count : Count) (value : Byte) (rest : List Byte) :
    decodeRpt (enc16 count ++ value :: rest) = .ok (.rpt count value, rest) := by
  simp only [enc16, List.cons_append, List.nil_append, decodeRpt, le16_enc16]

/-- After a count field, `decodeLit` takes as many payload bytes as it says. -/
theorem decodeLit_enc16 {count : Count} {payload : List Byte} (h : count.toNat = payload.length) (rest : List Byte) :
    decodeLit (enc16 count ++ (payload ++ rest)) = .ok (.lit payload, rest) := by
  simp only [enc16, List.cons_append, List.nil_append, decodeLit, le16_enc16, h, List.take_left, List.drop_left,
    Nat.lt_irrefl, if_false]

/-- The count field of a well-formed LIT does not wrap (30_encoding.md R109). -/
theorem litCount_toNat {payload : List Byte} (h : (Instr.lit payload).wellFormed = true) :
    (BitVec.ofNat 16 payload.length).toNat = payload.length :=
  (BitVec.toNat_ofNat ..).trans (Nat.mod_eq_of_lt (of_decide_eq_true h))

/-- Settles O2: each constructor is read back from its fields, a block after its tag. -/
theorem decodeOfEncodeIsIdentity : Obligations.DecodeOfEncodeIsIdentity := by
  unfold Obligations.DecodeOfEncodeIsIdentity
  intro i rest hwf
  cases i with
  | hdr length => exact decodeHeader_enc32 length rest
  | rpt count value =>
    rw [Instr.position, decodeAt, encode, List.cons_append, List.append_assoc, decodeBlock_tagRpt]
    exact decodeRpt_enc16 count value rest
  | lit payload =>
    rw [Instr.position, decodeAt, encode, List.cons_append, List.append_assoc, decodeBlock_tagLit]
    exact decodeLit_enc16 (litCount_toNat hwf) rest

/-! ## Encoding what was decoded -/

theorem decodeHeader_ok {bytes rest : List Byte} {i : Instr} (h : decodeHeader bytes = .ok (i, rest)) :
    ∃ length, i = .hdr length ∧ bytes = enc32 length ++ rest := by
  unfold decodeHeader at h
  split at h <;> cases h
  exact ⟨_, rfl, by rw [enc32_le32]; rfl⟩

theorem decodeRpt_ok {bytes rest : List Byte} {i : Instr} (h : decodeRpt bytes = .ok (i, rest)) :
    ∃ count value, i = .rpt count value ∧ bytes = enc16 count ++ value :: rest := by
  unfold decodeRpt at h
  split at h <;> cases h
  exact ⟨_, _, rfl, by rw [enc16_le16]; rfl⟩

theorem decodeLit_ok {bytes rest : List Byte} {i : Instr} (h : decodeLit bytes = .ok (i, rest)) :
    ∃ (count : Count) (payload : List Byte),
      i = .lit payload ∧ count.toNat = payload.length ∧ bytes = enc16 count ++ (payload ++ rest) := by
  simp only [decodeLit] at h
  split at h
  · split at h <;> cases h
    next c0 c1 fields hlong =>
    refine ⟨le16 c0 c1, _, rfl, ?_, ?_⟩
    · exact Nat.le_antisymm (Nat.le_of_not_lt hlong) (List.length_take_le _ _)
    · rw [enc16_le16, List.take_append_drop]; rfl
  · cases h

/-- A decoded block is a RPT or a LIT after its tag. -/
theorem decodeBlock_ok {bytes rest : List Byte} {i : Instr} (h : decodeBlock bytes = .ok (i, rest)) :
    (∃ fields, bytes = tagRpt :: fields ∧ decodeRpt fields = .ok (i, rest)) ∨
    (∃ fields, bytes = tagLit :: fields ∧ decodeLit fields = .ok (i, rest)) := by
  cases bytes with
  | nil => cases h
  | cons tag fields =>
    by_cases hrpt : tag = tagRpt
    · rw [hrpt, decodeBlock_tagRpt] at h
      exact .inl ⟨fields, by rw [hrpt], h⟩
    · by_cases hlit : tag = tagLit
      · rw [hlit, decodeBlock_tagLit] at h
        exact .inr ⟨fields, by rw [hlit], h⟩
      · rw [decodeBlock_otherTag hrpt hlit] at h
        cases h

/-- Settles O3: an accepted element gives its fields, and these are the bytes read. -/
theorem encodeOfDecodeIsIdentity : Obligations.EncodeOfDecodeIsIdentity := by
  unfold Obligations.EncodeOfDecodeIsIdentity
  intro p bytes rest i h
  cases p with
  | header =>
    obtain ⟨length, rfl, rfl⟩ := decodeHeader_ok h
    exact ⟨rfl, rfl, rfl⟩
  | block =>
    rcases decodeBlock_ok h with ⟨fields, rfl, hfields⟩ | ⟨fields, rfl, hfields⟩
    · obtain ⟨count, value, rfl, rfl⟩ := decodeRpt_ok hfields
      exact ⟨rfl, rfl, rfl⟩
    · obtain ⟨count, payload, rfl, hcount, rfl⟩ := decodeLit_ok hfields
      refine ⟨decide_eq_true (hcount ▸ count.isLt), rfl, ?_⟩
      rw [encode, ← hcount, BitVec.ofNat_toNat, BitVec.setWidth_eq, List.cons_append, List.append_assoc]

/-! ## Illegal tags -/

theorem decodeRpt_error {bytes : List Byte} {e : DecodeError} (h : decodeRpt bytes = .error e) : e = .truncated := by
  unfold decodeRpt at h
  split at h <;> cases h
  rfl

theorem decodeLit_error {bytes : List Byte} {e : DecodeError} (h : decodeLit bytes = .error e) : e = .truncated := by
  simp only [decodeLit] at h
  split at h
  · split at h <;> cases h
    rfl
  · cases h
    rfl

/-- Settles O4: after a tag of a block only truncation is an error, and any other tag is illegal. -/
theorem otherTagsAreIllegal : Obligations.OtherTagsAreIllegal := by
  unfold Obligations.OtherTagsAreIllegal
  intro tag t rest
  constructor
  · intro h
    have hrpt : tag ≠ tagRpt := by
      rintro rfl
      rw [decodeBlock_tagRpt] at h
      cases decodeRpt_error h
    have hlit : tag ≠ tagLit := by
      rintro rfl
      rw [decodeBlock_tagLit] at h
      cases decodeLit_error h
    rw [decodeBlock_otherTag hrpt hlit] at h
    cases h
    exact ⟨rfl, hrpt, hlit⟩
  · rintro ⟨rfl, hrpt, hlit⟩
    exact decodeBlock_otherTag hrpt hlit rest

/-- Settles O1: each word is the encoding of its element and decodes to it, or is rejected by its tag or its end. -/
theorem writtenWordsDecode : Obligations.WrittenWordsDecode := by
  unfold Obligations.WrittenWordsDecode
  exact ⟨decodeHeader_enc32 13#32 [], decodeRpt_enc16 13#16 0x43#8 [], decodeRpt_enc16 256#16 0x58#8 [],
    decodeLit_enc16 (count := 2#16) (payload := [0x41#8, 0x42#8]) rfl [],
    decodeLit_enc16 (count := 0#16) (payload := []) rfl [],
    decodeBlock_otherTag (tag := 0x02#8) (by decide) (by decide) [], rfl⟩

end Sys2Proof

namespace Sys2Proof.Machine

/-! ## Assembly and disassembly -/

theorem disassembleBlocks_of_decodeBlock {bytes rest : List Byte} {i : Instr} (h : decodeBlock bytes = .ok (i, rest))
    (fuel : Nat) :
    disassembleBlocks (fuel + 1) bytes =
      (i :: (disassembleBlocks fuel rest).1, (disassembleBlocks fuel rest).2) := by
  cases bytes with
  | nil => cases h
  | cons b bytes => rw [disassembleBlocks, h]

/-- A fuel of the number of bytes is enough to read every block back. -/
theorem disassembleBlocks_assemble {blocks : List Instr}
    (hblocks : ∀ b ∈ blocks, b.wellFormed = true ∧ b.position = .block) {fuel : Nat}
    (hfuel : (assemble blocks).length ≤ fuel) :
    disassembleBlocks fuel (assemble blocks) = (blocks, []) := by
  induction blocks generalizing fuel with
  | nil => cases fuel <;> rfl
  | cons b blocks ih =>
    obtain ⟨⟨hwf, hpos⟩, hblocks⟩ := List.forall_mem_cons.1 hblocks
    have hdecode : decodeAt .block (assemble (b :: blocks)) = .ok (b, assemble blocks) :=
      hpos ▸ decodeOfEncodeIsIdentity b (assemble blocks) hwf
    have hlen : (assemble (b :: blocks)).length = b.length + (assemble blocks).length := by simp [assemble]
    have := three_le_length b
    obtain ⟨fuel, rfl⟩ : ∃ k, fuel = k + 1 := ⟨fuel - 1, by omega⟩
    rw [disassembleBlocks_of_decodeBlock hdecode, ih hblocks (by omega)]

/-- Settles O5: the header is read back, and then every block in turn. -/
theorem disassembleOfAssembleIsIdentity : Obligations.DisassembleOfAssembleIsIdentity := by
  unfold Obligations.DisassembleOfAssembleIsIdentity
  intro length blocks hblocks
  have hheader : decodeHeader (assemble (.hdr length :: blocks)) = .ok (.hdr length, assemble blocks) :=
    decodeHeader_enc32 length (assemble blocks)
  rw [disassemble, hheader]
  simp only [disassembleBlocks_assemble hblocks (Nat.le_refl _)]

end Sys2Proof.Machine
end

section
/-! PROOFS. Register accesses of the host (41_control.md R130, R136, R137): a step runs the register that stands at the
offset, or nothing where the offset is reserved. -/

namespace Sys2Proof.Machine

/-! ## Accesses of the register map -/

/-- A word access at the offset of a register is one of the interface. -/
theorem regAccessAllowed_offset (r : Reg) : regAccessAllowed .word r.offset := by cases r <;> decide

/-- When a write of a register has the turn, a step does what that write does. -/
theorem step_writeReg {s : State} {r : Reg} {value : Word} (h : s.hasTurn (.regWrite .word r.offset value)) :
    step s = .next (s.popped.writeReg r value) := by
  rw [step_hasTurn h, runEvent, State.hostRegWrite, if_pos (regAccessAllowed_offset r), regAt_offset]

/-- When a write of a reserved offset has the turn, a step does nothing else than take it off the agenda. -/
theorem step_writeReserved {s : State} {offset : Nat} {value : Word} (h : s.hasTurn (.regWrite .word offset value))
    (hok : regAccessAllowed .word offset) (hres : offset ∉ implementedRegs.map Reg.offset) :
    step s = .next s.popped := by
  rw [step_hasTurn h, runEvent, State.hostRegWrite, if_pos hok, regAt_reserved hres]

/-- When a read has the turn, a step answers the value at the offset and uses up one draw. -/
theorem step_regRead {s : State} {offset : Nat} (h : s.hasTurn (.regRead .word offset))
    (hok : regAccessAllowed .word offset) :
    step s = .next { s.popped with response := .word (s.readOffset offset), draws := s.draws + 1 } := by
  rw [step_hasTurn h, runEvent, State.hostRegRead, if_pos hok]
  rfl

@[simp] theorem readOffset_offset (s : State) (r : Reg) : s.readOffset r.offset = s.readReg r := by
  simp [State.readOffset]

theorem readOffset_reserved {offset : Nat} (h : offset ∉ implementedRegs.map Reg.offset) (s : State) :
    s.readOffset offset = 0#32 := by
  simp [State.readOffset, regAt_reserved h]

/-! ## RW registers -/

/-- The RW registers: CFG and the operands (10_state.md R21). -/
def rwRegs : List Reg :=
  [.cfg, .encSrcBase, .encSrcLen, .encDstBase, .encDstCap, .decSrcBase, .decSrcLen, .decDstBase, .decDstCap]

/-- A read after a write of a RW register: the implemented bits of the value there, and every other register as before
(41_control.md R130). -/
theorem readReg_writeReg {r : Reg} (hr : r ∈ rwRegs) (s : State) (value : Word) (q : Reg) :
    (s.writeReg r value).readReg q =
      if q = r then (if r = .cfg then value &&& cfgMask else value) else s.readReg q := by
  simp only [rwRegs, List.mem_cons, List.not_mem_nil, or_false] at hr
  rcases hr with rfl | rfl | rfl | rfl | rfl | rfl | rfl | rfl | rfl <;> cases q <;> rfl

/-- From `s` to `t` only registers moved: both engines, M and the host's side are as before. -/
structure OnlyRegistersMoved (s t : State) : Prop where
  enc : t.enc = s.enc
  dec : t.dec = s.dec
  mem : t.mem = s.mem
  refused : t.refused = s.refused
  agenda : t.agenda = s.agenda
  response : t.response = s.response
  draws : t.draws = s.draws

/-- A write of a RW register touches no engine and no byte of M, busy or not (41_control.md R130). -/
theorem writeReg_onlyRegistersMoved {r : Reg} (hr : r ∈ rwRegs) (s : State) (value : Word) :
    OnlyRegistersMoved s (s.writeReg r value) := by
  simp only [rwRegs, List.mem_cons, List.not_mem_nil, or_false] at hr
  rcases hr with rfl | rfl | rfl | rfl | rfl | rfl | rfl | rfl | rfl <;>
    exact ⟨rfl, rfl, rfl, rfl, rfl, rfl, rfl⟩

/-- Settles O41: the offset is that of a RW register, whose write stores its bits and moves only that register. -/
theorem registerWriteStores : Obligations.RegisterWriteStores := by
  unfold Obligations.RegisterWriteStores
  intro s offset r v hturn hmem
  obtain ⟨q, hq, heq⟩ : ∃ q ∈ rwRegs, (q.offset, q) = (offset, r) := List.mem_map.mp hmem
  cases heq
  have hread := readReg_writeReg hq s.popped v
  have hmoved := writeReg_onlyRegistersMoved hq s.popped v
  exact ⟨_, step_writeReg hturn, (hread _).trans (if_pos rfl), fun p hp => (hread p).trans (if_neg hp), hmoved.enc,
    hmoved.dec, hmoved.mem, hmoved.refused.trans hturn.1, hmoved.agenda, hmoved.response, hmoved.draws⟩

/-! ## Writes without effect -/

/-- The RO registers (10_state.md R21). -/
def roRegs : List Reg := [.encStatus, .encOutLen, .decStatus, .decOutLen, .decHdrLen, .decErrOff]

/-- A write of a RO register is ignored (41_control.md R136). -/
theorem writeReg_readOnly {r : Reg} (hr : r ∈ roRegs) (s : State) (value : Word) : s.writeReg r value = s := by
  simp only [roRegs, List.mem_cons, List.not_mem_nil, or_false] at hr
  rcases hr with rfl | rfl | rfl | rfl | rfl | rfl <;> rfl

/-- A write of ENC_CTRL without START is ignored (41_control.md R136). -/
theorem writeReg_encCtrl_noStart {value : Word} (h : startBit value = false) (s : State) :
    s.writeReg .encCtrl value = s := if_neg (by simp [h])

/-- A write of DEC_CTRL without START is ignored (41_control.md R136). -/
theorem writeReg_decCtrl_noStart {value : Word} (h : startBit value = false) (s : State) :
    s.writeReg .decCtrl value = s := if_neg (by simp [h])

/-- Settles O45: the offset holds a CTRL register, a RO register or none, and each ignores the write. -/
theorem writesWithoutEffect : Obligations.WritesWithoutEffect := by
  unfold Obligations.WritesWithoutEffect
  intro s offset v hturn halign hblock hoffset
  rcases hoffset with ⟨rfl | rfl, hv⟩ | hro | hres
  · rw [step_writeReg (r := .encCtrl) hturn, writeReg_encCtrl_noStart hv]
  · rw [step_writeReg (r := .decCtrl) hturn, writeReg_decCtrl_noStart hv]
  · obtain ⟨r, hr, rfl⟩ : ∃ r ∈ roRegs, r.offset = offset := List.mem_map.mp hro
    rw [step_writeReg hturn, writeReg_readOnly hr]
  · exact step_writeReserved hturn ⟨rfl, halign, hblock⟩ hres

/-! ## Reads -/

/-- Settles O46: a read answers the register at the offset, 0 where there is none; OUT_LEN is read as O47 says. -/
theorem registerRead : Obligations.RegisterRead := by
  unfold Obligations.RegisterRead
  intro s offset hturn halign hblock
  have hreg (r : Reg) (h : offset = r.offset) : s.readOffset offset = s.readReg r := by rw [h, readOffset_offset]
  refine ⟨s.readOffset offset, step_regRead hturn ⟨rfl, halign, hblock⟩, fun value hmem => ?_, hreg, ?_, ?_, ?_⟩
  · obtain ⟨r, -, heq⟩ : ∃ r ∈ implementedRegs, (r.offset, s.readReg r) = (offset, value) := List.mem_map.mp hmem
    cases heq
    exact hreg r rfl
  · exact fun h hopen => (hreg .encOutLen h).trans ((outLenReads s .enc).1 hopen)
  · exact fun h hopen => (hreg .decOutLen h).trans ((outLenReads s .dec).1 hopen)
  · exact fun hres => readOffset_reserved hres s

end Sys2Proof.Machine
end

section
/-! PROOFS. START commands (41_control.md R131 to R135), and that no action of the host but reset stops an engine (R138). -/

namespace Sys2Proof.Machine

/-! ## START to a busy engine -/

theorem writeReg_encCtrl_start {value : Word} (h : startBit value = true) (s : State) :
    s.writeReg .encCtrl value = s.encStart := if_pos h

theorem writeReg_decCtrl_start {value : Word} (h : startBit value = true) (s : State) :
    s.writeReg .decCtrl value = s.decStart := if_pos h

theorem encStart_of_busy {s : State} (h : s.busy .enc = true) : s.encStart = s := if_pos h

theorem decStart_of_busy {s : State} (h : s.busy .dec = true) : s.decStart = s := if_pos h

/-- Settles O42: with START the command is ignored because the engine is busy, without START in any state. -/
theorem startWhileBusyIsIgnored : Obligations.StartWhileBusyIsIgnored := by
  unfold Obligations.StartWhileBusyIsIgnored
  intro s v
  refine ⟨fun hturn hbusy => ?_, fun hturn hbusy => ?_⟩
  · rw [step_writeReg (r := .encCtrl) hturn, State.writeReg, encStart_of_busy (s := s.popped) hbusy, ite_self]
  · rw [step_writeReg (r := .decCtrl) hturn, State.writeReg, decStart_of_busy (s := s.popped) hbusy, ite_self]

/-! ## The configuration checks -/

/-- The checks both engines make of their windows, in unbounded integers (41_control.md R132, R134). -/
theorem windowsBad_iff (j : Latched) :
    (¬ j.srcWindow.inMemory ∨ ¬ j.dstWindow.inMemory ∨ j.srcWindow.meets j.dstWindow) ↔
      (4294967296 < j.src.toNat + j.n.toNat ∨ 4294967296 < j.dst.toNat + j.cap.toNat ∨
        (0 < j.n.toNat ∧ 0 < j.cap.toNat ∧ j.src.toNat < j.dst.toNat + j.cap.toNat ∧
          j.dst.toNat < j.src.toNat + j.n.toNat)) :=
  or_congr Nat.not_le (or_congr Nat.not_le Iff.rfl)

/-! ## An accepted START -/

/-- An encode START of an idle encoder that fails a check. -/
theorem encStart_of_bad {s : State} (hidle : s.busy .enc = false) (hbad : s.encLatch.enc.configBad) :
    s.encStart = s.encLatch.faultStatus .enc .config 0#32 := by
  simp [State.encStart, hidle, if_pos hbad]

/-- A decode START of an idle decoder that fails a check. -/
theorem decStart_of_bad {s : State} (hidle : s.busy .dec = false) (hbad : s.decLatch.dec.configBad) :
    s.decStart = s.decLatch.faultStatus .dec .config 0#32 := by
  simp [State.decStart, hidle, if_pos hbad]

/-- An encode START of an idle encoder that passes its checks begins, and marks an overlap with a busy decoder. -/
theorem encStart_of_ok {s : State} (hr : s.refused = false) (hidle : s.busy .enc = false)
    (hok : ¬ s.encLatch.enc.configBad) :
    s.encStart =
      { s.encLatch.encBegin with refused := decide (s.busy .dec = true ∧ s.encLatch.crossOverlap) } := by
  rcases encStart_cases s with ⟨hb, -⟩ | ⟨-, hbad, -⟩ | ⟨-, -, ⟨hd, ho, h⟩ | ⟨hno, h⟩⟩
  · simp [hidle] at hb
  · exact absurd hbad hok
  · rw [h, decide_eq_true ⟨hd, ho⟩]
  · rw [h, decide_eq_false hno, ← hr]
    rfl

/-- A decode START of an idle decoder that passes its checks begins, and marks an overlap with a busy encoder. -/
theorem decStart_of_ok {s : State} (hr : s.refused = false) (hidle : s.busy .dec = false)
    (hok : ¬ s.decLatch.dec.configBad) :
    s.decStart =
      { s.decLatch.decBegin with refused := decide (s.busy .enc = true ∧ s.decLatch.crossOverlap) } := by
  rcases decStart_cases s with ⟨hb, -⟩ | ⟨-, hbad, -⟩ | ⟨-, -, ⟨he, ho, h⟩ | ⟨hno, h⟩⟩
  · simp [hidle] at hb
  · exact absurd hbad hok
  · rw [h, decide_eq_true ⟨he, ho⟩]
  · rw [h, decide_eq_false hno, ← hr]
    rfl

/-- Settles O43: the three cases of an encode START, with its checks written over the registers. -/
theorem encodeStart : Obligations.EncodeStart := by
  unfold Obligations.EncodeStart
  intro s v hturn hv
  refine ⟨(startWhileBusyIsIgnored s v).1 hturn, fun hidle => ?_⟩
  have hstep : step s = .next s.popped.encStart := by
    rw [step_writeReg (r := .encCtrl) hturn, writeReg_encCtrl_start hv]
  have hbad := or_congr (Iff.refl (s.maxblkField.toNat < 7)) (windowsBad_iff s.encRegs.operands)
  refine ⟨fun h => ?_, fun h => ?_⟩
  · rw [hstep, encStart_of_bad (s := s.popped) hidle (hbad.mpr h)]
    rfl
  · rw [hstep, encStart_of_ok (s := s.popped) hturn.1 hidle fun hc => h (hbad.mp hc)]
    rfl

/-- Settles O44: the three cases of a decode START, with its checks written over the registers. -/
theorem decodeStart : Obligations.DecodeStart := by
  unfold Obligations.DecodeStart
  intro s v hturn hv
  refine ⟨(startWhileBusyIsIgnored s v).2 hturn, fun hidle => ?_⟩
  have hstep : step s = .next s.popped.decStart := by
    rw [step_writeReg (r := .decCtrl) hturn, writeReg_decCtrl_start hv]
  have hbad := windowsBad_iff s.decRegs.operands
  refine ⟨fun h => ?_, fun h => ?_⟩
  · rw [hstep, decStart_of_bad (s := s.popped) hidle (hbad.mpr h)]
    rfl
  · rw [hstep, decStart_of_ok (s := s.popped) hturn.1 hidle fun hc => h (hbad.mp hc)]
    rfl

/-! ## What a START of one engine leaves alone -/

/-- An encode START leaves the decoder alone. -/
theorem encStart_decoder (s : State) :
    s.encStart.dec = s.dec ∧ s.encStart.decRegs = s.decRegs ∧ s.encStart.lenmm = s.lenmm ∧
      s.encStart.hdrLen = s.hdrLen ∧ s.encStart.errOff = s.errOff := by
  rcases encStart_cases s with ⟨-, h⟩ | ⟨-, -, h⟩ | ⟨-, -, ⟨-, -, h⟩ | ⟨-, h⟩⟩ <;> rw [h] <;>
    exact ⟨rfl, rfl, rfl, rfl, rfl⟩

/-- A decode START leaves the encoder alone. -/
theorem decStart_encoder (s : State) : s.decStart.enc = s.enc ∧ s.decStart.encRegs = s.encRegs := by
  rcases decStart_cases s with ⟨-, h⟩ | ⟨-, -, h⟩ | ⟨-, -, ⟨-, -, h⟩ | ⟨-, h⟩⟩ <;> rw [h] <;> exact ⟨rfl, rfl⟩

/-! ## What a step does to the operations -/

theorem OperationsUntouched.refl (s : State) : OperationsUntouched s s :=
  ⟨rfl, rfl, rfl, rfl, rfl, rfl, rfl, rfl, id⟩

/-- Setting the refused mark touches no operation. -/
theorem operationsUntouched_refuse (s : State) : OperationsUntouched s { s with refused := true } :=
  ⟨rfl, rfl, rfl, rfl, rfl, rfl, rfl, rfl, fun _ => rfl⟩

/-- A register write starts an engine or touches no operation. -/
theorem writeReg_operations (s : State) (r : Reg) (value : Word) :
    OperationsUntouched s (s.writeReg r value) ∨ s.writeReg r value = s.encStart ∨ s.writeReg r value = s.decStart := by
  cases r with
  | encCtrl =>
    cases hv : startBit value with
    | true => exact .inr (.inl (writeReg_encCtrl_start hv s))
    | false => exact .inl (by rw [writeReg_encCtrl_noStart hv]; exact .refl s)
  | decCtrl =>
    cases hv : startBit value with
    | true => exact .inr (.inr (writeReg_decCtrl_start hv s))
    | false => exact .inl (by rw [writeReg_decCtrl_noStart hv]; exact .refl s)
  | _ => exact .inl ⟨rfl, rfl, rfl, rfl, rfl, rfl, rfl, rfl, id⟩

/-- An event is the reset input, a step of an engine, a START, or touches no operation. -/
theorem runEvent_operations {event : Event} {s t : State} (h : runEvent event s = .next t) :
    event = .reset ∨ (event = .encStep ∧ encStep s = .next t) ∨ (event = .decStep ∧ decStep s = .next t) ∨
    OperationsUntouched s t ∨ t = s.encStart ∨ t = s.decStart := by
  cases event with
  | reset => exact .inl rfl
  | encStep => exact .inr (.inl ⟨rfl, h⟩)
  | decStep => exact .inr (.inr (.inl ⟨rfl, h⟩))
  | regWrite width offset value =>
    cases h
    refine .inr (.inr (.inr ?_))
    rcases hostRegWrite_cases s width offset value with ⟨-, h⟩ | ⟨-, r, -, h⟩ | ⟨-, -, h⟩ <;> rw [h]
    · exact .inl (operationsUntouched_refuse s)
    · exact writeReg_operations s r value
    · exact .inl (.refl s)
  | regRead width offset =>
    cases h
    refine .inr (.inr (.inr (.inl ?_)))
    unfold State.hostRegRead
    split
    · exact ⟨rfl, rfl, rfl, rfl, rfl, rfl, rfl, rfl, id⟩
    · exact operationsUntouched_refuse s
  | memWrite addr bytes =>
    refine .inr (.inr (.inr (.inl ?_)))
    rcases (hostMemWrite_cases h).2 with ⟨-, rfl⟩ | ⟨-, rfl⟩
    · exact operationsUntouched_refuse s
    · exact ⟨rfl, rfl, rfl, rfl, rfl, rfl, rfl, rfl, id⟩
  | memRead addr len =>
    rw [hostMemRead_next h]
    exact .inr (.inr (.inr (.inl ⟨rfl, rfl, rfl, rfl, rfl, rfl, rfl, rfl, id⟩)))

/-- A step that is no reset is one of an engine that has the turn, a START, or touches no operation. -/
theorem step_operations {s t : State} (h : step s = .next t) (hreset : s.agenda.head? ≠ some .reset) :
    (s.encTurn ∧ encStep s.popped = .next t) ∨ (s.decTurn ∧ decStep s.popped = .next t) ∨
    OperationsUntouched s.popped t ∨ t = s.popped.encStart ∨ t = s.popped.decStart := by
  obtain ⟨hr, ⟨event, rest, ha, h⟩ | ⟨ha, hd, h⟩ | ⟨ha, hd, he, h⟩ | ⟨ha, -, -, rfl⟩⟩ := step_cases h
  · have hhead : s.agenda.head? = some event := by simp [ha]
    rcases runEvent_operations h with rfl | ⟨rfl, h⟩ | ⟨rfl, h⟩ | hhost
    · exact absurd hhead hreset
    · exact .inl ⟨⟨hr, .inl hhead⟩, h⟩
    · exact .inr (.inl ⟨⟨hr, .inl hhead⟩, h⟩)
    · exact .inr (.inr hhost)
  · exact .inr (.inl ⟨⟨hr, .inr ⟨ha, hd⟩⟩, by rwa [popped_of_nil ha]⟩)
  · exact .inl ⟨⟨hr, .inr ⟨ha, hd, he⟩⟩, by rwa [popped_of_nil ha]⟩
  · exact .inr (.inr (.inl (by rw [popped_of_nil ha]; exact .refl t)))

/-- Settles O50: a step that is neither a reset nor one of the engine moves the other engine, starts the other engine, is a
START that the busy engine ignores, or touches no operation. -/
theorem hostDoesNotStopAnEngine : Obligations.HostDoesNotStopAnEngine := by
  unfold Obligations.HostDoesNotStopAnEngine
  intro s t _ h hreset
  refine ⟨fun hbusy hturn => ?_, fun hbusy hturn => ?_⟩
  · rcases step_operations h hreset with ⟨ht, -⟩ | ⟨-, h⟩ | hu | rfl | rfl
    · exact absurd ht hturn
    · have hmoved := decStep_onlyDecoderMoved h
      exact ⟨hmoved.enc, congrArg _ hmoved.encRegs⟩
    · exact ⟨hu.enc, hu.encStatus⟩
    · rw [encStart_of_busy (s := s.popped) hbusy]
      exact ⟨rfl, rfl⟩
    · obtain ⟨henc, hregs⟩ := decStart_encoder s.popped
      exact ⟨henc, congrArg _ hregs⟩
  · rcases step_operations h hreset with ⟨-, h⟩ | ⟨ht, -⟩ | hu | rfl | rfl
    · have hmoved := encStep_onlyEncoderMoved h
      exact ⟨hmoved.dec, congrArg _ hmoved.decRegs, hmoved.lenmm, hmoved.hdrLen, hmoved.errOff⟩
    · exact absurd ht hturn
    · exact ⟨hu.dec, hu.decStatus, hu.lenmm, hu.hdrLen, hu.errOff⟩
    · obtain ⟨hdec, hregs, hrest⟩ := encStart_decoder s.popped
      exact ⟨hdec, congrArg _ hregs, hrest⟩
    · rw [decStart_of_busy (s := s.popped) hbusy]
      exact ⟨rfl, rfl, rfl, rfl, rfl⟩

end Sys2Proof.Machine
end

section
/-! PROOFS. Instructions that complete, and every step of the decoder engine: the header, a block, an illegal tag, and the
completion (42_decoder.md R151 to R158, R164). -/

namespace Sys2Proof.Machine

/-! ## Instructions that complete -/

/-- Settles O6: HDR has the one check that R157 gives it. -/
theorem hdrCompletes : Obligations.HdrCompletes := by
  unfold Obligations.HdrCompletes
  intro length s hn
  rcases execHdr_cases (length := length) (s := s) rfl with ⟨hshort, -⟩ | ⟨-, h⟩
  · omega
  · exact h

/-- A block within the stream and the capacity fits, if the DST window lies in M. -/
theorem BlockFits.of_window {s : State} {i : Instr} (hp : i.position = .block)
    (hn : s.dec.rd.toNat + i.length ≤ s.dec.job.n.toNat) (hcap : s.dec.wr.toNat + i.count ≤ s.dec.job.cap.toNat)
    (hdst : s.dec.job.dstWindow.inMemory) : BlockFits s i := by
  refine ⟨hp, hn, hcap, ?_⟩
  simp only [Latched.dstWindow, Window.inMemory] at hdst
  omega

/-- After a block the bytes it denotes stand at the end of the output. -/
theorem afterBlock_readBytes (s : State) (i : Instr) :
    (s.afterBlock i).mem.readBytes (s.dec.job.dst.toNat + s.dec.wr.toNat) i.count = i.expand := by
  rw [← expand_length]
  exact readBytes_writeBytes_same s.mem _ i.expand

/-- A block changes only the bytes it appends to the output. -/
theorem afterBlock_read_outside {s : State} {i : Instr} {a : Nat}
    (h : a < s.dec.job.dst.toNat + s.dec.wr.toNat ∨ s.dec.job.dst.toNat + s.dec.wr.toNat + i.count ≤ a) :
    (s.afterBlock i).mem.read a = s.mem.read a := by
  rw [← expand_length] at h
  exact read_writeBytes_outside s.mem h

/-- Settles O7: a RPT that fits is `afterBlock` of `count` times its value. -/
theorem rptCompletes : Obligations.RptCompletes := by
  unfold Obligations.RptCompletes
  intro count value s hn hcap hdst
  have hfits : BlockFits s (.rpt count value) := .of_window rfl hn hcap hdst
  exact ⟨_, exec_of_fits hfits, rfl, afterBlock_wr hfits, afterBlock_rd hfits, afterBlock_readBytes s _,
    fun _ ha => afterBlock_read_outside (i := .rpt count value) ha⟩

/-- Settles O8: a LIT that fits is `afterBlock` of its payload. -/
theorem litCompletes : Obligations.LitCompletes := by
  unfold Obligations.LitCompletes
  intro payload s hn hcap hdst
  have hfits : BlockFits s (.lit payload) := .of_window rfl ((Nat.add_assoc ..).symm.trans_le hn) hcap hdst
  exact ⟨_, exec_of_fits hfits, rfl, afterBlock_wr hfits, (afterBlock_rd hfits).trans (Nat.add_assoc ..).symm,
    afterBlock_readBytes s _, fun _ ha => afterBlock_read_outside (i := .lit payload) ha⟩

/-- A block within the stream whose output passes the capacity ends the operation (60_exceptions.md R233). -/
theorem exec_of_overflow {s : State} {i : Instr} (hp : i.position = .block)
    (hn : s.dec.rd.toNat + i.length ≤ s.dec.job.n.toNat) (hcap : s.dec.job.cap.toNat < s.dec.wr.toNat + i.count) :
    exec i s = .next (s.raiseFault .dec .overflow s.dec.rd) := by
  rw [exec_block hp, State.decodeBlockInto, if_neg (by omega), if_pos hcap]

/-! ## The element at the read cursor -/

/-- The stream bytes that are not read yet, the header's included in phase HDR. -/
def State.unread (s : State) : List Byte :=
  s.mem.readBytes (s.dec.job.src.toNat + s.dec.offset) (s.dec.job.n.toNat - s.dec.offset)

/-- The next step of the decoder reads an element from a SRC window in M. -/
structure AtElement (s : State) : Prop where
  busy : s.dec.phase ≠ .idle
  more : s.dec.phase = .blk → s.dec.rd.toNat < s.dec.job.n.toNat
  source : s.dec.job.srcWindow.inMemory

theorem AtElement.offset_le {s : State} (h : AtElement s) : s.dec.offset ≤ s.dec.job.n.toNat := by
  unfold DecEngine.offset
  cases hp : s.dec.phase with
  | idle => exact absurd hp h.busy
  | hdr => exact Nat.zero_le _
  | blk => exact (h.more hp).le

/-- At an element a step of the decoder is a header or block step. -/
theorem AtElement.decStep_eq {s : State} (h : AtElement s) : decStep s = decElementStep s := by
  unfold decStep
  cases hp : s.dec.phase with
  | idle => exact absurd hp h.busy
  | hdr => rfl
  | blk => exact if_pos (h.more hp)

/-- A step at an element runs what the unread bytes decode to. -/
theorem AtElement.decStep_of_ok {s : State} (h : AtElement s) {i : Instr} {rest : List Byte}
    (hd : decodeAt s.dec.position s.unread = .ok (i, rest)) : decStep s = exec i s := by
  rw [State.unread] at hd
  rw [h.decStep_eq, decElementStep_eq h.source h.offset_le, hd]

/-- A step over bytes that are no element raises what they are rejected for. -/
theorem AtElement.decStep_of_error {s : State} (h : AtElement s) {e : DecodeError}
    (hd : decodeAt s.dec.position s.unread = .error e) :
    decStep s = .next (s.raiseFault .dec (errOf e) (Word.ofNat s.dec.offset)) := by
  rw [State.unread] at hd
  rw [h.decStep_eq, decElementStep_eq h.source h.offset_le, hd]

/-- Settles O11: the decoder's turn is its step from the popped state, which fetches the same bytes. -/
theorem stepRunsDecodedInstruction : Obligations.StepRunsDecodedInstruction := by
  unfold Obligations.StepRunsDecodedInstruction
  intro s i rest hturn hbusy hmore hsrc hd
  have hat : AtElement s.popped := ⟨hbusy, hmore, hsrc⟩
  rw [step_decTurn hturn, hat.decStep_of_ok hd]

/-- Settles O12: the decoder's turn is its step from the popped state, which fetches the same bytes. -/
theorem stepRaisesOnRejectedElement : Obligations.StepRaisesOnRejectedElement := by
  unfold Obligations.StepRaisesOnRejectedElement
  intro s e hturn hbusy hmore hsrc hd
  have hat : AtElement s.popped := ⟨hbusy, hmore, hsrc⟩
  rw [step_decTurn hturn, hat.decStep_of_error hd]
  rfl

/-! ## Elements by their bytes -/

theorem readBytes_cons (m : Memory) (a : Nat) {n : Nat} (h : 0 < n) :
    m.readBytes a n = m.read a :: m.readBytes (a + 1) (n - 1) := by
  obtain ⟨k, rfl⟩ : ∃ k, n = k + 1 := ⟨n - 1, by omega⟩
  rfl

/-- A stream of fewer than 4 bytes has no header (42_decoder.md R157). -/
theorem decodeHeader_of_short {bytes : List Byte} (h : bytes.length < 4) : decodeHeader bytes = .error .truncated := by
  unfold decodeHeader
  split
  · simp only [List.length_cons] at h
    omega
  · rfl

/-- The header of a stream in M. -/
theorem decodeHeader_readBytes (m : Memory) (a : Nat) {n : Nat} (h : 4 ≤ n) :
    decodeHeader (m.readBytes a n) =
      .ok (.hdr (le32 (m.read a) (m.read (a + 1)) (m.read (a + 2)) (m.read (a + 3))),
        m.readBytes (a + 4) (n - 4)) := by
  obtain ⟨k, rfl⟩ : ∃ k, n = 4 + k := ⟨n - 4, by omega⟩
  rw [readBytes_append, Nat.add_sub_cancel_left]
  rfl

theorem decodeRpt_of_short {bytes : List Byte} (h : bytes.length < 3) : decodeRpt bytes = .error .truncated := by
  unfold decodeRpt
  split
  · simp only [List.length_cons] at h
    omega
  · rfl

/-- The fields of a repeat block in M. -/
theorem decodeRpt_readBytes (m : Memory) (a : Nat) {n : Nat} (h : 3 ≤ n) :
    decodeRpt (m.readBytes a n) =
      .ok (.rpt (le16 (m.read a) (m.read (a + 1))) (m.read (a + 2)), m.readBytes (a + 3) (n - 3)) := by
  obtain ⟨k, rfl⟩ : ∃ k, n = 3 + k := ⟨n - 3, by omega⟩
  rw [readBytes_append, Nat.add_sub_cancel_left]
  rfl

theorem decodeLit_of_short {bytes : List Byte} (h : bytes.length < 2) : decodeLit bytes = .error .truncated := by
  simp only [decodeLit]
  split
  · simp only [List.length_cons] at h
    omega
  · rfl

/-- The fields of a literal block in M: the count field, then the payload, if it ends within the stream. -/
theorem decodeLit_readBytes (m : Memory) (a : Nat) {n c : Nat} (h : 2 ≤ n)
    (hc : (le16 (m.read a) (m.read (a + 1))).toNat = c) :
    decodeLit (m.readBytes a n) =
      if n < 2 + c then .error .truncated
      else .ok (.lit (m.readBytes (a + 2) c), m.readBytes (a + 2 + c) (n - 2 - c)) := by
  have hbytes : m.readBytes a n = m.read a :: m.read (a + 1) :: m.readBytes (a + 2) (n - 2) := by
    obtain ⟨k, rfl⟩ : ∃ k, n = 2 + k := ⟨n - 2, by omega⟩
    rw [readBytes_append, Nat.add_sub_cancel_left]
    rfl
  simp only [hbytes, decodeLit, hc, readBytes_take, readBytes_drop, readBytes_length]
  by_cases hcut : n < 2 + c
  · rw [if_pos hcut, if_pos (by omega)]
  · rw [if_neg hcut, if_neg (by omega), Nat.min_eq_right (by omega)]

/-! ## The header step -/

theorem State.unread_hdr {s : State} (h : s.dec.phase = .hdr) :
    s.unread = s.mem.readBytes s.dec.job.src.toNat s.dec.job.n.toNat := by
  simp [State.unread, DecEngine.offset, h]

theorem DecEngine.position_hdr {d : DecEngine} (h : d.phase = .hdr) : d.position = .header := by
  simp [DecEngine.position, h]

theorem AtElement.of_hdr {s : State} (h : s.dec.phase = .hdr) (hsrc : s.dec.job.srcWindow.inMemory) : AtElement s :=
  ⟨by simp [h], by simp [h], hsrc⟩

/-- The header step over fewer than 4 bytes (42_decoder.md R157). -/
theorem decStep_hdr_of_short {s : State} (h : s.dec.phase = .hdr) (hsrc : s.dec.job.srcWindow.inMemory)
    (hn : s.dec.job.n.toNat < 4) : decStep s = .next (s.raiseFault .dec .truncated 0#32) := by
  have hd : decodeAt s.dec.position s.unread = .error .truncated := by
    rw [DecEngine.position_hdr h, State.unread_hdr h]
    exact decodeHeader_of_short (by rwa [readBytes_length])
  rw [(AtElement.of_hdr h hsrc).decStep_of_error hd, DecEngine.offset, h]
  rfl

/-- The header step over at least 4 bytes (42_decoder.md R157). -/
theorem decStep_hdr_of_long {s : State} (h : s.dec.phase = .hdr) (hsrc : s.dec.job.srcWindow.inMemory)
    (hn : 4 ≤ s.dec.job.n.toNat) {length : Word} {rest : List Byte}
    (hd : decodeHeader (s.mem.readBytes s.dec.job.src.toNat s.dec.job.n.toNat) = .ok (.hdr length, rest)) :
    decStep s = .next (s.afterHeader length) := by
  have hd' : decodeAt s.dec.position s.unread = .ok (.hdr length, rest) := by
    rw [DecEngine.position_hdr h, State.unread_hdr h]
    exact hd
  rw [(AtElement.of_hdr h hsrc).decStep_of_ok hd']
  exact hdrCompletes length s hn

/-- Settles O13: the header is the little-endian word of the first 4 bytes, or there are fewer. -/
theorem headerStep : Obligations.HeaderStep := by
  unfold Obligations.HeaderStep
  intro s hturn hp hsrc
  rw [step_decTurn hturn]
  exact ⟨decStep_hdr_of_short (s := s.popped) hp hsrc,
    fun hn => decStep_hdr_of_long (s := s.popped) hp hsrc hn (decodeHeader_readBytes s.mem _ hn)⟩

/-! ## Block steps -/

theorem DecEngine.position_blk {d : DecEngine} (h : d.phase = .blk) : d.position = .block := by
  simp [DecEngine.position, h]

theorem DecEngine.offset_blk {d : DecEngine} (h : d.phase = .blk) : d.offset = d.rd.toNat := by
  simp [DecEngine.offset, h]

/-- The decoder's next step reads a block from a SRC window in M. -/
structure AtBlock (s : State) : Prop where
  phase : s.dec.phase = .blk
  more : s.dec.rd.toNat < s.dec.job.n.toNat
  source : s.dec.job.srcWindow.inMemory

theorem AtBlock.atElement {s : State} (h : AtBlock s) : AtElement s := ⟨by simp [h.phase], fun _ => h.more, h.source⟩

/-- The bytes after the tag of the next block. -/
def State.fields (s : State) : List Byte :=
  s.mem.readBytes (s.dec.job.src.toNat + s.dec.rd.toNat + 1) (s.dec.job.n.toNat - s.dec.rd.toNat - 1)

@[simp] theorem fields_length (s : State) : s.fields.length = s.dec.job.n.toNat - s.dec.rd.toNat - 1 :=
  readBytes_length ..

/-- At a block the unread bytes are its tag and its fields. -/
theorem AtBlock.unread_eq {s : State} (h : AtBlock s) :
    s.unread = s.mem.read (s.dec.job.src.toNat + s.dec.rd.toNat) :: s.fields := by
  have hmore := h.more
  rw [State.unread, DecEngine.offset_blk h.phase, readBytes_cons _ _ (by omega)]
  rfl

/-- A step at a block runs the block that stands there. -/
theorem AtBlock.decStep_of_ok {s : State} (h : AtBlock s) {i : Instr} {rest : List Byte}
    (hd : decodeBlock (s.mem.read (s.dec.job.src.toNat + s.dec.rd.toNat) :: s.fields) = .ok (i, rest)) :
    decStep s = exec i s :=
  h.atElement.decStep_of_ok (by rw [DecEngine.position_blk h.phase, h.unread_eq]; exact hd)

/-- A step at bytes that are no block raises what they are rejected for, at the tag. -/
theorem AtBlock.decStep_of_error {s : State} (h : AtBlock s) {e : DecodeError}
    (hd : decodeBlock (s.mem.read (s.dec.job.src.toNat + s.dec.rd.toNat) :: s.fields) = .error e) :
    decStep s = .next (s.raiseFault .dec (errOf e) s.dec.rd) := by
  rw [h.atElement.decStep_of_error (by rw [DecEngine.position_blk h.phase, h.unread_eq]; exact hd),
    DecEngine.offset_blk h.phase, Word.ofNat, BitVec.ofNat_toNat, BitVec.setWidth_eq]

theorem decodeBlock_of_tagRpt {tag : Byte} (h : tag = tagRpt) (bytes : List Byte) :
    decodeBlock (tag :: bytes) = decodeRpt bytes := by rw [h, decodeBlock_tagRpt]

theorem decodeBlock_of_tagLit {tag : Byte} (h : tag = tagLit) (bytes : List Byte) :
    decodeBlock (tag :: bytes) = decodeLit bytes := by rw [h, decodeBlock_tagLit]

/-- Settles O14: after the tag stand 3 bytes or fewer, and the block's output fits or not. -/
theorem repeatBlockStep : Obligations.RepeatBlockStep := by
  unfold Obligations.RepeatBlockStep
  intro s hturn hp hmore hsrc hdst b htag
  have hat : AtBlock s.popped := ⟨hp, hmore, hsrc⟩
  have hd := decodeBlock_of_tagRpt htag s.popped.fields
  rw [step_decTurn hturn]
  constructor
  · intro hn
    exact hat.decStep_of_error (hd.trans (decodeRpt_of_short (by rw [fields_length, popped_dec]; omega)))
  · intro hn c
    rw [hat.decStep_of_ok (hd.trans (decodeRpt_readBytes _ _ (by rw [popped_dec]; omega)))]
    exact ⟨fun hcap => exec_of_overflow rfl hn hcap, fun hcap => exec_of_fits (.of_window rfl hn hcap hdst)⟩

/-- A literal block of `c` payload bytes whose output passes the capacity (42_decoder.md R155). -/
theorem exec_lit_of_overflow {s : State} {payload : List Byte} {c : Nat} (hc : payload.length = c)
    (hn : s.dec.rd.toNat + 3 + c ≤ s.dec.job.n.toNat) (hcap : s.dec.job.cap.toNat < s.dec.wr.toNat + c) :
    exec (.lit payload) s = .next (s.raiseFault .dec .overflow s.dec.rd) := by
  subst hc
  exact exec_of_overflow rfl ((Nat.add_assoc ..).symm.trans_le hn) hcap

/-- A literal block of `c` payload bytes that fits (42_decoder.md R155). -/
theorem exec_lit_of_fits {s : State} {payload : List Byte} {c : Nat} (hc : payload.length = c)
    (hn : s.dec.rd.toNat + 3 + c ≤ s.dec.job.n.toNat) (hdst : s.dec.job.dstWindow.inMemory)
    (hcap : s.dec.wr.toNat + c ≤ s.dec.job.cap.toNat) :
    exec (.lit payload) s = .next { s with
      mem := s.mem.writeBytes (s.dec.job.dst.toNat + s.dec.wr.toNat) payload
      dec := { s.dec with wr := Word.ofNat (s.dec.wr.toNat + c), rd := Word.ofNat (s.dec.rd.toNat + 3 + c) } } := by
  subst hc
  rw [exec_of_fits (.of_window rfl ((Nat.add_assoc ..).symm.trans_le hn) hcap hdst), Nat.add_assoc]
  rfl

/-- Settles O15: after the tag stand a count field and the payload it counts, and the block's output fits or not. -/
theorem literalBlockStep : Obligations.LiteralBlockStep := by
  unfold Obligations.LiteralBlockStep
  intro s hturn hp hmore hsrc hdst b htag
  have hat : AtBlock s.popped := ⟨hp, hmore, hsrc⟩
  have hd := decodeBlock_of_tagLit htag s.popped.fields
  rw [step_decTurn hturn]
  constructor
  · intro hn
    exact hat.decStep_of_error (hd.trans (decodeLit_of_short (by rw [fields_length, popped_dec]; omega)))
  · intro hn c
    have hfields := decodeLit_readBytes s.mem (s.dec.job.src.toNat + s.dec.rd.toNat + 1)
      (n := s.dec.job.n.toNat - s.dec.rd.toNat - 1) (c := c) (by omega) rfl
    constructor
    · intro hlong
      exact hat.decStep_of_error (hd.trans (hfields.trans (if_pos (by omega))))
    · intro hshort
      rw [hat.decStep_of_ok (hd.trans (hfields.trans (if_neg (by omega))))]
      exact ⟨exec_lit_of_overflow (s := s.popped) (readBytes_length ..) hshort,
        exec_lit_of_fits (s := s.popped) (readBytes_length ..) hshort hdst⟩

/-- Settles O16: such a tag is rejected before any other byte is read. -/
theorem illegalTagStep : Obligations.IllegalTagStep := by
  unfold Obligations.IllegalTagStep
  intro s hturn hp hmore hsrc hrpt hlit
  have hat : AtBlock s.popped := ⟨hp, hmore, hsrc⟩
  rw [step_decTurn hturn]
  exact hat.decStep_of_error (decodeBlock_otherTag hrpt hlit _)

/-! ## The completion step -/

/-- With the whole stream read a step of the decoder is the completion (42_decoder.md R158). -/
theorem decStep_of_end {s : State} (hp : s.dec.phase = .blk) (hend : s.dec.job.n.toNat ≤ s.dec.rd.toNat) :
    decStep s = .next (decCompletion s) := by
  rw [decStep, hp]
  exact if_neg (by omega)

/-- Settles O17: the completion makes just the bytes beyond the output unspecified. -/
theorem decoderCompletionStep : Obligations.DecoderCompletionStep := by
  unfold Obligations.DecoderCompletionStep
  intro s hturn hp hend
  refine ⟨decCompletion s.popped, ?_, rfl, fun a ha => read_unspecify_outside _ ?_,
    fun a hlo hhi => read_unspecify_inside _ ?_⟩
  · rw [step_decTurn hturn, decStep_of_end (s := s.popped) hp (by simp [hend])]
  · simp only [Window.contains, State.job, popped_dec] at ha ⊢
    omega
  · simp only [Window.contains, State.job, popped_dec]
    omega

/-! ## CFG -/

/-- The outcome with another CFG in its next state. -/
def withCfg (v : Word) : Host.Outcome State Fault Refusal → Host.Outcome State Fault Refusal
  | .next t => .next { t with cfg := v }
  | .fault f => .fault f
  | .refused r => .refused r

theorem decodeBlockInto_withCfg (s : State) (v : Word) (count : Nat) (out : List Byte) (len : Nat) :
    State.decodeBlockInto { s with cfg := v } count out len = withCfg v (s.decodeBlockInto count out len) := by
  unfold State.decodeBlockInto State.appendDecoded
  simp only [apply_ite (withCfg v)]
  rfl

/-- An instruction does the same under any CFG. -/
theorem exec_withCfg (i : Instr) (s : State) (v : Word) : exec i { s with cfg := v } = withCfg v (exec i s) := by
  cases hp : i.position with
  | header =>
    obtain ⟨length, rfl⟩ := header_eq_hdr hp
    simp only [exec, execHdr, apply_ite (withCfg v)]
    rfl
  | block =>
    rw [exec_block hp, exec_block hp]
    exact decodeBlockInto_withCfg s v ..

/-- A header or block step does the same under any CFG: it fetches the same bytes. -/
theorem decElementStep_withCfg (s : State) (v : Word) :
    decElementStep { s with cfg := v } = withCfg v (decElementStep s) := by
  have hfetch : State.fetch { s with cfg := v } = s.fetch := rfl
  unfold decElementStep
  rw [hfetch]
  cases s.fetch with
  | none => rfl
  | some bytes =>
    simp only
    cases decodeAt s.dec.position bytes with
    | error e => rfl
    | ok r => exact exec_withCfg r.1 s v

/-- A step of the decoder does the same under any CFG. -/
theorem decStep_withCfg (s : State) (v : Word) : decStep { s with cfg := v } = withCfg v (decStep s) := by
  unfold decStep
  cases s.dec.phase with
  | idle => rfl
  | hdr => exact decElementStep_withCfg s v
  | blk =>
    simp only [apply_ite (withCfg v)]
    rw [decElementStep_withCfg]
    rfl

/-- Settles O20: a step under another CFG is the same step with that CFG kept. -/
theorem decoderIgnoresCfg : Obligations.DecoderIgnoresCfg := by
  unfold Obligations.DecoderIgnoresCfg
  intro s v
  have h := decStep_withCfg s v
  cases hs : decStep s with
  | next t => rwa [hs] at h
  | fault f => rwa [hs] at h
  | refused r => rwa [hs] at h

end Sys2Proof.Machine
end

section
/-! PROOFS. The decoder engine computes Decode: every step takes it nearer to its end, and either keeps what is left to
decode or ends with the outcome that Decode gives (42_decoder.md R150, R151, R158 to R160). -/

namespace Sys2Proof.Machine

/-! ## The steps left -/

/-- The steps a decoder takes at most until it is idle (42_decoder.md R159). -/
def DecEngine.stepsLeft (d : DecEngine) : Nat :=
  match d.phase with
  | .idle => 0
  | .hdr => decodeStepBound d.job.n.toNat
  | .blk => 1 + (d.job.n.toNat - d.rd.toNat) / 3

theorem DecEngine.stepsLeft_idle {d : DecEngine} (h : d.phase = .idle) : d.stepsLeft = 0 := by
  simp only [DecEngine.stepsLeft, h]

theorem DecEngine.stepsLeft_hdr {d : DecEngine} (h : d.phase = .hdr) :
    d.stepsLeft = decodeStepBound d.job.n.toNat := by
  simp only [DecEngine.stepsLeft, h]

theorem DecEngine.stepsLeft_blk {d : DecEngine} (h : d.phase = .blk) :
    d.stepsLeft = 1 + (d.job.n.toNat - d.rd.toNat) / 3 := by
  simp only [DecEngine.stepsLeft, h]

theorem decodeStepBound_of_long {n : Nat} (h : 4 ≤ n) : decodeStepBound n = 2 + (n - 4) / 3 := if_neg (by omega)

theorem decodeStepBound_pos (n : Nat) : 0 < decodeStepBound n := by
  unfold decodeStepBound
  split <;> omega

/-- A busy decoder has a step left. -/
theorem DecEngine.stepsLeft_pos {d : DecEngine} (h : d.phase ≠ .idle) : 0 < d.stepsLeft := by
  cases hp : d.phase with
  | idle => exact absurd hp h
  | hdr => rw [d.stepsLeft_hdr hp]; exact decodeStepBound_pos _
  | blk => rw [d.stepsLeft_blk hp]; omega

/-- The steps left are within the bound of R159. -/
theorem DecInv.stepsLeft_le {s : State} (h : DecInv s) : s.dec.stepsLeft ≤ decodeStepBound s.dec.job.n.toNat := by
  cases hp : s.dec.phase with
  | idle => rw [DecEngine.stepsLeft_idle hp]; exact Nat.zero_le _
  | hdr => rw [DecEngine.stepsLeft_hdr hp]
  | blk =>
    obtain ⟨hlo, hhi, -, -⟩ := h.blkPhase hp
    rw [DecEngine.stepsLeft_blk hp, decodeStepBound_of_long (by omega)]
    omega

/-- Every step of a busy decoder leaves it fewer steps. -/
theorem decStep_stepsLeft_lt {s t : State} (hbusy : s.dec.phase ≠ .idle) (h : decStep s = .next t) :
    t.dec.stepsLeft < s.dec.stepsLeft := by
  rcases decStep_cases h with
    ⟨hp, -⟩ | ⟨-, err, off, -, rfl⟩ | ⟨hp, hn, length, rfl⟩ | ⟨hp, i, hfits, rfl⟩ | ⟨-, -, rfl⟩
  · exact absurd hp hbusy
  · rw [DecEngine.stepsLeft_idle rfl]
    exact DecEngine.stepsLeft_pos hbusy
  · have hafter : (s.afterHeader length).dec.stepsLeft = 1 + (s.dec.job.n.toNat - 4) / 3 := rfl
    rw [hafter, DecEngine.stepsLeft_hdr hp, decodeStepBound_of_long hn]
    omega
  · have hafter : (s.afterBlock i).dec.stepsLeft =
        1 + (s.dec.job.n.toNat - (s.afterBlock i).dec.rd.toNat) / 3 := DecEngine.stepsLeft_blk hp
    have h3 := three_le_length i
    have hend := hfits.stream
    rw [hafter, afterBlock_rd hfits, DecEngine.stepsLeft_blk hp]
    omega
  · rw [DecEngine.stepsLeft_idle rfl]
    exact DecEngine.stepsLeft_pos hbusy

/-! ## The loop of Decode -/

theorem decodeBlocks_nil (fuel : Nat) (hdr : Word) (off : Nat) (out : List Byte) :
    decodeBlocks fuel hdr off [] out = .ok hdr out := by
  cases fuel <;> rfl

/-- A block that decodes is consumed and its expansion appended. -/
theorem decodeBlocks_of_ok {bytes rest : List Byte} {i : Instr} (h : decodeBlock bytes = .ok (i, rest)) (fuel : Nat)
    (hdr : Word) (off : Nat) (out : List Byte) :
    decodeBlocks (fuel + 1) hdr off bytes out = decodeBlocks fuel hdr (off + i.length) rest (out ++ i.expand) := by
  cases bytes with
  | nil => cases h
  | cons b bytes => rw [decodeBlocks, h]

/-- Bytes that are no block end the loop at their offset. -/
theorem decodeBlocks_of_error {b : Byte} {bytes : List Byte} {e : DecodeError} (h : decodeBlock (b :: bytes) = .error e)
    (fuel : Nat) (hdr : Word) (off : Nat) (out : List Byte) :
    decodeBlocks (fuel + 1) hdr off (b :: bytes) out = .err (errOf e) off := by
  rw [decodeBlocks, h]

/-- A block that decodes is as long as its encoding. -/
theorem decodeBlock_length {bytes rest : List Byte} {i : Instr} (h : decodeBlock bytes = .ok (i, rest)) :
    bytes.length = i.length + rest.length := by
  obtain ⟨-, -, hbytes⟩ := encodeOfDecodeIsIdentity .block bytes rest i h
  rw [← hbytes, List.length_append, encode_length]

/-- A fuel of the number of bytes is never used up. -/
theorem decodeBlocks_fuel {fuel : Nat} {bytes : List Byte} (hfuel : bytes.length ≤ fuel) (hdr : Word) (off : Nat)
    (out : List Byte) : decodeBlocks fuel hdr off bytes out = decodeBlocks bytes.length hdr off bytes out := by
  induction fuel using Nat.strong_induction_on generalizing bytes off out with
  | _ fuel ih =>
    cases bytes with
    | nil => rw [decodeBlocks_nil, decodeBlocks_nil]
    | cons b bytes =>
      obtain ⟨fuel, rfl⟩ : ∃ k, fuel = k + 1 := ⟨fuel - 1, by simp only [List.length_cons] at hfuel; omega⟩
      rw [List.length_cons] at hfuel ⊢
      cases hd : decodeBlock (b :: bytes) with
      | error e => rw [decodeBlocks_of_error hd, decodeBlocks_of_error hd]
      | ok r =>
        have hlen := decodeBlock_length hd
        have h3 := three_le_length r.1
        rw [List.length_cons] at hlen
        rw [decodeBlocks_of_ok hd, decodeBlocks_of_ok hd, ih fuel (by omega) (by omega)]
        exact (ih bytes.length (by omega) (by omega) ..).symm

/-- What Decode can still answer once it has read the header `hdr` and `off` bytes and put out `len` bytes. -/
def StreamResult.Extends (hdr : Word) (off len : Nat) : StreamResult → Prop
  | .ok hdr' out => hdr' = hdr ∧ len ≤ out.length
  | .err _ off' => off ≤ off'

/-- The loop keeps the header and its output, and reports no offset it has passed. -/
theorem decodeBlocks_extends (fuel : Nat) (hdr : Word) (off : Nat) (bytes out : List Byte) :
    (decodeBlocks fuel hdr off bytes out).Extends hdr off out.length := by
  induction fuel generalizing off bytes out with
  | zero =>
    cases bytes with
    | nil => exact ⟨rfl, Nat.le_refl _⟩
    | cons b bytes => exact Nat.le_refl off
  | succ fuel ih =>
    cases bytes with
    | nil => exact ⟨rfl, Nat.le_refl _⟩
    | cons b bytes =>
      cases hd : decodeBlock (b :: bytes) with
      | error e => rw [decodeBlocks_of_error hd]; exact Nat.le_refl off
      | ok r =>
        have hnext := ih (off + r.1.length) r.2 (out ++ r.1.expand)
        rw [decodeBlocks_of_ok hd]
        rw [List.length_append] at hnext
        cases hres : decodeBlocks fuel hdr (off + r.1.length) r.2 (out ++ r.1.expand) with
        | ok hdr' out' =>
          rw [hres] at hnext
          exact ⟨hnext.1, Nat.le_of_add_right_le hnext.2⟩
        | err code off' =>
          rw [hres] at hnext
          exact Nat.le_of_add_right_le hnext

/-! ## What is left to decode -/

/-- The output so far. -/
def State.output (s : State) : List Byte := s.mem.readBytes s.dec.job.dst.toNat s.dec.wr.toNat

/-- What Decode answers from the state of a busy decoder on: the unread bytes decoded after the output so far. -/
def State.decodeLeft (s : State) : StreamResult :=
  match s.dec.phase with
  | .hdr => decodeStream s.unread
  | _ => decodeBlocks s.unread.length s.dec.hdr s.dec.rd.toNat s.unread s.output

theorem State.decodeLeft_hdr {s : State} (h : s.dec.phase = .hdr) : s.decodeLeft = decodeStream s.unread := by
  simp only [State.decodeLeft, h]

theorem State.decodeLeft_blk {s : State} (h : s.dec.phase = .blk) :
    s.decodeLeft = decodeBlocks s.unread.length s.dec.hdr s.dec.rd.toNat s.unread s.output := by
  simp only [State.decodeLeft, h]

theorem State.unread_blk {s : State} (h : s.dec.phase = .blk) :
    s.unread = s.mem.readBytes (s.dec.job.src.toNat + s.dec.rd.toNat) (s.dec.job.n.toNat - s.dec.rd.toNat) := by
  rw [State.unread, DecEngine.offset_blk h]

/-- The idle decoder of `t` shows a result of Decode, as far as the capacity of `job` lets it. -/
def State.Shows (t : State) (job : Latched) : StreamResult → Prop
  | .ok hdr out =>
    t.hdrLen = hdr ∧
    if out.length ≤ job.cap.toNat then
      t.decRegs.status = ⟨false, true, .none⟩ ∧ t.decRegs.outLen.toNat = out.length ∧ t.errOff = 0#32 ∧
      (t.lenmm = true ↔ out.length ≠ hdr.toNat) ∧
      t.mem.readBytes job.dst.toNat out.length = out
    else t.decRegs.status = ⟨false, true, .overflow⟩
  | .err code off =>
    (t.decRegs.status = ⟨false, true, code⟩ ∧ t.errOff.toNat = off) ∨
    (t.decRegs.status = ⟨false, true, .overflow⟩ ∧ t.errOff.toNat < off)

/-- A fault entry with the error and offset of Decode shows its result. -/
theorem raiseFault_shows (s : State) (job : Latched) (code : ErrCode) (off : Word) :
    (s.raiseFault .dec code off).Shows job (.err code off.toNat) := .inl ⟨rfl, rfl⟩

/-- OVERFLOW at the read cursor shows every result with a longer output and a later offset. -/
theorem overflow_shows {s : State} {hdr : Word} {off len : Nat} {r : StreamResult} (hr : r.Extends hdr off len)
    (hhdr : s.hdrLen = hdr) (hoff : s.dec.rd.toNat < off) (hlen : s.dec.job.cap.toNat < len) :
    (s.raiseFault .dec .overflow s.dec.rd).Shows s.dec.job r := by
  cases r with
  | ok hdr' out =>
    obtain ⟨rfl, hout⟩ := hr
    refine ⟨hhdr, ?_⟩
    rw [if_neg (by omega)]
    rfl
  | err code off' => exact .inr ⟨rfl, Nat.lt_of_lt_of_le hoff hr⟩

/-- A completion shows the header and the output so far. -/
theorem decCompletion_shows {s : State} (hi : Invariant s) (hp : s.dec.phase = .blk) :
    (decCompletion s).Shows s.dec.job (.ok s.dec.hdr s.output) := by
  obtain ⟨-, -, hcap, hhdr⟩ := hi.dec.blkPhase hp
  have hlen : s.output.length = s.dec.wr.toNat := readBytes_length ..
  refine ⟨hhdr, ?_⟩
  rw [if_pos (by omega), hlen]
  refine ⟨rfl, rfl, hi.dec.errOff_of_busy (by simp [hp]), ?_, readBytes_congr fun a _ hhi => ?_⟩
  · simp [decCompletion, BitVec.toNat_inj]
  · refine read_unspecify_outside _ fun hin => ?_
    simp only [Window.contains, State.job] at hin
    omega

/-! ## A step of the decoder and what is left -/

/-- A busy decoder's DST window holds no byte of its stream (41_control.md R134). -/
theorem DecInv.source_not_dst {s : State} (h : DecInv s) (hp : s.dec.phase ≠ .idle) {a : Nat}
    (ha : s.dec.job.srcWindow.contains a) : ¬ s.dec.job.dstWindow.contains a :=
  not_contains_of_not_meets (fun hmeets => h.accepted hp (.inr (.inr hmeets))) ha

/-- After a header the stream from its fifth byte on is left. -/
theorem afterHeader_decodeLeft {s : State} {length : Word} (hi : Invariant s) (hp : s.dec.phase = .hdr)
    (hd : decodeHeader s.unread =
      .ok (.hdr length, s.mem.readBytes (s.dec.job.src.toNat + 4) (s.dec.job.n.toNat - 4))) :
    (s.afterHeader length).decodeLeft = s.decodeLeft := by
  have hout : (s.afterHeader length).output = [] := by
    obtain ⟨-, hwr, -⟩ := hi.dec.hdrPhase hp
    simp [State.output, State.afterHeader, hwr, Memory.readBytes]
  rw [State.decodeLeft_hdr hp, decodeStream, hd, State.decodeLeft_blk rfl, hout]
  rfl

/-- After a block the bytes after it are unread. -/
theorem afterBlock_unread {s : State} {i : Instr} {rest : List Byte} (hi : Invariant s) (hp : s.dec.phase = .blk)
    (hfits : BlockFits s i) (hd : decodeBlock s.unread = .ok (i, rest)) : (s.afterBlock i).unread = rest := by
  obtain ⟨-, -, hbytes⟩ := encodeOfDecodeIsIdentity .block s.unread rest i hd
  have hrest : rest = s.unread.drop i.length := by rw [← hbytes, ← encode_length, List.drop_left]
  rw [hrest, State.unread_blk hp, readBytes_drop, State.unread_blk (s := s.afterBlock i) hp, afterBlock_rd hfits,
    Nat.add_assoc, Nat.sub_sub]
  refine readBytes_congr fun a hlo hhi => (afterBlock_onlyDecoderMoved hfits).mem a ?_
  refine hi.dec.source_not_dst (by simp [hp]) ?_
  have hjob : (s.afterBlock i).dec.job = s.dec.job := rfl
  rw [hjob] at hlo hhi
  simp only [Latched.srcWindow, Window.contains]
  omega

/-- After a block the bytes it denotes stand behind the output. -/
theorem afterBlock_output {s : State} {i : Instr} (hfits : BlockFits s i) :
    (s.afterBlock i).output = s.output ++ i.expand := by
  have hjob : (s.afterBlock i).dec.job = s.dec.job := rfl
  rw [State.output, afterBlock_wr hfits, hjob, readBytes_append, afterBlock_readBytes]
  congr 1
  exact readBytes_congr fun a _ hhi => afterBlock_read_outside (.inl hhi)

/-- A block step keeps what is left to decode, or ends with what Decode answers. -/
theorem decStep_block_decodes {s t : State} (hi : Invariant s) (hat : AtBlock s) (h : decStep s = .next t) :
    (t.dec.phase = .idle ∧ t.Shows s.dec.job s.decodeLeft) ∨
    (t.dec.phase ≠ .idle ∧ t.decodeLeft = s.decodeLeft) := by
  have hp := hat.phase
  have hpos := DecEngine.position_blk hp
  obtain ⟨-, -, -, hhdr⟩ := hi.dec.blkPhase hp
  have hlen : s.unread.length = s.fields.length + 1 := by rw [hat.unread_eq, List.length_cons]
  rw [State.decodeLeft_blk hp, hlen]
  cases hd : decodeBlock s.unread with
  | error e =>
    rw [hat.unread_eq] at hd ⊢
    rw [hat.decStep_of_error hd] at h
    cases h
    rw [decodeBlocks_of_error hd]
    exact .inl ⟨rfl, raiseFault_shows ..⟩
  | ok r =>
    obtain ⟨i, rest⟩ := r
    have hdat : decodeAt s.dec.position s.unread = .ok (i, rest) := by rw [hpos]; exact hd
    have hblock : i.position = .block := (decodeAt_position hdat).trans hpos
    have hbytes := decodeBlock_length hd
    have h3 := three_le_length i
    have hend : s.dec.rd.toNat + i.length ≤ s.dec.job.n.toNat := by
      rw [State.unread_blk hp, readBytes_length] at hbytes
      omega
    rw [decodeBlocks_of_ok hd]
    rw [hat.atElement.decStep_of_ok hdat] at h
    by_cases hcap : s.dec.wr.toNat + i.count ≤ s.dec.job.cap.toNat
    · have hfits : BlockFits s i := .of_window hblock hend hcap (hi.dec.dst_inMemory hat.atElement.busy)
      rw [exec_of_fits hfits] at h
      cases h
      refine .inr ⟨hat.atElement.busy, ?_⟩
      rw [State.decodeLeft_blk (s := s.afterBlock i) hp, afterBlock_unread hi hp hfits hd, afterBlock_output hfits,
        afterBlock_rd hfits, decodeBlocks_fuel (fuel := s.fields.length) (by omega)]
      rfl
    · rw [exec_of_overflow hblock hend (by omega)] at h
      cases h
      refine .inl ⟨rfl, overflow_shows (decodeBlocks_extends ..) hhdr (by omega) ?_⟩
      rw [List.length_append, expand_length, State.output, readBytes_length]
      omega

/-- A step of a busy decoder keeps what is left to decode, or ends with what Decode answers. -/
theorem decStep_decodes {s t : State} (hi : Invariant s) (hbusy : s.dec.phase ≠ .idle) (h : decStep s = .next t) :
    (t.dec.phase = .idle ∧ t.Shows s.dec.job s.decodeLeft) ∨
    (t.dec.phase ≠ .idle ∧ t.decodeLeft = s.decodeLeft) := by
  have hsrc := hi.dec.src_inMemory hbusy
  cases hp : s.dec.phase with
  | idle => exact absurd hp hbusy
  | hdr =>
    have hunread := State.unread_hdr hp
    by_cases hn : 4 ≤ s.dec.job.n.toNat
    · have hd := decodeHeader_readBytes s.mem s.dec.job.src.toNat hn
      rw [decStep_hdr_of_long hp hsrc hn hd] at h
      cases h
      exact .inr ⟨nofun, afterHeader_decodeLeft hi hp (hunread ▸ hd)⟩
    · rw [decStep_hdr_of_short hp hsrc (by omega)] at h
      cases h
      rw [State.decodeLeft_hdr hp, decodeStream, decodeHeader_of_short (by rw [hunread, readBytes_length]; omega)]
      exact .inl ⟨rfl, raiseFault_shows ..⟩
  | blk =>
    by_cases hmore : s.dec.rd.toNat < s.dec.job.n.toNat
    · exact decStep_block_decodes hi ⟨hp, hmore, hsrc⟩ h
    · have hunread : s.unread = [] := by
        rw [← List.length_eq_zero_iff, State.unread_blk hp, readBytes_length]
        omega
      rw [decStep_of_end hp (by omega)] at h
      cases h
      rw [State.decodeLeft_blk hp, hunread, decodeBlocks_nil]
      exact .inl ⟨rfl, decCompletion_shows hi hp⟩

/-! ## A run of the decoder -/

/-- Listed steps of an idle decoder only come off the agenda. -/
theorem run_decStep_of_idle {k : Nat} {s : State} (hr : s.refused = false) (hp : s.dec.phase = .idle)
    (ha : s.agenda = List.replicate k .decStep) : core.run k s = .next { s with agenda := [] } := by
  induction k generalizing s with
  | zero =>
    rw [List.replicate_zero] at ha
    rw [← ha]
    rfl
  | succ k ih =>
    have hturn : s.decTurn := ⟨hr, .inl (by rw [ha, List.replicate_succ, List.head?_cons])⟩
    have hstep : step s = .next s.popped := by rw [step_decTurn hturn, decStep_of_idle (s := s.popped) hp]
    rw [run_succ hstep, ih (s := s.popped) hr hp (by rw [popped_agenda, ha, List.replicate_succ, List.tail_cons])]
    rfl

/-- A busy decoder with as many listed steps as it has left ends with what Decode answers. -/
theorem run_decodes {k : Nat} {s : State} (hi : Invariant s) (hr : s.refused = false) (hbusy : s.dec.phase ≠ .idle)
    (ha : s.agenda = List.replicate k .decStep) (hk : s.dec.stepsLeft ≤ k) :
    ∃ t, core.run k s = .next t ∧ t.dec.phase = .idle ∧ t.Shows s.dec.job s.decodeLeft := by
  induction k generalizing s with
  | zero =>
    have := DecEngine.stepsLeft_pos hbusy
    omega
  | succ k ih =>
    have hturn : s.decTurn := ⟨hr, .inl (by rw [ha, List.replicate_succ, List.head?_cons])⟩
    have htail : s.popped.agenda = List.replicate k .decStep := by
      rw [popped_agenda, ha, List.replicate_succ, List.tail_cons]
    obtain ⟨u, hu⟩ := decStep_next hi.popped.dec
    have hmoved := decStep_onlyDecoderMoved hu
    have hur : u.refused = false := hmoved.refused.trans hr
    have hua : u.agenda = List.replicate k .decStep := hmoved.agenda.trans htail
    have hless : u.dec.stepsLeft < s.dec.stepsLeft := decStep_stepsLeft_lt (s := s.popped) hbusy hu
    rw [run_succ ((step_decTurn hturn).trans hu)]
    rcases decStep_decodes hi.popped hbusy hu with ⟨hidle, hshows⟩ | ⟨hbusy', hleft⟩
    · exact ⟨_, run_decStep_of_idle hur hidle hua, hidle, hshows⟩
    · obtain ⟨t, hrun, hidle, hshows⟩ := ih (hi.popped.decStep hu) hur hbusy' hua (by omega)
      rw [hleft, hmoved.job] at hshows
      exact ⟨t, hrun, hidle, hshows⟩

/-- Settles O19: in phase HDR the whole stream is left to decode, and the agenda lists as many steps as the bound. -/
theorem decoderComputesDecode : Obligations.DecoderComputesDecode := by
  unfold Obligations.DecoderComputesDecode
  intro s hi hr hp ha
  obtain ⟨t, hrun, hidle, hshows⟩ := run_decodes hi hr (by simp [hp]) ha (DecEngine.stepsLeft_hdr hp).le
  rw [State.decodeLeft_hdr hp, State.unread_hdr hp] at hshows
  refine ⟨t, hrun, hidle, ?_⟩
  cases hres : decodeStream (s.mem.readBytes s.dec.job.src.toNat s.dec.job.n.toNat) with
  | ok hdr out => rwa [hres] at hshows
  | err code off => rwa [hres] at hshows

end Sys2Proof.Machine
end

section
/-! PROOFS. Decoding an encode gives the source back: one iteration emits blocks that denote a non-empty beginning of the
source left, so the blocks of all iterations denote the source, and Decode reads the blocks back (42_decoder.md R162,
43_encoder.md R182 to R198). -/

namespace Sys2Proof.Machine

/-! ## Runs -/

/-- The counted bytes are copies of `v`. -/
theorem take_leadingEqual (v : Byte) (cap : Nat) (bytes : List Byte) :
    bytes.take (leadingEqual v cap bytes) = List.replicate (leadingEqual v cap bytes) v := by
  refine List.eq_replicate_iff.mpr ⟨by simp [leadingEqual_le_length], fun b hb => ?_⟩
  obtain ⟨i, hi, rfl⟩ := List.mem_iff_getElem.mp hb
  rw [List.length_take] at hi
  have hv := leadingEqual_getElem? v cap bytes i (by omega)
  rw [List.getElem?_eq_getElem (by omega)] at hv
  rw [List.getElem_take]
  exact Option.some.inj hv

/-- Copies of `v` are all counted, up to the cap. -/
theorem leadingEqual_replicate (v : Byte) (cap n : Nat) : leadingEqual v cap (List.replicate n v) = min cap n := by
  induction cap generalizing n with
  | zero => simp [leadingEqual]
  | succ cap ih =>
    cases n with
    | zero => simp [leadingEqual]
    | succ n => rw [List.replicate_succ, leadingEqual, if_pos rfl, ih, Nat.succ_min_succ]

/-- Where the scan stops stands a run of the threshold's length (43_encoder.md R184). -/
theorem findRunFrom_run {fuel p start : Nat} {bytes : List Byte} (h : findRunFrom fuel p bytes = some start) :
    ∃ v tail, bytes.drop (start - p) = List.replicate Config.threshold v ++ tail := by
  induction fuel generalizing p bytes with
  | zero => cases h
  | succ fuel ih =>
    cases bytes with
    | nil => cases h
    | cons b bytes =>
      simp only [findRunFrom] at h
      split at h
      · cases h
      · split at h
        · rename_i hequal
          cases h
          refine ⟨b, bytes.drop (Config.threshold - 1), ?_⟩
          have htake := take_leadingEqual b (Config.threshold - 1) bytes
          rw [hequal] at htake
          have hrun : List.replicate Config.threshold b = b :: List.replicate (Config.threshold - 1) b := rfl
          rw [Nat.sub_self, List.drop_zero, hrun, ← htake, List.cons_append, List.take_append_drop]
        · have hle := (findRunFrom_bounds h).1
          obtain ⟨v, tail, hrun⟩ := ih h
          refine ⟨v, tail, ?_⟩
          have hoff : start - p = leadingEqual b (Config.threshold - 1) bytes +
              (start - (p + 1 + leadingEqual b (Config.threshold - 1) bytes)) + 1 := by omega
          rw [hoff, List.drop_succ_cons, ← List.drop_drop, hrun]

/-- A run that is found stands in the block. -/
theorem findRun_run {block : List Byte} {start : Nat} (h : findRun block = some start) :
    ∃ v tail, block.drop start = List.replicate Config.threshold v ++ tail := findRunFrom_run h

/-- Equal bytes of the threshold's number are found as a run. -/
theorem findRun_replicate (v : Byte) {n : Nat} (h : Config.threshold ≤ n) : findRun (List.replicate n v) = some 0 := by
  obtain ⟨k, rfl⟩ : ∃ k, n = k + 1 := ⟨n - 1, by simp only [Config.threshold] at h; omega⟩
  rw [findRun, List.length_replicate, List.replicate_succ, findRunFrom, if_neg (by simpa using h)]
  simp only [leadingEqual_replicate]
  rw [if_pos (by omega)]

/-- In a block with no run some byte differs from the last, and the trim stops there (43_encoder.md R188). -/
theorem trimBoundary_pos {block : List Byte} (hlen : Config.threshold ≤ block.length) (hrun : findRun block = none) :
    0 < trimBoundary block := by
  cases hrev : block.reverse with
  | nil =>
    rw [List.reverse_eq_nil_iff.mp hrev] at hlen
    cases hlen
  | cons last others =>
    rw [trimBoundary, hrev]
    simp only
    rw [← hrev]
    refine Nat.pos_of_ne_zero fun hzero => ?_
    have hle := leadingEqual_le_length last block.length block.reverse
    rw [List.length_reverse] at hle
    have hall : leadingEqual last block.length block.reverse = block.length := by omega
    have htake := take_leadingEqual last block.length block.reverse
    rw [hall, List.take_of_length_le (by rw [List.length_reverse])] at htake
    have hblock : block = List.replicate block.length last := by
      rw [← List.reverse_reverse block, htake, List.reverse_replicate, List.length_replicate]
    rw [hblock, findRun_replicate last hlen] at hrun
    cases hrun

/-! ## Emitted blocks -/

/-- A block that the encoder emits with MaxBlockSize `M` (43_encoder.md R195). -/
def Instr.Emitted (M : Nat) : Instr → Prop
  | .hdr _ => False
  | .rpt count _ => Config.threshold ≤ count.toNat ∧ count.toNat ≤ M
  | .lit payload => 1 ≤ payload.length ∧ payload.length ≤ M

theorem Instr.Emitted.count_pos {M : Nat} {i : Instr} (h : Emitted M i) : 0 < i.count := by
  cases i with
  | hdr length => exact h.elim
  | rpt count value => exact Nat.lt_of_lt_of_le (by decide) h.1
  | lit payload => exact h.1

theorem Instr.Emitted.position {M : Nat} {i : Instr} (h : Emitted M i) : i.position = .block := by
  cases i with
  | hdr length => exact h.elim
  | rpt count value => rfl
  | lit payload => rfl

theorem Instr.Emitted.wellFormed {M : Nat} {i : Instr} (h : Emitted M i) (hM : M ≤ 65535) : i.wellFormed = true := by
  cases i with
  | hdr length => rfl
  | rpt count value => rfl
  | lit payload => exact decide_eq_true (Nat.lt_succ_of_le (h.2.trans hM))

/-- Blocks denote as many bytes as they cover. -/
@[simp] theorem length_flatMap_expand (blocks : List Instr) : (blocks.flatMap Instr.expand).length = covered blocks := by
  simp [covered, List.length_flatMap]

/-- Literal blocks denote their bytes. -/
@[simp] theorem flatMap_expand_literalBlocks (lit : List Byte) : (literalBlocks lit).flatMap Instr.expand = lit := by
  cases lit <;> simp [literalBlocks]

theorem emitted_literalBlocks {M : Nat} {lit : List Byte} (h : lit.length ≤ M) :
    ∀ b ∈ literalBlocks lit, Instr.Emitted M b := by
  cases lit with
  | nil => simp [literalBlocks]
  | cons b bytes => simpa [literalBlocks, Instr.Emitted] using h

/-- A block holds no more than MaxBlockSize bytes. -/
theorem blockSize_le (M : Nat) (rest : List Byte) : blockSize M rest ≤ M := Nat.min_le_right ..

/-- At a run start one repeat block is emitted, and it denotes bytes that stand there (43_encoder.md R190, R191). -/
theorem repeatBlocks_run {M : Nat} (hlo : Config.threshold ≤ M) (hhi : M ≤ 65535) (v : Byte) (tail : List Byte) :
    ∃ count : Count, Instr.Emitted M (.rpt count v) ∧
      repeatBlocks M (List.replicate Config.threshold v ++ tail) = [.rpt count v] ∧
      List.replicate count.toNat v <+: List.replicate Config.threshold v ++ tail := by
  obtain ⟨k, hk⟩ : ∃ k, k = leadingEqual v
      (blockSize M (List.replicate Config.threshold v ++ tail) - Config.threshold) tail := ⟨_, rfl⟩
  have hle : Config.threshold + k ≤ M := by
    have hcap := leadingEqual_le_cap v
      (blockSize M (List.replicate Config.threshold v ++ tail) - Config.threshold) tail
    have hblock := blockSize_le M (List.replicate Config.threshold v ++ tail)
    rw [← hk] at hcap
    omega
  have hcount : (BitVec.ofNat 16 (Config.threshold + k)).toNat = Config.threshold + k :=
    (BitVec.toNat_ofNat ..).trans (Nat.mod_eq_of_lt (by omega))
  refine ⟨BitVec.ofNat 16 (Config.threshold + k), ⟨by omega, by omega⟩, ?_, ?_⟩
  · rw [hk]
    rfl
  · rw [hcount, ← List.replicate_append_replicate, List.prefix_append_right_inj, hk, ← take_leadingEqual]
    exact List.take_prefix ..

/-! ## One iteration -/

theorem blockSize_le_length (M : Nat) (rest : List Byte) : blockSize M rest ≤ rest.length := Nat.min_le_left ..

theorem length_take_blockSize (M : Nat) (rest : List Byte) : (rest.take (blockSize M rest)).length = blockSize M rest :=
  List.length_take_of_le (blockSize_le_length M rest)

theorem prefixLength_of_run {M start : Nat} {rest : List Byte}
    (h : findRun (rest.take (blockSize M rest)) = some start) : prefixLength M rest = start := by
  simp only [prefixLength, h]

/-- The bytes before the run, or the literal piece where there is none, stay within the block. -/
theorem prefixLength_le_blockSize (M : Nat) (rest : List Byte) : prefixLength M rest ≤ blockSize M rest := by
  have hblock := length_take_blockSize M rest
  simp only [prefixLength]
  split
  · rename_i start hrun
    have := findRun_bound hrun
    omega
  · split
    · exact Nat.le_refl _
    · exact (trimBoundary_le _).trans hblock.le

/-- Where the block has no run the literal piece is not empty (43_encoder.md R193). -/
theorem prefixLength_pos_of_noRun {M : Nat} {rest : List Byte} (hlo : Config.threshold ≤ M) (hrest : rest ≠ [])
    (h : findRun (rest.take (blockSize M rest)) = none) : 0 < prefixLength M rest := by
  simp only [prefixLength, h]
  split
  · rename_i hall
    rw [hall]
    exact List.length_pos_iff.mpr hrest
  · rename_i hpart
    refine trimBoundary_pos ?_ h
    rw [length_take_blockSize]
    simp only [blockSize] at hpart ⊢
    omega

/-- An iteration over a block with no run emits its literal piece. -/
theorem iteration_of_noRun {M : Nat} {rest : List Byte} (h : findRun (rest.take (blockSize M rest)) = none) :
    iteration M rest = literalBlocks (rest.take (prefixLength M rest)) := by
  simp only [iteration, h, List.append_nil]

/-- An iteration over a block with a run emits the bytes before the run and one repeat block, whose bytes stand there. -/
theorem iteration_of_run {M start : Nat} {rest : List Byte} (hlo : Config.threshold ≤ M) (hhi : M ≤ 65535)
    (h : findRun (rest.take (blockSize M rest)) = some start) :
    ∃ (count : Count) (v : Byte), Instr.Emitted M (.rpt count v) ∧
      iteration M rest = literalBlocks (rest.take start) ++ [.rpt count v] ∧
      List.replicate count.toNat v <+: rest.drop start := by
  obtain ⟨v, tail, hrun⟩ := findRun_run h
  have hbound := findRun_bound h
  have hdrop : rest.drop start = List.replicate Config.threshold v ++ (tail ++ rest.drop (blockSize M rest)) := by
    rw [← List.append_assoc, ← hrun, ← List.drop_append_of_le_length (by omega), List.take_append_drop]
  obtain ⟨count, hemitted, hrepeat, hprefix⟩ := repeatBlocks_run hlo hhi v (tail ++ rest.drop (blockSize M rest))
  refine ⟨count, v, hemitted, ?_, hdrop ▸ hprefix⟩
  rw [← hdrop] at hrepeat
  simp only [iteration, h, prefixLength_of_run h, hrepeat]

/-- The blocks of an iteration have the counts of R195. -/
theorem emitted_iteration {M : Nat} (hlo : Config.threshold ≤ M) (hhi : M ≤ 65535) (rest : List Byte) :
    ∀ b ∈ iteration M rest, Instr.Emitted M b := by
  have hlit : ∀ b ∈ literalBlocks (rest.take (prefixLength M rest)), Instr.Emitted M b :=
    emitted_literalBlocks ((List.length_take_le ..).trans
      ((prefixLength_le_blockSize M rest).trans (blockSize_le M rest)))
  cases hrun : findRun (rest.take (blockSize M rest)) with
  | none => rwa [iteration_of_noRun hrun]
  | some start =>
    obtain ⟨count, v, hemitted, hblocks, -⟩ := iteration_of_run hlo hhi hrun
    rw [prefixLength_of_run hrun] at hlit
    rw [hblocks]
    exact List.forall_mem_append.mpr ⟨hlit, List.forall_mem_singleton.mpr hemitted⟩

/-- The blocks of an iteration denote the beginning of the source left. -/
theorem iteration_prefix {M : Nat} (hlo : Config.threshold ≤ M) (hhi : M ≤ 65535) (rest : List Byte) :
    (iteration M rest).flatMap Instr.expand <+: rest := by
  cases hrun : findRun (rest.take (blockSize M rest)) with
  | none =>
    rw [iteration_of_noRun hrun, flatMap_expand_literalBlocks]
    exact List.take_prefix ..
  | some start =>
    obtain ⟨count, v, -, hblocks, hprefix⟩ := iteration_of_run hlo hhi hrun
    rw [hblocks, List.flatMap_append, flatMap_expand_literalBlocks, List.flatMap_singleton, expand_rpt]
    conv => rhs; rw [← List.take_append_drop start rest]
    exact (List.prefix_append_right_inj _).mpr hprefix

/-- An iteration covers at least one byte (43_encoder.md R193). -/
theorem covered_iteration_pos {M : Nat} (hlo : Config.threshold ≤ M) (hhi : M ≤ 65535) {rest : List Byte}
    (hrest : rest ≠ []) : 0 < covered (iteration M rest) := by
  cases hrun : findRun (rest.take (blockSize M rest)) with
  | none =>
    have hpos := prefixLength_pos_of_noRun hlo hrest hrun
    have hlen := List.length_pos_iff.mpr hrest
    rw [iteration_of_noRun hrun, covered_literalBlocks, List.length_take]
    omega
  | some start =>
    obtain ⟨count, v, hemitted, hblocks, -⟩ := iteration_of_run hlo hhi hrun
    have hpos := hemitted.count_pos
    rw [hblocks, covered_append, covered_cons]
    omega

/-! ## All iterations -/

theorem partitionFrom_nil (fuel M : Nat) : partitionFrom fuel M [] = [] := by
  cases fuel <;> rfl

/-- The blocks of a non-empty source are those of one iteration and of what it leaves. -/
theorem partitionFrom_succ (fuel M : Nat) {rest : List Byte} (h : rest ≠ []) :
    partitionFrom (fuel + 1) M rest =
      iteration M rest ++ partitionFrom fuel M (rest.drop (covered (iteration M rest))) := by
  cases rest with
  | nil => exact absurd rfl h
  | cons b bytes => rfl

/-- All blocks have the counts of R195. -/
theorem emitted_partitionFrom {M : Nat} (hlo : Config.threshold ≤ M) (hhi : M ≤ 65535) (fuel : Nat)
    (rest : List Byte) : ∀ b ∈ partitionFrom fuel M rest, Instr.Emitted M b := by
  induction fuel generalizing rest with
  | zero => intro b hb; cases hb
  | succ fuel ih =>
    by_cases hrest : rest = []
    · rw [hrest, partitionFrom_nil]
      intro b hb
      cases hb
    · rw [partitionFrom_succ fuel M hrest]
      exact List.forall_mem_append.mpr ⟨emitted_iteration hlo hhi rest, ih _⟩

/-- The blocks of all iterations denote the source (43_encoder.md R198). -/
theorem partitionFrom_expand {M : Nat} (hlo : Config.threshold ≤ M) (hhi : M ≤ 65535) {fuel : Nat} {rest : List Byte}
    (hfuel : rest.length ≤ fuel) : (partitionFrom fuel M rest).flatMap Instr.expand = rest := by
  induction fuel generalizing rest with
  | zero =>
    rw [List.length_eq_zero_iff.mp (Nat.le_zero.mp hfuel)]
    rfl
  | succ fuel ih =>
    by_cases hrest : rest = []
    · rw [hrest, partitionFrom_nil, List.flatMap_nil]
    · have hpos := covered_iteration_pos hlo hhi hrest
      have hshort : (rest.drop (covered (iteration M rest))).length ≤ fuel := by
        rw [List.length_drop]
        omega
      rw [partitionFrom_succ fuel M hrest, List.flatMap_append, ih hshort, ← length_flatMap_expand]
      exact List.prefix_iff_eq_append.mp (iteration_prefix hlo hhi rest)

/-! ## Decoding the blocks -/

/-- Decode reads every block back and appends what it denotes. -/
theorem decodeBlocks_assemble {blocks : List Instr}
    (hblocks : ∀ b ∈ blocks, b.wellFormed = true ∧ b.position = .block) {fuel : Nat}
    (hfuel : (assemble blocks).length ≤ fuel) (hdr : Word) (off : Nat) (out : List Byte) :
    decodeBlocks fuel hdr off (assemble blocks) out = .ok hdr (out ++ blocks.flatMap Instr.expand) := by
  induction blocks generalizing fuel off out with
  | nil => rw [List.flatMap_nil, List.append_nil]; exact decodeBlocks_nil ..
  | cons b blocks ih =>
    obtain ⟨⟨hwf, hpos⟩, hblocks⟩ := List.forall_mem_cons.1 hblocks
    have hdecode : decodeBlock (assemble (b :: blocks)) = .ok (b, assemble blocks) := by
      have h := decodeOfEncodeIsIdentity b (assemble blocks) hwf
      rwa [hpos] at h
    have hlen := decodeBlock_length hdecode
    have h3 := three_le_length b
    obtain ⟨fuel, rfl⟩ : ∃ k, fuel = k + 1 := ⟨fuel - 1, by omega⟩
    rw [decodeBlocks_of_ok hdecode, ih hblocks (by omega), List.flatMap_cons, List.append_assoc]

/-- Decode of a header and well-formed blocks is what the blocks denote. -/
theorem decodeStream_assemble (length : Word) {blocks : List Instr}
    (hblocks : ∀ b ∈ blocks, b.wellFormed = true ∧ b.position = .block) :
    decodeStream (assemble (.hdr length :: blocks)) = .ok length (blocks.flatMap Instr.expand) := by
  have hheader : decodeHeader (assemble (.hdr length :: blocks)) = .ok (.hdr length, assemble blocks) :=
    decodeHeader_enc32 length (assemble blocks)
  rw [decodeStream, hheader]
  exact decodeBlocks_assemble hblocks (Nat.le_refl _) length 4 []

/-- Settles O35: an encode is the assembly of a header and the blocks of the source, which denote it. -/
theorem decodeOfEncodeRoundTrip : Obligations.DecodeOfEncodeRoundTrip := by
  unfold Obligations.DecodeOfEncodeRoundTrip
  intro M source hlo hhi hlen
  have hblocks : ∀ b ∈ partitionSource M source, b.wellFormed = true ∧ b.position = .block := fun b hb => by
    have hemitted := emitted_partitionFrom hlo hhi source.length source b hb
    exact ⟨hemitted.wellFormed hhi, hemitted.position⟩
  have hexpand : (partitionSource M source).flatMap Instr.expand = source :=
    partitionFrom_expand hlo hhi (Nat.le_refl _)
  have hdecode := decodeStream_assemble (Word.ofNat source.length) hblocks
  rw [hexpand] at hdecode
  have hhdr : (Word.ofNat source.length).toNat = source.length :=
    (BitVec.toNat_ofNat ..).trans (Nat.mod_eq_of_lt hlen)
  refine ⟨Word.ofNat source.length, hdecode, hhdr, fun s hs hwr => ?_⟩
  have heq : s.dec.wr = s.dec.hdr := BitVec.eq_of_toNat_eq (by rw [hwr, hs, hhdr])
  exact decide_eq_false (not_not.mpr heq)

end Sys2Proof.Machine
end

section
/-! PROOFS. Busy engines finish: with nothing on the agenda every step takes one of the busy engines nearer to its end
(42_decoder.md R159, 43_encoder.md R203, 70_reset_and_hazards.md R269). -/

namespace Sys2Proof.Machine

/-! ## The steps left of the encoder -/

/-- The steps an encoder takes at most until it is idle (43_encoder.md R203). -/
def EncEngine.stepsLeft (d : EncEngine) : Nat :=
  match d.phase with
  | .idle => 0
  | .hdr => encodeStepBound d.job.n.toNat
  | .iter => 1 + (d.job.n.toNat - d.pos.toNat)

theorem EncEngine.stepsLeft_idle {d : EncEngine} (h : d.phase = .idle) : d.stepsLeft = 0 := by
  simp only [EncEngine.stepsLeft, h]

theorem EncEngine.stepsLeft_hdr {d : EncEngine} (h : d.phase = .hdr) : d.stepsLeft = d.job.n.toNat + 2 := by
  simp only [EncEngine.stepsLeft, h, encodeStepBound]

theorem EncEngine.stepsLeft_iter {d : EncEngine} (h : d.phase = .iter) :
    d.stepsLeft = 1 + (d.job.n.toNat - d.pos.toNat) := by
  simp only [EncEngine.stepsLeft, h]

/-- A busy encoder has a step left. -/
theorem EncEngine.stepsLeft_pos {d : EncEngine} (h : d.phase ≠ .idle) : 0 < d.stepsLeft := by
  cases hp : d.phase with
  | idle => exact absurd hp h
  | hdr => rw [d.stepsLeft_hdr hp]; omega
  | iter => rw [d.stepsLeft_iter hp]; omega

/-- The steps left are within the bound of R203. -/
theorem EncEngine.stepsLeft_le (d : EncEngine) : d.stepsLeft ≤ encodeStepBound d.job.n.toNat := by
  rw [encodeStepBound]
  cases hp : d.phase with
  | idle => rw [d.stepsLeft_idle hp]; exact Nat.zero_le _
  | hdr => rw [d.stepsLeft_hdr hp]
  | iter => rw [d.stepsLeft_iter hp]; omega

/-- Emitting blocks ends the operation or moves the position past the bytes they cover. -/
theorem emitBlocks_pos {bs : List Instr} {s t : State} (hcov : s.enc.pos.toNat + covered bs ≤ s.enc.job.n.toNat)
    (h : emitBlocks bs s = .next t) :
    t.enc.phase = .idle ∨ (t.enc.phase = s.enc.phase ∧ t.enc.pos.toNat = s.enc.pos.toNat + covered bs) := by
  induction bs generalizing s with
  | nil =>
    cases h
    exact .inr ⟨rfl, rfl⟩
  | cons b bs ih =>
    rw [covered_cons, ← Nat.add_assoc] at hcov ⊢
    rcases emitBlocks_cons_next h with rfl | ⟨-, h⟩
    · exact .inl rfl
    · have hpos := afterEncodedBlock_pos (s := s) (b := b) (by omega)
      rw [← hpos] at hcov ⊢
      exact ih hcov h

/-- A busy encoder has a legal MaxBlockSize (41_control.md R132). -/
theorem EncInv.threshold_le_maxblk {s : State} (h : EncInv s) (hp : s.enc.phase ≠ .idle) :
    Config.threshold ≤ s.enc.maxblk.toNat :=
  Nat.le_of_not_lt fun hlt => h.accepted hp (.inl hlt)

/-- Every step of a busy encoder leaves it fewer steps. -/
theorem encStep_stepsLeft_lt {s t : State} (hi : EncInv s) (hbusy : s.enc.phase ≠ .idle) (h : encStep s = .next t) :
    t.enc.stepsLeft < s.enc.stepsLeft := by
  have hpositive := EncEngine.stepsLeft_pos hbusy
  have hjob := (encStep_onlyEncoderMoved h).job
  rcases encStep_cases h with ⟨hp, -⟩ | ⟨-, -, rfl⟩ | ⟨hp, -, -, rfl⟩ | ⟨hp, hpos, h⟩ | ⟨-, -, rfl⟩
  · exact absurd hp hbusy
  · rwa [EncEngine.stepsLeft_idle rfl]
  · have hafter : s.afterEncodedHeader.enc.stepsLeft = 1 + s.enc.job.n.toNat := rfl
    rw [hafter, EncEngine.stepsLeft_hdr hp]
    omega
  · have hlen : s.sourceLeft.length = s.enc.job.n.toNat - s.enc.pos.toNat := readBytes_length ..
    have hcov := covered_iteration_le s.enc.maxblk.toNat s.sourceLeft
    have hprogress := covered_iteration_pos (hi.threshold_le_maxblk hbusy) (Nat.le_of_lt_succ s.enc.maxblk.isLt)
      (rest := s.sourceLeft) (by rw [← List.length_pos_iff]; omega)
    rcases emitBlocks_pos (by omega) h with hidle | ⟨hphase, hmoved⟩
    · rwa [EncEngine.stepsLeft_idle hidle]
    · rw [EncEngine.stepsLeft_iter hp, EncEngine.stepsLeft_iter (hphase.trans hp), hjob, hmoved]
      omega
  · rwa [EncEngine.stepsLeft_idle rfl]

/-! ## A run with nothing on the agenda -/

/-- With both engines idle and nothing on the agenda a step changes nothing. -/
theorem step_of_rest {s : State} (hr : s.refused = false) (ha : s.agenda = []) (hd : s.dec.phase = .idle)
    (he : s.enc.phase = .idle) : step s = .next s := by
  rw [step_eq_runNext hr, runNext, ha]
  simp only [runEngines, hd, he, ne_eq, not_true_eq_false, if_false]

/-- As many steps as both engines have left bring both to rest. -/
theorem run_finishes {k : Nat} {s : State} (hs : Safe s) (ha : s.agenda = [])
    (hk : s.dec.stepsLeft + s.enc.stepsLeft ≤ k) :
    ∃ t, core.run k s = .next t ∧ t.enc.phase = .idle ∧ t.dec.phase = .idle := by
  induction k generalizing s with
  | zero =>
    refine ⟨s, rfl, of_not_not fun hbusy => ?_, of_not_not fun hbusy => ?_⟩
    · have := EncEngine.stepsLeft_pos hbusy
      omega
    · have := DecEngine.stepsLeft_pos hbusy
      omega
  | succ k ih =>
    by_cases hd : s.dec.phase = .idle
    · by_cases he : s.enc.phase = .idle
      · rw [run_succ (step_of_rest hs.meaningful ha hd he)]
        refine ih hs ha ?_
        rw [DecEngine.stepsLeft_idle hd, EncEngine.stepsLeft_idle he]
        exact Nat.zero_le k
      · obtain ⟨u, hu⟩ := encStep_next hs.inv.enc
        have hmoved := encStep_onlyEncoderMoved hu
        have hless := encStep_stepsLeft_lt hs.inv.enc he hu
        have hstep : step s = .next u := by
          rw [step_encTurn ⟨hs.meaningful, .inr ⟨ha, hd, he⟩⟩, popped_of_nil ha, hu]
        rw [run_succ hstep]
        refine ih ⟨hmoved.refused.trans hs.meaningful, hs.inv.encStep hu⟩ (hmoved.agenda.trans ha) ?_
        rw [hmoved.dec]
        omega
    · obtain ⟨u, hu⟩ := decStep_next hs.inv.dec
      have hmoved := decStep_onlyDecoderMoved hu
      have hless := decStep_stepsLeft_lt hd hu
      have hstep : step s = .next u := by
        rw [step_decTurn ⟨hs.meaningful, .inr ⟨ha, hd⟩⟩, popped_of_nil ha, hu]
      rw [run_succ hstep]
      refine ih ⟨hmoved.refused.trans hs.meaningful, hs.inv.decStep hu⟩ (hmoved.agenda.trans ha) ?_
      rw [hmoved.enc]
      omega

/-- Settles O58: the steps that each engine has left are within its bound. -/
theorem busyEnginesFinish : Obligations.BusyEnginesFinish := by
  unfold Obligations.BusyEnginesFinish
  intro s hs ha
  exact run_finishes hs ha (Nat.add_le_add hs.inv.dec.stepsLeft_le s.enc.stepsLeft_le)

end Sys2Proof.Machine
end

section
/-! PROOFS. The blocks of a whole source: one iteration and the blocks of what it leaves, whatever the bound, so that they
cover the source in order, with the counts and the size that the rules give (43_encoder.md R193 to R201). -/

namespace Sys2Proof.Machine

/-! ## One iteration after the other -/

/-- Every bound that is not below the number of bytes gives the same blocks (43_encoder.md R193). -/
theorem partitionFrom_eq_partitionSource {M : Nat} (hlo : Config.threshold ≤ M) (hhi : M ≤ 65535) {fuel : Nat}
    {rest : List Byte} (hfuel : rest.length ≤ fuel) : partitionFrom fuel M rest = partitionSource M rest := by
  suffices hsame : ∀ fuel' : Nat, rest.length ≤ fuel' → partitionFrom fuel M rest = partitionFrom fuel' M rest from
    hsame rest.length (Nat.le_refl _)
  induction fuel generalizing rest with
  | zero =>
    intro fuel' _
    rw [List.length_eq_zero_iff.mp (Nat.le_zero.mp hfuel), partitionFrom_nil, partitionFrom_nil]
  | succ fuel ih =>
    intro fuel' hfuel'
    by_cases hrest : rest = []
    · rw [hrest, partitionFrom_nil, partitionFrom_nil]
    · have hlen := List.length_pos_iff.mpr hrest
      have hpos := covered_iteration_pos hlo hhi hrest
      obtain ⟨fuel', rfl⟩ : ∃ k, fuel' = k + 1 := ⟨fuel' - 1, by omega⟩
      have hleft : (rest.drop (covered (iteration M rest))).length + covered (iteration M rest) = rest.length := by
        have := covered_iteration_le M rest
        rw [List.length_drop]
        omega
      rw [partitionFrom_succ fuel M hrest, partitionFrom_succ fuel' M hrest, ih (by omega) fuel' (by omega)]

@[simp] theorem partitionSource_nil (M : Nat) : partitionSource M [] = [] := rfl

/-- The blocks of a source that is not empty are those of one iteration and those of the bytes it leaves. -/
theorem partitionSource_eq {M : Nat} (hlo : Config.threshold ≤ M) (hhi : M ≤ 65535) {rest : List Byte}
    (hrest : rest ≠ []) :
    partitionSource M rest = iteration M rest ++ partitionSource M (rest.drop (covered (iteration M rest))) := by
  have hfuel : rest.length ≤ rest.length + 1 := Nat.le_succ _
  have hleft : (rest.drop (covered (iteration M rest))).length ≤ rest.length := by
    rw [List.length_drop]
    exact Nat.sub_le ..
  rw [← partitionFrom_eq_partitionSource hlo hhi hfuel, partitionFrom_succ _ M hrest,
    partitionFrom_eq_partitionSource hlo hhi hleft]

/-- The induction along the iterations: what holds of the empty source, and of a source if it holds of the bytes that one
iteration leaves, holds of every source. -/
theorem iteration_induction {M : Nat} (hlo : Config.threshold ≤ M) (hhi : M ≤ 65535) {P : List Byte → Prop}
    (nil : P []) (next : ∀ rest, rest ≠ [] → P (rest.drop (covered (iteration M rest))) → P rest) (rest : List Byte) :
    P rest := by
  by_cases hrest : rest = []
  · rw [hrest]
    exact nil
  · exact next rest hrest (iteration_induction hlo hhi nil next _)
termination_by rest.length
decreasing_by
  have := covered_iteration_pos hlo hhi hrest
  have := List.length_pos_iff.mpr hrest
  rw [List.length_drop]
  omega

/-- Settles O28: each iteration covers between 1 byte and all of them, so no bound from the length on is used up. -/
theorem iterationMakesProgress : Obligations.IterationMakesProgress := by
  unfold Obligations.IterationMakesProgress
  intro M rest hlo hhi hrest
  refine ⟨covered_iteration_pos hlo hhi hrest, covered_iteration_le M rest, fun bound hbound => ?_⟩
  rw [partitionFrom_eq_partitionSource hlo hhi hbound, partitionSource_eq hlo hhi hrest]

/-! ## What the blocks cover -/

/-- The blocks denote the source, in order (43_encoder.md R198). -/
theorem partitionSource_expand {M : Nat} (hlo : Config.threshold ≤ M) (hhi : M ≤ 65535) (source : List Byte) :
    (partitionSource M source).flatMap Instr.expand = source := partitionFrom_expand hlo hhi (Nat.le_refl _)

/-- Settles O30. -/
theorem blocksPartitionSource : Obligations.BlocksPartitionSource := by
  unfold Obligations.BlocksPartitionSource
  exact fun M source hlo hhi => partitionSource_expand hlo hhi source

/-- The blocks cover as many bytes as the source has. -/
theorem covered_partitionSource {M : Nat} (hlo : Config.threshold ≤ M) (hhi : M ≤ 65535) (source : List Byte) :
    covered (partitionSource M source) = source.length := by
  rw [← length_flatMap_expand, partitionSource_expand hlo hhi]

/-- A block denotes the slice of the source that the blocks before it leave to it. -/
theorem partitionSource_slice {M : Nat} (hlo : Config.threshold ≤ M) (hhi : M ≤ 65535) {source : List Byte}
    {before after : List Instr} {b : Instr} (h : partitionSource M source = before ++ b :: after) :
    (source.drop (covered before)).take b.count = b.expand := by
  have hsource := partitionSource_expand hlo hhi source
  rw [h, List.flatMap_append, List.flatMap_cons] at hsource
  rw [← hsource, List.drop_left' (length_flatMap_expand before), List.take_left' (expand_length b)]

/-- All blocks have the counts of R195. -/
theorem emitted_partitionSource {M : Nat} (hlo : Config.threshold ≤ M) (hhi : M ≤ 65535) (source : List Byte) :
    ∀ b ∈ partitionSource M source, Instr.Emitted M b := emitted_partitionFrom hlo hhi source.length source

/-- Settles O29. -/
theorem blockCountRanges : Obligations.BlockCountRanges := by
  unfold Obligations.BlockCountRanges
  intro M source hlo hhi
  refine ⟨fun b hb => ?_, fun before after count value h => partitionSource_slice hlo hhi h⟩
  have hemitted := emitted_partitionSource hlo hhi source b hb
  cases b with
  | hdr length => exact hemitted.elim
  | rpt count value => exact .inr ⟨count, value, rfl, hemitted⟩
  | lit payload => exact .inl ⟨payload, rfl, hemitted⟩

/-! ## The literal piece where there is no run -/

/-- The last block of a source, with no run, is its own literal piece (43_encoder.md R186). -/
theorem prefixLength_of_last {M : Nat} {rest : List Byte} (h : findRun (rest.take (blockSize M rest)) = none)
    (hall : blockSize M rest = rest.length) : prefixLength M rest = rest.length := by
  simp only [prefixLength, h, if_pos hall]
  exact hall

/-- Any other block with no run is trimmed (43_encoder.md R187). -/
theorem prefixLength_of_trim {M : Nat} {rest : List Byte} (h : findRun (rest.take (blockSize M rest)) = none)
    (hpart : blockSize M rest ≠ rest.length) : prefixLength M rest = trimBoundary (rest.take (blockSize M rest)) := by
  simp only [prefixLength, h, if_neg hpart]

/-! ## Sizes -/

/-- A block has at most 4 bytes for each byte it covers (43_encoder.md R201). -/
theorem Instr.Emitted.length_le {M : Nat} {i : Instr} (h : Emitted M i) : i.length ≤ 4 * i.count := by
  cases i with
  | hdr length => exact h.elim
  | rpt count value =>
    have := h.1
    simp only [Config.threshold, Instr.length, Instr.count] at *
    omega
  | lit payload =>
    have := h.1
    simp only [Instr.length, Instr.count]
    omega

/-- Blocks together have at most 4 bytes for each byte they cover. -/
theorem length_flatMap_encode_le {M : Nat} {blocks : List Instr} (h : ∀ b ∈ blocks, Instr.Emitted M b) :
    (blocks.flatMap encode).length ≤ 4 * covered blocks := by
  induction blocks with
  | nil => exact Nat.le_refl _
  | cons b blocks ih =>
    obtain ⟨hb, hblocks⟩ := List.forall_mem_cons.mp h
    have := hb.length_le
    have := ih hblocks
    rw [List.flatMap_cons, List.length_append, encode_length, covered_cons]
    omega

/-- A stream has the 4 bytes of its header and those of its blocks. -/
theorem length_encodeStream (source : List Byte) (M : Nat) :
    (encodeStream source M).length = 4 + ((partitionSource M source).flatMap encode).length := by
  rw [encodeStream, List.length_append, encode_length]
  rfl

/-- A source with no room for a run is one literal block (43_encoder.md R186). -/
theorem partitionSource_of_short {M : Nat} (hlo : Config.threshold ≤ M) (hhi : M ≤ 65535) {source : List Byte}
    (hpos : 1 ≤ source.length) (hshort : source.length < Config.threshold) : partitionSource M source = [.lit source] := by
  have hsize : blockSize M source = source.length := Nat.min_eq_left (by omega)
  have hrun : findRun (source.take (blockSize M source)) = none := by
    rw [hsize, List.take_length]
    refine Option.eq_none_iff_forall_not_mem.mpr fun start hstart => ?_
    have := findRun_bound hstart
    omega
  have hprefix := prefixLength_of_last hrun hsize
  have hiteration : iteration M source = [.lit source] := by
    rw [iteration_of_noRun hrun, hprefix, List.take_length]
    cases source with
    | nil => cases hpos
    | cons b bytes => rfl
  have hall : covered [.lit source] = source.length := rfl
  rw [partitionSource_eq hlo hhi (List.length_pos_iff.mp hpos), hiteration, hall, List.drop_length, partitionSource_nil,
    List.append_nil]

/-- Settles O33. -/
theorem shortSourceIsLiteral : Obligations.ShortSourceIsLiteral := by
  unfold Obligations.ShortSourceIsLiteral
  intro M source hlo hhi
  refine ⟨fun hnil => ?_, partitionSource_of_short hlo hhi⟩
  rw [hnil, encodeStream, partitionSource_nil]
  decide

/-- Settles O34: each block keeps within 4 bytes for each byte it covers, and one byte is a literal block of 4 bytes. -/
theorem encodedSizeBound : Obligations.EncodedSizeBound := by
  unfold Obligations.EncodedSizeBound
  intro M source hlo hhi
  refine ⟨?_, fun hone => ?_⟩
  · have := length_flatMap_encode_le (emitted_partitionSource hlo hhi source)
    rw [covered_partitionSource hlo hhi] at this
    rw [length_encodeStream]
    omega
  · have hblocks := partitionSource_of_short hlo hhi (source := source) (by omega) (by rw [hone]; decide)
    rw [length_encodeStream, hblocks, List.flatMap_singleton, encode_length, Instr.length, hone]

end Sys2Proof.Machine
end

section
/-! PROOFS. The steps of the encoder engine: the header, the blocks of one iteration, the completion (43_encoder.md R181,
R202, 60_exceptions.md R235, R239). -/

namespace Sys2Proof.Machine

/-! ## The header and the completion -/

/-- In phase HDR a step of the encoder is the header step. -/
theorem encStep_hdr {s : State} (h : s.enc.phase = .hdr) : encStep s = encHeaderStep s := by
  rw [encStep, h]

/-- A capacity below the header's 4 bytes ends the operation (43_encoder.md R202). -/
theorem encHeaderStep_of_overflow {s : State} (h : s.enc.job.cap.toNat < 4) :
    encHeaderStep s = .next (s.raiseFault .enc .overflow 0#32) := by
  rw [encHeaderStep, if_pos h]

/-- Settles O36: from a capacity of 4 on the header fits, and it lies in M where the DST window does. -/
theorem encoderHeaderStep : Obligations.EncoderHeaderStep := by
  unfold Obligations.EncoderHeaderStep
  intro s hturn hp hdst
  rw [step_encTurn hturn, encStep_hdr (s := s.popped) hp]
  refine ⟨encHeaderStep_of_overflow (s := s.popped), fun hcap => ?_⟩
  simp only [Latched.dstWindow, Window.inMemory] at hdst
  exact encHeaderStep_of_fits (s := s.popped) hcap (by simp only [popped_enc]; omega)

/-- With the whole source consumed a step of the encoder is the completion (43_encoder.md R202). -/
theorem encStep_of_end {s : State} (hp : s.enc.phase = .iter) (hend : s.enc.job.n.toNat ≤ s.enc.pos.toNat) :
    encStep s = .next (s.complete .enc s.enc.wr) := by
  rw [encStep, hp]
  exact if_neg (by omega)

/-- Settles O38: the completion makes just the bytes beyond the output unspecified. -/
theorem encoderCompletionStep : Obligations.EncoderCompletionStep := by
  unfold Obligations.EncoderCompletionStep
  intro s hturn hp hend
  refine ⟨s.popped.complete .enc s.enc.wr, ?_, rfl, fun a ha => read_unspecify_outside _ ?_,
    fun a hlo hhi => read_unspecify_inside _ ?_⟩
  · rw [step_encTurn hturn, encStep_of_end (s := s.popped) hp (by simp [hend])]
    rfl
  · simp only [Window.contains, State.job, popped_enc] at ha ⊢
    omega
  · simp only [Window.contains, State.job, popped_enc]
    omega

/-! ## The blocks of one iteration -/

/-- From `s` to `t` the encoder appended the bytes `out` of some blocks to its output and moved `pos` on by the bytes that
the blocks cover, and nothing else happened (43_encoder.md R202). -/
structure Appended (s : State) (out : List Byte) (count : Nat) (t : State) : Prop where
  state : t = { s with mem := t.mem, enc := { s.enc with wr := t.enc.wr, pos := t.enc.pos } }
  wr : t.enc.wr.toNat = s.enc.wr.toNat + out.length
  pos : t.enc.pos.toNat = s.enc.pos.toNat + count
  bytes : t.mem.readBytes (s.enc.job.dst.toNat + s.enc.wr.toNat) out.length = out
  frame : ∀ a, a < s.enc.job.dst.toNat + s.enc.wr.toNat ∨ s.enc.job.dst.toNat + s.enc.wr.toNat + out.length ≤ a →
    t.mem.read a = s.mem.read a

/-- Nothing is appended in no step. -/
theorem Appended.refl (s : State) : Appended s [] 0 s := ⟨rfl, rfl, rfl, rfl, fun _ _ => rfl⟩

theorem Appended.job {s t : State} {out : List Byte} {count : Nat} (h : Appended s out count t) :
    t.enc.job = s.enc.job := by rw [h.state]

theorem Appended.phase {s t : State} {out : List Byte} {count : Nat} (h : Appended s out count t) :
    t.enc.phase = s.enc.phase := by rw [h.state]

/-- Bytes appended after others make one piece of output. -/
theorem Appended.trans {s t u : State} {out out' : List Byte} {count count' : Nat} (h : Appended s out count t)
    (h' : Appended t out' count' u) : Appended s (out ++ out') (count + count') u where
  state := by
    rw [h'.state, h.state]
  wr := by rw [h'.wr, h.wr, List.length_append, Nat.add_assoc]
  pos := by rw [h'.pos, h.pos, Nat.add_assoc]
  bytes := by
    have hbytes := h'.bytes
    rw [h.job, h.wr, ← Nat.add_assoc] at hbytes
    have hkept : u.mem.readBytes (s.enc.job.dst.toNat + s.enc.wr.toNat) out.length =
        t.mem.readBytes (s.enc.job.dst.toNat + s.enc.wr.toNat) out.length :=
      readBytes_congr fun a _ ha => h'.frame a (.inl (by rw [h.job, h.wr]; omega))
    rw [List.length_append, readBytes_append, hbytes, hkept, h.bytes]
  frame a ha := by
    rw [List.length_append] at ha
    rw [h'.frame a (by rw [h.job, h.wr]; omega), h.frame a (by omega)]

/-- A block that fits is appended. -/
theorem appended_afterEncodedBlock {s : State} {b : Instr} (hfits : EncodingFits s b)
    (hpos : s.enc.pos.toNat + b.count ≤ s.enc.job.n.toNat) : Appended s (encode b) b.count (s.afterEncodedBlock b) :=
  ⟨rfl, (encode_length b).symm ▸ afterEncodedBlock_wr hfits, afterEncodedBlock_pos hpos,
    readBytes_writeBytes_same s.mem _ _, fun _ ha => read_writeBytes_outside s.mem ha⟩

/-- Blocks are all appended if they fit the capacity; else the step is a fault entry after those that were appended
before one did not fit (60_exceptions.md R239). -/
theorem emitBlocks_appends {bs : List Instr} {s t : State} (hwr : s.enc.wr.toNat ≤ s.enc.job.cap.toNat)
    (hcov : s.enc.pos.toNat + covered bs ≤ s.enc.job.n.toNat) (h : emitBlocks bs s = .next t) :
    (s.enc.wr.toNat + (bs.flatMap encode).length ≤ s.enc.job.cap.toNat ∧
      Appended s (bs.flatMap encode) (covered bs) t) ∨
    (s.enc.job.cap.toNat < s.enc.wr.toNat + (bs.flatMap encode).length ∧
      ∃ out count u, Appended s out count u ∧ t = u.raiseFault .enc .overflow 0#32) := by
  induction bs generalizing s with
  | nil =>
    cases h
    exact .inl ⟨hwr, .refl _⟩
  | cons b bs ih =>
    rw [covered_cons] at hcov
    rw [List.flatMap_cons, List.length_append, encode_length, ← Nat.add_assoc]
    rcases emitBlocks_cons_cases h with ⟨hcap, h⟩ | ⟨-, -, h⟩ | ⟨hcap, hmem, h⟩
    · cases h
      exact .inr ⟨by omega, [], 0, s, .refl s, rfl⟩
    · cases h
    · have hfirst := appended_afterEncodedBlock (s := s) (b := b) ⟨hcap, hmem⟩ (by omega)
      have hwr' := hfirst.wr
      rw [encode_length] at hwr'
      have hrest := ih (s := s.afterEncodedBlock b) (by rw [hwr', hfirst.job]; exact hcap)
        (by rw [hfirst.pos, hfirst.job]; omega) h.symm
      rw [hwr', hfirst.job] at hrest
      rcases hrest with ⟨hfits, happ⟩ | ⟨hover, out, count, u, happ, ht⟩
      · exact .inl ⟨hfits, hfirst.trans happ⟩
      · exact .inr ⟨hover, _, _, u, hfirst.trans happ, ht⟩

/-- The source left is as long as the position says. -/
theorem length_sourceLeft (s : State) : s.sourceLeft.length = s.enc.job.n.toNat - s.enc.pos.toNat := readBytes_length ..

/-- With source left a step of the encoder appends the blocks of one iteration, or is a fault entry (43_encoder.md
R202). -/
theorem encStep_appends {s t : State} (hi : EncInv s) (hp : s.enc.phase = .iter)
    (hpos : s.enc.pos.toNat < s.enc.job.n.toNat) (h : encStep s = .next t) :
    let blocks := iteration s.enc.maxblk.toNat s.sourceLeft
    (s.enc.wr.toNat + (blocks.flatMap encode).length ≤ s.enc.job.cap.toNat ∧
      Appended s (blocks.flatMap encode) (covered blocks) t) ∨
    (s.enc.job.cap.toNat < s.enc.wr.toNat + (blocks.flatMap encode).length ∧
      ∃ out count u, Appended s out count u ∧ t = u.raiseFault .enc .overflow 0#32) := by
  obtain ⟨-, -, hwr⟩ := hi.iterPhase hp
  have hcov := covered_iteration_le s.enc.maxblk.toNat s.sourceLeft
  rw [length_sourceLeft] at hcov
  rcases encStep_cases h with ⟨hp', -⟩ | ⟨hp', -⟩ | ⟨hp', -⟩ | ⟨-, -, h⟩ | ⟨-, hend, -⟩
  · rw [hp] at hp'; cases hp'
  · rw [hp] at hp'; cases hp'
  · rw [hp] at hp'; cases hp'
  · exact emitBlocks_appends hwr (by omega) h
  · omega

/-- A fault entry after some output is the one of 60_exceptions.md R235 but for the cursors. -/
theorem Appended.raiseFault_state {s u : State} {out : List Byte} {count : Nat} (h : Appended s out count u)
    (err : ErrCode) (off : Word) :
    u.raiseFault .enc err off =
      { s with
        encRegs := { s.encRegs with status := ⟨false, true, err⟩ }
        enc := { s.enc with phase := .idle, wr := u.enc.wr, pos := u.enc.pos }
        mem := (u.raiseFault .enc err off).mem
        draws := s.draws + 1 } := by
  rw [h.state]
  rfl

/-- A fault entry after some output makes the whole DST window unspecified. -/
theorem Appended.read_raiseFault {s u : State} {out : List Byte} {count : Nat} (h : Appended s out count u)
    (err : ErrCode) (off : Word) {a : Nat} (ha : s.enc.job.dstWindow.contains a) :
    (u.raiseFault .enc err off).mem.read a = Config.freeByte s.draws a := by
  have hdraws : u.draws = s.draws := by rw [h.state]
  rw [raiseFault_mem, ← hdraws]
  exact read_unspecify_inside _ (by rwa [State.job, h.job])

/-- Settles O37: an iteration appends its blocks, or is a fault entry after those of them that fit. -/
theorem encoderIterationStep : Obligations.EncoderIterationStep := by
  unfold Obligations.EncoderIterationStep
  intro s hs hturn hp hpos
  obtain ⟨t, ht⟩ := encStep_next hs.inv.popped.enc
  have hstep : step s = .next t := (step_encTurn hturn).trans ht
  rcases encStep_appends hs.inv.popped.enc hp hpos ht with ⟨hfits, happ⟩ | ⟨hover, out, count, u, happ, rfl⟩
  · refine ⟨fun hover => absurd hfits (Nat.not_le.mpr hover), fun _ => ?_⟩
    exact ⟨t, hstep, happ.state, happ.wr, happ.pos, happ.bytes, happ.frame⟩
  · refine ⟨fun _ => ?_, fun hfits => absurd hfits (Nat.not_le.mpr hover)⟩
    exact ⟨_, hstep, happ.raiseFault_state _ _, (outLenReads _ .enc).1 (.inr nofun),
      fun a ha => happ.read_raiseFault _ _ ha, (encStep_onlyEncoderMoved ht).mem⟩

end Sys2Proof.Machine
end

section
/-! PROOFS. The encoder engine computes Encode: every step of a busy encoder keeps the stream that its output so far and
the source left make together, until it ends with that stream in its DST window, or with OVERFLOW where the stream does not
fit (43_encoder.md R180, R202, R203). -/

namespace Sys2Proof.Machine

/-! ## The stream that is being written -/

/-- The stream so far. -/
def State.encodedOutput (s : State) : List Byte := s.mem.readBytes s.enc.job.dst.toNat s.enc.wr.toNat

/-- The bytes of the blocks of the source left. -/
def State.encodedLeft (s : State) : List Byte := (partitionSource s.enc.maxblk.toNat s.sourceLeft).flatMap encode

/-- The stream that a busy encoder is writing: before the header Encode of the source, after it the output so far and the
blocks of the source left. -/
def State.encoding (s : State) : List Byte :=
  match s.enc.phase with
  | .hdr => encodeStream s.sourceLeft s.enc.maxblk.toNat
  | _ => s.encodedOutput ++ s.encodedLeft

theorem State.encoding_hdr {s : State} (h : s.enc.phase = .hdr) :
    s.encoding = encodeStream s.sourceLeft s.enc.maxblk.toNat := by simp only [State.encoding, h]

theorem State.encoding_iter {s : State} (h : s.enc.phase = .iter) : s.encoding = s.encodedOutput ++ s.encodedLeft := by
  simp only [State.encoding, h]

@[simp] theorem length_encodedOutput (s : State) : s.encodedOutput.length = s.enc.wr.toNat := readBytes_length ..

/-- The encoder of `t` shows a stream, as far as the capacity of `job` lets it. -/
def State.ShowsStream (t : State) (job : Latched) (stream : List Byte) : Prop :=
  (job.cap.toNat < stream.length → t.encRegs.status = ⟨false, true, .overflow⟩) ∧
  (stream.length ≤ job.cap.toNat →
    t.encRegs.status = ⟨false, true, .none⟩ ∧ t.encRegs.outLen.toNat = stream.length ∧
    t.mem.readBytes job.dst.toNat stream.length = stream)

/-- OVERFLOW shows a stream that does not fit. -/
theorem overflow_showsStream {s : State} {job : Latched} {stream : List Byte} (h : job.cap.toNat < stream.length) :
    (s.raiseFault .enc .overflow 0#32).ShowsStream job stream := ⟨fun _ => rfl, fun hfits => by omega⟩

/-- A completion shows the output so far. -/
theorem complete_showsStream {s : State} (hi : EncInv s) (hp : s.enc.phase = .iter) :
    (s.complete .enc s.enc.wr).ShowsStream s.enc.job s.encodedOutput := by
  obtain ⟨-, -, hcap⟩ := hi.iterPhase hp
  rw [State.ShowsStream, length_encodedOutput]
  refine ⟨fun hover => by omega, fun _ => ⟨rfl, rfl, readBytes_congr fun a _ hhi => ?_⟩⟩
  rw [complete_mem]
  refine read_unspecify_outside _ fun hin => ?_
  simp only [Window.contains, State.job] at hin
  omega

/-! ## The source left -/

/-- A busy encoder's DST window holds no byte of its source (41_control.md R132). -/
theorem EncInv.source_not_dst {s : State} (h : EncInv s) (hp : s.enc.phase ≠ .idle) {a : Nat}
    (ha : s.enc.job.srcWindow.contains a) : ¬ s.enc.job.dstWindow.contains a :=
  not_contains_of_not_meets (fun hmeets => h.accepted hp (.inr (.inr (.inr hmeets)))) ha

/-- After a step of a busy encoder the source left is the old one without the bytes that the position passed. -/
theorem sourceLeft_of_moved {s t : State} (hi : EncInv s) (hp : s.enc.phase ≠ .idle) (hmoved : OnlyEncoderMoved s t)
    {count : Nat} (hpos : t.enc.pos.toNat = s.enc.pos.toNat + count) : t.sourceLeft = s.sourceLeft.drop count := by
  rw [State.sourceLeft, State.sourceLeft, readBytes_drop, hmoved.job, hpos, Nat.add_assoc, Nat.sub_sub]
  refine readBytes_congr fun a hlo hhi => hmoved.mem a (hi.source_not_dst hp ?_)
  simp only [Latched.srcWindow, Window.contains]
  omega

/-! ## A step of the encoder and the stream -/

/-- The header begins the stream, with all blocks to come. -/
theorem afterEncodedHeader_encoding {s : State} (hi : EncInv s) (hp : s.enc.phase = .hdr)
    (hmoved : OnlyEncoderMoved s s.afterEncodedHeader) : s.afterEncodedHeader.encoding = s.encoding := by
  obtain ⟨hpos, -⟩ := hi.hdrPhase hp
  have hzero : s.enc.pos.toNat = 0 := by rw [hpos]; rfl
  have hleft : s.afterEncodedHeader.sourceLeft = s.sourceLeft :=
    sourceLeft_of_moved hi (by simp [hp]) hmoved (count := 0) (by rw [hzero]; rfl)
  have hout : s.afterEncodedHeader.encodedOutput = enc32 s.enc.job.n :=
    readBytes_writeBytes_same s.mem _ (enc32 s.enc.job.n)
  have hheader : encode (headerOf s.sourceLeft.length) = enc32 s.enc.job.n := by
    rw [length_sourceLeft, hzero, Nat.sub_zero, headerOf, Word.ofNat, BitVec.ofNat_toNat, BitVec.setWidth_eq]
    rfl
  rw [State.encoding_iter rfl, State.encoding_hdr hp, encodeStream, hheader, hout, State.encodedLeft, hleft]
  rfl

/-- The blocks of the source left are those of one iteration and those of what it leaves. -/
theorem encodedLeft_eq {s : State} (hi : EncInv s) (hp : s.enc.phase ≠ .idle)
    (hpos : s.enc.pos.toNat < s.enc.job.n.toNat) :
    s.encodedLeft = (iteration s.enc.maxblk.toNat s.sourceLeft).flatMap encode ++
      (partitionSource s.enc.maxblk.toNat
        (s.sourceLeft.drop (covered (iteration s.enc.maxblk.toNat s.sourceLeft)))).flatMap encode := by
  have hrest : s.sourceLeft ≠ [] := by
    rw [← List.length_pos_iff, length_sourceLeft]
    omega
  rw [State.encodedLeft, partitionSource_eq (hi.threshold_le_maxblk hp) (Nat.le_of_lt_succ s.enc.maxblk.isLt) hrest,
    List.flatMap_append]

/-- An output that grew is the old one and the bytes appended. -/
theorem Appended.encodedOutput {s t : State} {out : List Byte} {count : Nat} (h : Appended s out count t) :
    t.encodedOutput = s.encodedOutput ++ out := by
  have hkept : t.mem.readBytes s.enc.job.dst.toNat s.enc.wr.toNat = s.encodedOutput :=
    readBytes_congr fun a _ ha => h.frame a (.inl ha)
  rw [State.encodedOutput, h.job, h.wr, readBytes_append, h.bytes, hkept]

/-- A step of a busy encoder ends with what shows the stream, or keeps the stream. -/
theorem encStep_encodes {s t : State} (hi : EncInv s) (hbusy : s.enc.phase ≠ .idle) (h : encStep s = .next t) :
    (t.enc.phase = .idle ∧ t.ShowsStream s.enc.job s.encoding) ∨
    (t.enc.phase ≠ .idle ∧ t.encoding = s.encoding) := by
  have hmoved := encStep_onlyEncoderMoved h
  rcases encStep_cases h with ⟨hp, -⟩ | ⟨hp, hcap, rfl⟩ | ⟨hp, -, -, rfl⟩ | ⟨hp, hpos, -⟩ | ⟨hp, hend, rfl⟩
  · exact absurd hp hbusy
  · refine .inl ⟨rfl, overflow_showsStream ?_⟩
    rw [State.encoding_hdr hp, length_encodeStream]
    omega
  · exact .inr ⟨nofun, afterEncodedHeader_encoding hi hp hmoved⟩
  · have hleft := encodedLeft_eq hi hbusy hpos
    rcases encStep_appends hi hp hpos h with ⟨-, happ⟩ | ⟨hover, -, -, u, -, rfl⟩
    · have hp' := happ.phase.trans hp
      refine .inr ⟨by simp [hp'], ?_⟩
      rw [State.encoding_iter hp', State.encoding_iter hp, happ.encodedOutput, hleft, State.encodedLeft, hmoved.maxblk,
        sourceLeft_of_moved hi hbusy hmoved happ.pos, List.append_assoc]
    · refine .inl ⟨rfl, overflow_showsStream ?_⟩
      rw [State.encoding_iter hp, hleft, List.length_append, List.length_append, length_encodedOutput]
      omega
  · refine .inl ⟨rfl, ?_⟩
    have hnil : s.sourceLeft = [] := by
      rw [← List.length_eq_zero_iff, length_sourceLeft]
      omega
    rw [State.encoding_iter hp, State.encodedLeft, hnil, partitionSource_nil, List.flatMap_nil, List.append_nil]
    exact complete_showsStream hi hp

/-! ## A run of the encoder -/

/-- Listed steps of an idle encoder only come off the agenda. -/
theorem run_encStep_of_idle {k : Nat} {s : State} (hr : s.refused = false) (hp : s.enc.phase = .idle)
    (ha : s.agenda = List.replicate k .encStep) : core.run k s = .next { s with agenda := [] } := by
  induction k generalizing s with
  | zero =>
    rw [List.replicate_zero] at ha
    rw [← ha]
    rfl
  | succ k ih =>
    have hturn : s.encTurn := ⟨hr, .inl (by rw [ha, List.replicate_succ, List.head?_cons])⟩
    have hstep : step s = .next s.popped := by rw [step_encTurn hturn, encStep_of_idle (s := s.popped) hp]
    rw [run_succ hstep, ih (s := s.popped) hr hp (by rw [popped_agenda, ha, List.replicate_succ, List.tail_cons])]
    rfl

/-- A busy encoder with as many listed steps as it has left ends with its stream. -/
theorem run_encodes {k : Nat} {s : State} (hi : Invariant s) (hr : s.refused = false) (hbusy : s.enc.phase ≠ .idle)
    (ha : s.agenda = List.replicate k .encStep) (hk : s.enc.stepsLeft ≤ k) :
    ∃ t, core.run k s = .next t ∧ t.enc.phase = .idle ∧ t.ShowsStream s.enc.job s.encoding := by
  induction k generalizing s with
  | zero =>
    have := EncEngine.stepsLeft_pos hbusy
    omega
  | succ k ih =>
    have hturn : s.encTurn := ⟨hr, .inl (by rw [ha, List.replicate_succ, List.head?_cons])⟩
    have htail : s.popped.agenda = List.replicate k .encStep := by
      rw [popped_agenda, ha, List.replicate_succ, List.tail_cons]
    obtain ⟨u, hu⟩ := encStep_next hi.popped.enc
    have hmoved := encStep_onlyEncoderMoved hu
    have hur : u.refused = false := hmoved.refused.trans hr
    have hua : u.agenda = List.replicate k .encStep := hmoved.agenda.trans htail
    have hless : u.enc.stepsLeft < s.enc.stepsLeft := encStep_stepsLeft_lt (s := s.popped) hi.popped.enc hbusy hu
    rw [run_succ ((step_encTurn hturn).trans hu)]
    rcases encStep_encodes hi.popped.enc hbusy hu with ⟨hidle, hshows⟩ | ⟨hbusy', hstream⟩
    · exact ⟨_, run_encStep_of_idle hur hidle hua, hidle, hshows⟩
    · obtain ⟨t, hrun, hidle, hshows⟩ := ih (hi.popped.encStep hu) hur hbusy' hua (by omega)
      rw [hstream, hmoved.job] at hshows
      exact ⟨t, hrun, hidle, hshows⟩

/-- Settles O39: in phase HDR the stream is Encode of the whole source, and the agenda lists as many steps as the bound. -/
theorem encoderComputesEncode : Obligations.EncoderComputesEncode := by
  unfold Obligations.EncoderComputesEncode
  intro s hi hr hp ha
  obtain ⟨t, hrun, hidle, hshows⟩ := run_encodes hi hr (by simp [hp]) ha s.enc.stepsLeft_le
  obtain ⟨hpos, -⟩ := hi.enc.hdrPhase hp
  have hsource : s.sourceLeft = s.mem.readBytes s.enc.job.src.toNat s.enc.job.n.toNat := by
    rw [State.sourceLeft, hpos]
    rfl
  rw [State.encoding_hdr hp, hsource] at hshows
  exact ⟨t, hrun, hidle, hshows⟩

end Sys2Proof.Machine
end

section
/-! PROOFS. FindRun gives the least start of a run, and the trim moves out just the bytes that equal the last
(43_encoder.md R183, R184, R187, R188). -/

namespace Sys2Proof.Machine

/-! ## The scan -/

/-- As many equal bytes as the threshold says stand from `start` on. -/
def RunAt (bytes : List Byte) (start : Nat) : Prop := ∃ v, ∀ k, k < Config.threshold → bytes[start + k]? = some v

/-- A run lies inside the bytes. -/
theorem RunAt.bound {bytes : List Byte} {start : Nat} (h : RunAt bytes start) :
    start + Config.threshold ≤ bytes.length := by
  obtain ⟨v, hv⟩ := h
  obtain ⟨hlast, -⟩ := List.getElem?_eq_some_iff.mp (hv (Config.threshold - 1) (by decide))
  simp only [Config.threshold] at *
  omega

/-- Inside the bytes a run is 7 bytes that equal the first of them. -/
theorem runAt_iff {bytes : List Byte} {start : Nat} (h : start < bytes.length) :
    RunAt bytes start ↔ ∀ k, k < 7 → bytes[start + k]? = bytes[start]? := by
  constructor
  · rintro ⟨v, hv⟩ k hk
    rw [hv k hk, ← hv 0 (by decide), Nat.add_zero]
  · exact fun hall => ⟨bytes[start], fun k hk => (hall k hk).trans (List.getElem?_eq_getElem h)⟩

/-- Where there is no run some byte of the 7 differs from the first. -/
theorem not_runAt_iff {bytes : List Byte} {start : Nat} (h : start < bytes.length) :
    ¬ RunAt bytes start ↔ ∃ k, k < 7 ∧ bytes[start + k]? ≠ bytes[start]? := by
  rw [runAt_iff h]
  push Not
  rfl

/-- A run that begins later in the bytes is a run of what is left of them. -/
theorem RunAt.drop {bytes : List Byte} {start : Nat} (n : Nat) (h : RunAt bytes (n + start)) :
    RunAt (bytes.drop n) start := by
  obtain ⟨v, hv⟩ := h
  exact ⟨v, fun k hk => by rw [List.getElem?_drop, ← Nat.add_assoc, hv k hk]⟩

/-- No run begins before the first byte that differs, which is the next candidate of the scan. -/
theorem RunAt.past_mismatch {b : Byte} {bytes : List Byte} {start : Nat} (h : RunAt (b :: bytes) start)
    (hstop : leadingEqual b (Config.threshold - 1) bytes < Config.threshold - 1) :
    leadingEqual b (Config.threshold - 1) bytes < start := by
  obtain ⟨v, hv⟩ := h
  refine Nat.lt_of_not_le fun hle => leadingEqual_stop b _ bytes hstop ?_
  have hfirst : (b :: bytes)[start]? = some b := by
    cases start with
    | zero => rfl
    | succ i => exact leadingEqual_getElem? b _ bytes i hle
  have hstart := hv 0 (by decide)
  rw [Nat.add_zero, hfirst] at hstart
  have hmismatch := hv (leadingEqual b (Config.threshold - 1) bytes + 1 - start) (by omega)
  rwa [Nat.add_sub_cancel' (by omega), List.getElem?_cons_succ, ← hstart] at hmismatch

/-- The scan passes no run: where one begins, it stops there or before (43_encoder.md R184). -/
theorem findRunFrom_le {fuel p q : Nat} {bytes : List Byte} (hfuel : bytes.length ≤ fuel) (h : RunAt bytes q) :
    ∃ start, findRunFrom fuel p bytes = some start ∧ start ≤ p + q := by
  induction fuel generalizing p q bytes with
  | zero =>
    have := h.bound
    simp only [Config.threshold] at this
    omega
  | succ fuel ih =>
    cases bytes with
    | nil => exact absurd h.bound (by simp [Config.threshold])
    | cons b bytes =>
      have hbound := h.bound
      simp only [findRunFrom]
      rw [if_neg (by omega)]
      split
      · exact ⟨p, rfl, Nat.le_add_right ..⟩
      · have hcap := leadingEqual_le_cap b (Config.threshold - 1) bytes
        have hpast := h.past_mismatch (by omega)
        obtain ⟨q', rfl⟩ : ∃ q', q = leadingEqual b (Config.threshold - 1) bytes + 1 + q' :=
          ⟨_, (Nat.add_sub_cancel' hpast).symm⟩
        obtain ⟨start, hfound, hle⟩ := ih (p := p + 1 + leadingEqual b (Config.threshold - 1) bytes)
          (by simp only [List.length_drop, List.length_cons] at hfuel ⊢; omega) (h.drop _)
        exact ⟨start, hfound, by omega⟩

/-- The scan stops at a run. -/
theorem findRun_runAt {block : List Byte} {start : Nat} (h : findRun block = some start) : RunAt block start := by
  obtain ⟨v, tail, hrun⟩ := findRun_run h
  refine ⟨v, fun k hk => ?_⟩
  rw [← List.getElem?_drop, hrun, List.getElem?_append_left (by rwa [List.length_replicate]),
    List.getElem?_replicate_of_lt hk]

/-- Every run begins where FindRun says, or after it. -/
theorem findRun_le {block : List Byte} {start q : Nat} (h : findRun block = some start) (hq : RunAt block q) :
    start ≤ q := by
  obtain ⟨start', hfound, hle⟩ := findRunFrom_le (p := 0) (Nat.le_refl block.length) hq
  rw [findRun, hfound] at h
  cases h
  omega

/-- Where FindRun finds nothing there is no run. -/
theorem not_runAt_of_findRun_none {block : List Byte} (h : findRun block = none) (q : Nat) : ¬ RunAt block q := by
  intro hq
  obtain ⟨start, hfound, -⟩ := findRunFrom_le (p := 0) (Nat.le_refl block.length) hq
  rw [findRun, hfound] at h
  cases h

/-- Settles O26: FindRun stops at a run, and passes none. -/
theorem findRunGivesLeastStart : Obligations.FindRunGivesLeastStart := by
  unfold Obligations.FindRunGivesLeastStart
  intro block
  cases h : findRun block with
  | some p =>
    have hbound : p + 7 ≤ block.length := findRun_bound h
    refine ⟨hbound, (runAt_iff (by omega)).mp (findRun_runAt h), fun q hq => ?_⟩
    refine (not_runAt_iff (by omega)).mp fun hrun => ?_
    have := findRun_le h hrun
    omega
  | none => exact fun q hq => (not_runAt_iff (by omega)).mp (not_runAt_of_findRun_none h q)

/-! ## The trim -/

/-- The trim leaves out the bytes at the end that equal the last. -/
theorem trimBoundary_eq {block : List Byte} {last : Byte} (h : block.getLast? = some last) :
    trimBoundary block = block.length - leadingEqual last block.length block.reverse := by
  rw [← List.head?_reverse] at h
  rw [trimBoundary]
  split
  · rename_i hnil
    rw [hnil] at h
    cases h
  · rename_i first others hcons
    rw [hcons] at h
    cases h
    rfl

/-- The trim moves out at least the last byte (43_encoder.md R188). -/
theorem trimBoundary_lt {block : List Byte} (h : block ≠ []) : trimBoundary block < block.length := by
  have hlen := List.length_pos_iff.mpr h
  cases hrev : block.reverse with
  | nil => exact absurd (List.reverse_eq_nil_iff.mp hrev) h
  | cons last others =>
    have hlast : block.getLast? = some last := by rw [← List.head?_reverse, hrev, List.head?_cons]
    obtain ⟨n, hn⟩ : ∃ n, block.length = n + 1 := ⟨block.length - 1, by omega⟩
    rw [trimBoundary_eq hlast, hrev, hn, leadingEqual, if_pos rfl]
    omega

/-- The bytes that the trim moves out equal the last (43_encoder.md R187). -/
theorem getElem?_of_trimBoundary_le {block : List Byte} {k : Nat} (hlo : trimBoundary block ≤ k)
    (hhi : k < block.length) : block[k]? = block.getLast? := by
  obtain ⟨last, hlast⟩ : ∃ last, block.getLast? = some last :=
    ⟨_, List.getLast?_eq_some_getLast (List.length_pos_iff.mp (Nat.zero_lt_of_lt hhi))⟩
  rw [trimBoundary_eq hlast] at hlo
  have hk := leadingEqual_getElem? last block.length block.reverse (block.length - 1 - k) (by omega)
  have hindex : block.length - 1 - (block.length - 1 - k) = k := by omega
  rwa [List.getElem?_reverse (by omega), hindex, ← hlast] at hk

/-- The last byte that the trim leaves differs from the last of the block (43_encoder.md R187). -/
theorem getElem?_trimBoundary_pred {block : List Byte} (h : 0 < trimBoundary block) :
    block[trimBoundary block - 1]? ≠ block.getLast? := by
  have hlen := Nat.lt_of_lt_of_le h (trimBoundary_le block)
  obtain ⟨last, hlast⟩ : ∃ last, block.getLast? = some last :=
    ⟨_, List.getLast?_eq_some_getLast (List.length_pos_iff.mp hlen)⟩
  rw [trimBoundary_eq hlast] at h ⊢
  have hstop := leadingEqual_stop last block.length block.reverse (Nat.lt_of_sub_pos h)
  rwa [List.getElem?_reverse (by omega), Nat.sub_right_comm, ← hlast] at hstop

/-- Settles O27. -/
theorem trimIsWellDefined : Obligations.TrimIsWellDefined := by
  unfold Obligations.TrimIsWellDefined
  intro block hlen hrun
  have hpos := trimBoundary_pos hlen hrun
  have hlt := trimBoundary_lt (List.length_pos_iff.mp (by omega : 0 < block.length))
  rw [← List.getLast?_eq_getElem?]
  exact ⟨hpos, by omega, getElem?_trimBoundary_pred hpos, fun k hlo hhi => getElem?_of_trimBoundary_le hlo hhi⟩

end Sys2Proof.Machine
end

section
/-! PROOFS. What the literal blocks hold: an iteration's literal piece stands before the first run of its block, or is
trimmed where the bytes that end the block may begin a run (43_encoder.md R185 to R189, R199). -/

namespace Sys2Proof.Machine

/-! ## The literal piece of an iteration -/

/-- A run in the first bytes is a run. -/
theorem RunAt.of_take {bytes : List Byte} {n start : Nat} (h : RunAt (bytes.take n) start) : RunAt bytes start := by
  obtain ⟨v, hv⟩ := h
  refine ⟨v, fun k hk => ?_⟩
  obtain ⟨hlt, -⟩ := List.getElem?_eq_some_iff.mp (hv k hk)
  rw [List.length_take] at hlt
  rw [← hv k hk, List.getElem?_take_of_lt (by omega)]

/-- A run inside the first bytes is a run of them. -/
theorem RunAt.take {bytes : List Byte} {n start : Nat} (h : RunAt bytes start) (hn : start + Config.threshold ≤ n) :
    RunAt (bytes.take n) start := by
  obtain ⟨v, hv⟩ := h
  exact ⟨v, fun k hk => by rw [List.getElem?_take_of_lt (by omega), hv k hk]⟩

/-- The literal piece of an iteration holds no run: the scan would have stopped at it (43_encoder.md R199). -/
theorem not_runAt_literalPiece (M : Nat) (rest : List Byte) (q : Nat) :
    ¬ RunAt (rest.take (prefixLength M rest)) q := by
  intro hq
  have hpiece := hq.bound
  rw [List.length_take] at hpiece
  have hblock : RunAt (rest.take (blockSize M rest)) q :=
    hq.of_take.take (by have := prefixLength_le_blockSize M rest; omega)
  cases hrun : findRun (rest.take (blockSize M rest)) with
  | none => exact not_runAt_of_findRun_none hrun q hblock
  | some start =>
    have hle := findRun_le hrun hblock
    rw [prefixLength_of_run hrun] at hpiece
    simp only [Config.threshold] at hpiece
    omega

/-- An iteration emits its literal piece and, where its block has a run, one repeat block. -/
theorem iteration_eq_literalBlocks {M : Nat} (hlo : Config.threshold ≤ M) (hhi : M ≤ 65535) (rest : List Byte) :
    iteration M rest = literalBlocks (rest.take (prefixLength M rest)) ∨
    ∃ count v, iteration M rest = literalBlocks (rest.take (prefixLength M rest)) ++ [Instr.rpt count v] := by
  cases hrun : findRun (rest.take (blockSize M rest)) with
  | none => exact .inl (iteration_of_noRun hrun)
  | some start =>
    obtain ⟨count, v, -, hblocks, -⟩ := iteration_of_run hlo hhi hrun
    exact .inr ⟨count, v, by rw [hblocks, prefixLength_of_run hrun]⟩

theorem eq_of_lit_mem_literalBlocks {lit payload : List Byte} (h : .lit payload ∈ literalBlocks lit) :
    payload = lit := by
  cases lit with
  | nil => cases h
  | cons b bytes => simpa [literalBlocks] using h

/-- A literal block of an iteration is its literal piece. -/
theorem eq_of_lit_mem_iteration {M : Nat} (hlo : Config.threshold ≤ M) (hhi : M ≤ 65535) {rest payload : List Byte}
    (h : .lit payload ∈ iteration M rest) : payload = rest.take (prefixLength M rest) := by
  refine eq_of_lit_mem_literalBlocks ?_
  rcases iteration_eq_literalBlocks hlo hhi rest with hblocks | ⟨count, v, hblocks⟩
  · rwa [hblocks] at h
  · rw [hblocks, List.mem_append] at h
    exact h.resolve_right (by simp)

/-- No literal block holds a run (43_encoder.md R199). -/
theorem not_runAt_payload {M : Nat} (hlo : Config.threshold ≤ M) (hhi : M ≤ 65535) (source : List Byte) :
    ∀ payload, .lit payload ∈ partitionSource M source → ∀ q, ¬ RunAt payload q := by
  induction source using iteration_induction hlo hhi with
  | nil => nofun
  | next rest hrest ih =>
    intro payload hmem
    rw [partitionSource_eq hlo hhi hrest, List.mem_append] at hmem
    rcases hmem with hmem | hmem
    · rw [eq_of_lit_mem_iteration hlo hhi hmem]
      exact not_runAt_literalPiece M rest
    · exact ih payload hmem

/-! ## Adjacent literal blocks -/

/-- Two literal blocks differ where they meet. -/
def DifferWhereMeet (a b : Instr) : Prop :=
  ∀ first second, a = .lit first → b = .lit second → first.getLast? ≠ second.head?

/-- An iteration emits no two literal blocks. -/
theorem isChain_iteration {M : Nat} (hlo : Config.threshold ≤ M) (hhi : M ≤ 65535) (rest : List Byte) :
    (iteration M rest).IsChain DifferWhereMeet := by
  have hliteral : (literalBlocks (rest.take (prefixLength M rest))).IsChain DifferWhereMeet := by
    cases rest.take (prefixLength M rest) with
    | nil => exact .nil
    | cons b bytes => exact .singleton _
  rcases iteration_eq_literalBlocks hlo hhi rest with hblocks | ⟨count, v, hblocks⟩
  · rwa [hblocks]
  · rw [hblocks]
    refine List.isChain_append.mpr ⟨hliteral, .singleton _, fun a _ b hb first second _ hlit => ?_⟩
    rw [hlit] at hb
    cases hb

/-- If the first block is a literal block, its first byte is the first byte of the source. -/
theorem head?_of_lit_head {M : Nat} (hlo : Config.threshold ≤ M) (hhi : M ≤ 65535) {source second : List Byte}
    (h : (partitionSource M source).head? = some (.lit second)) : second.head? = source.head? := by
  obtain ⟨blocks, hblocks⟩ := List.head?_eq_some_iff.mp h
  have hne := (emitted_partitionSource hlo hhi source (.lit second) (List.mem_of_mem_head? h)).1
  have hsource := partitionSource_expand hlo hhi source
  rw [hblocks, List.flatMap_cons, expand_lit] at hsource
  rw [← hsource, List.head?_append_of_ne_nil _ (List.length_pos_iff.mp hne)]

/-- Where an iteration ends in a literal block, the last byte of that block differs from the first byte that the
iteration leaves: the trim moved out a byte that does not equal the last one it left (43_encoder.md R187). -/
theorem getLast?_ne_of_iteration {M : Nat} (hlo : Config.threshold ≤ M) (hhi : M ≤ 65535) {rest first : List Byte}
    (h : (iteration M rest).getLast? = some (.lit first)) (hleft : covered (iteration M rest) < rest.length) :
    first.getLast? ≠ (rest.drop (covered (iteration M rest))).head? := by
  cases hrun : findRun (rest.take (blockSize M rest)) with
  | some start =>
    obtain ⟨count, v, -, hblocks, -⟩ := iteration_of_run hlo hhi hrun
    rw [hblocks, List.getLast?_append_of_ne_nil _ (by simp)] at h
    cases h
  | none =>
    have hpiece := eq_of_lit_mem_iteration hlo hhi (List.mem_of_mem_getLast? h)
    have hcov : covered (iteration M rest) = prefixLength M rest := by
      rw [iteration_of_noRun hrun, covered_literalBlocks, List.length_take]
      exact Nat.min_eq_left (prefixLength_le M rest)
    rw [hcov] at hleft ⊢
    have hpart : blockSize M rest ≠ rest.length := fun hall => by
      rw [prefixLength_of_last hrun hall] at hleft
      exact Nat.lt_irrefl _ hleft
    have hpos := prefixLength_pos_of_noRun hlo (List.length_pos_iff.mp (Nat.zero_lt_of_lt hleft)) hrun
    have hlt := prefixLength_le_blockSize M rest
    have htrim := prefixLength_of_trim hrun hpart
    have hlen := length_take_blockSize M rest
    have hshort := trimBoundary_lt (block := rest.take (blockSize M rest)) (List.length_pos_iff.mp (by omega))
    have hlast := getElem?_trimBoundary_pred (htrim ▸ hpos)
    rw [← getElem?_of_trimBoundary_le (Nat.le_refl _) hshort, ← htrim, List.getElem?_take_of_lt (by omega),
      List.getElem?_take_of_lt (by omega)] at hlast
    rwa [hpiece, List.head?_drop, List.getLast?_eq_getElem?, List.length_take, Nat.min_eq_left (by omega),
      List.getElem?_take_of_lt (by omega)]

/-- Adjacent literal blocks differ where they meet (43_encoder.md R199). -/
theorem isChain_partitionSource {M : Nat} (hlo : Config.threshold ≤ M) (hhi : M ≤ 65535) (source : List Byte) :
    (partitionSource M source).IsChain DifferWhereMeet := by
  induction source using iteration_induction hlo hhi with
  | nil => exact .nil
  | next rest hrest ih =>
    rw [partitionSource_eq hlo hhi hrest]
    refine List.isChain_append.mpr ⟨isChain_iteration hlo hhi rest, ih, ?_⟩
    rintro a ha b hb first second rfl rfl
    rw [head?_of_lit_head hlo hhi hb]
    refine getLast?_ne_of_iteration hlo hhi ha (Nat.lt_of_not_le fun hall => ?_)
    rw [List.drop_of_length_le hall, partitionSource_nil] at hb
    cases hb

/-- Settles O31. -/
theorem literalContent : Obligations.LiteralContent := by
  unfold Obligations.LiteralContent
  intro M source hlo hhi
  refine ⟨fun before after payload h => partitionSource_slice hlo hhi h, fun payload hmem q hq => ?_,
    fun before after first second h => ?_⟩
  · exact (not_runAt_iff (by omega)).mp (not_runAt_payload hlo hhi source payload hmem q)
  · have hchain := isChain_partitionSource hlo hhi source
    rw [h] at hchain
    exact (List.isChain_append_cons_cons.mp hchain).2.1 first second rfl rfl

end Sys2Proof.Machine
end

section
/-! PROOFS. How a maximal run of equal bytes is encoded: no block of an iteration passes the place where a run of 7 begins,
from there on every repeat block takes as much of the run as one block may, and the bytes that remain are literal
(43_encoder.md R190, R191, R196, R197). -/

namespace Sys2Proof.Machine

/-! ## Equal bytes across a boundary -/

/-- Copies of `w` that begin the bytes from `c` on. -/
theorem getElem?_of_replicate_prefix {bytes : List Byte} {c n : Nat} {w : Byte}
    (h : List.replicate n w <+: bytes.drop c) {k : Nat} (hk : k < n) : bytes[c + k]? = some w := by
  obtain ⟨tail, htail⟩ := h
  rw [← List.getElem?_drop, ← htail, List.getElem?_append_left (by rwa [List.length_replicate]),
    List.getElem?_replicate_of_lt hk]

/-- Equal bytes on both sides of a boundary: the bytes at the boundary equal them. -/
theorem boundary_of_replicate_prefix {pre suf : List Byte} {c n : Nat} {w : Byte}
    (h : List.replicate n w <+: (pre ++ suf).drop c) (hlo : c < pre.length) (hhi : pre.length < c + n) :
    pre.getLast? = some w ∧ suf.head? = some w := by
  have hlast := getElem?_of_replicate_prefix h (k := pre.length - 1 - c) (by omega)
  have hfirst := getElem?_of_replicate_prefix h (k := pre.length - c) (by omega)
  rw [Nat.add_sub_cancel' (by omega), List.getElem?_append_left (by omega), ← List.getLast?_eq_getElem?] at hlast
  rw [Nat.add_sub_cancel' (by omega), List.getElem?_append_right (Nat.le_refl _), Nat.sub_self,
    ← List.head?_eq_getElem?] at hfirst
  exact ⟨hlast, hfirst⟩

/-- The bytes of a run between other bytes. -/
theorem getElem?_of_run (pre post : List Byte) (v : Byte) {L i : Nat} (hlo : pre.length ≤ i) (hhi : i < pre.length + L) :
    (pre ++ (List.replicate L v ++ post))[i]? = some v := by
  rw [List.getElem?_append_right hlo, List.getElem?_append_left (by rw [List.length_replicate]; omega),
    List.getElem?_replicate_of_lt (by omega)]

/-- A run is its own first byte. -/
theorem head?_of_run (post : List Byte) (v : Byte) {L : Nat} (h : 0 < L) :
    (List.replicate L v ++ post).head? = some v := by
  rw [List.head?_eq_getElem?]
  exact getElem?_of_run [] post v (Nat.le_refl 0) (by rwa [List.length_nil, Nat.zero_add])

/-- A run of 7 or more stands where its first byte stands. -/
theorem runAt_of_run (pre post : List Byte) (v : Byte) {L : Nat} (hL : Config.threshold ≤ L) :
    RunAt (pre ++ (List.replicate L v ++ post)) pre.length :=
  ⟨v, fun k hk => getElem?_of_run pre post v (Nat.le_add_right ..) (by omega)⟩

/-! ## An iteration that finds a run -/

/-- An iteration at a run is its repeat block. -/
theorem iteration_of_runAt_zero {M : Nat} (hlo : Config.threshold ≤ M) {rest : List Byte} (h : RunAt rest 0) :
    iteration M rest = repeatBlocks M rest := by
  have hlen := h.bound
  have hblock : RunAt (rest.take (blockSize M rest)) 0 := h.take (by simp only [blockSize]; omega)
  have hrun : findRun (rest.take (blockSize M rest)) = some 0 := by
    cases hfound : findRun (rest.take (blockSize M rest)) with
    | none => exact absurd hblock (not_runAt_of_findRun_none hfound 0)
    | some start => rw [Nat.le_zero.mp (findRun_le hfound hblock)]
  simp only [iteration, hrun, prefixLength_of_run hrun, List.take_zero, List.drop_zero, literalBlocks, List.nil_append]

/-- An iteration that finds a run emits the bytes before it, and is an iteration at the run. -/
theorem iteration_of_findRun {M start : Nat} (hlo : Config.threshold ≤ M) {rest : List Byte}
    (h : findRun (rest.take (blockSize M rest)) = some start) :
    iteration M rest = literalBlocks (rest.take start) ++ iteration M (rest.drop start) := by
  have hrun : RunAt (rest.drop start) 0 := (findRun_runAt h).of_take.drop start
  rw [iteration_of_runAt_zero hlo hrun]
  simp only [iteration, h, prefixLength_of_run h]

/-- A source whose first iteration finds a run is the bytes before the run and a source that begins with it. -/
theorem partitionSource_of_findRun {M start : Nat} (hlo : Config.threshold ≤ M) (hhi : M ≤ 65535) {rest : List Byte}
    (h : findRun (rest.take (blockSize M rest)) = some start) :
    partitionSource M rest = literalBlocks (rest.take start) ++ partitionSource M (rest.drop start) := by
  have hbound := (findRun_runAt h).of_take.bound
  simp only [Config.threshold] at hbound
  have hdrop : rest.drop start ≠ [] := by
    rw [← List.length_pos_iff, List.length_drop]
    omega
  have hrest : rest ≠ [] := List.length_pos_iff.mp (by omega)
  rw [partitionSource_eq hlo hhi hrest, partitionSource_eq hlo hhi hdrop, iteration_of_findRun hlo h, covered_append,
    covered_literalBlocks, List.length_take_of_le (by omega), List.drop_drop, List.append_assoc]

/-! ## From a run's first byte on -/

/-- The bytes of a run that ends before `post` are all counted, up to the cap. -/
theorem leadingEqual_replicate_append {v : Byte} {post : List Byte} (hpost : post.head? ≠ some v) (cap n : Nat) :
    leadingEqual v cap (List.replicate n v ++ post) = min cap n := by
  induction cap generalizing n with
  | zero => simp [leadingEqual]
  | succ cap ih =>
    cases n with
    | zero =>
      cases post with
      | nil => rfl
      | cons b bytes =>
        have hb : b ≠ v := fun heq => hpost (congrArg some heq)
        rw [List.replicate_zero, List.nil_append, leadingEqual, if_neg hb, Nat.min_zero]
    | succ n => rw [List.replicate_succ, List.cons_append, leadingEqual, if_pos rfl, ih, Nat.succ_min_succ]

/-- The repeat block that begins at a byte `v`. -/
theorem repeatBlocks_of_head? {rest : List Byte} {v : Byte} (h : rest.head? = some v) (M : Nat) :
    repeatBlocks M rest = [.rpt (BitVec.ofNat 16 (Config.threshold +
      leadingEqual v (blockSize M rest - Config.threshold) (rest.drop Config.threshold))) v] := by
  cases rest with
  | nil => cases h
  | cons b bytes =>
    cases h
    rfl

/-- The repeat block at a maximal run takes as much of it as one block may (43_encoder.md R190, R191). -/
theorem repeatBlocks_of_maximal {M L : Nat} (hlo : Config.threshold ≤ M) {v : Byte} {post : List Byte}
    (hpost : post.head? ≠ some v) (hL : Config.threshold ≤ L) :
    repeatBlocks M (List.replicate L v ++ post) = [.rpt (BitVec.ofNat 16 (min L M)) v] := by
  obtain ⟨k, rfl⟩ : ∃ k, L = Config.threshold + k := ⟨_, (Nat.add_sub_cancel' hL).symm⟩
  have hdrop : (List.replicate (Config.threshold + k) v ++ post).drop Config.threshold = List.replicate k v ++ post := by
    rw [List.drop_append_of_le_length (by simp), List.drop_replicate, Nat.add_sub_cancel_left]
  have hcount : Config.threshold + min (blockSize M (List.replicate (Config.threshold + k) v ++ post) -
      Config.threshold) k = min (Config.threshold + k) M := by
    simp only [blockSize, List.length_append, List.length_replicate]
    omega
  have hpos : 0 < Config.threshold := by decide
  rw [repeatBlocks_of_head? (head?_of_run post v (by omega)), hdrop, leadingEqual_replicate_append hpost, hcount]

/-- The first repeat block of a maximal run, and what it leaves. -/
theorem partitionSource_of_maximal {M L : Nat} (hlo : Config.threshold ≤ M) (hhi : M ≤ 65535) {v : Byte}
    {post : List Byte} (hpost : post.head? ≠ some v) (hL : Config.threshold ≤ L) :
    partitionSource M (List.replicate L v ++ post) =
      .rpt (BitVec.ofNat 16 (min L M)) v :: partitionSource M (List.replicate (L - min L M) v ++ post) := by
  have hrun : RunAt (List.replicate L v ++ post) 0 := runAt_of_run [] post v hL
  have hne : List.replicate L v ++ post ≠ [] := by
    rw [← List.length_pos_iff, List.length_append, List.length_replicate]
    simp only [Config.threshold] at hL
    omega
  have hcov : covered [.rpt (BitVec.ofNat 16 (min L M)) v] = min L M := by
    rw [covered_cons, covered_nil, Instr.count, BitVec.toNat_ofNat]
    omega
  rw [partitionSource_eq hlo hhi hne, iteration_of_runAt_zero hlo hrun, repeatBlocks_of_maximal hlo hpost hL, hcov,
    List.drop_append_of_le_length (by simp), List.drop_replicate, List.singleton_append]

/-- What follows the full repeat blocks of a run: one of the remainder, or a source that begins with it. -/
def remainderBlocks (M left : Nat) (v : Byte) (post : List Byte) : List Instr :=
  if 7 ≤ left then .rpt (BitVec.ofNat 16 left) v :: partitionSource M post
  else partitionSource M (List.replicate left v ++ post)

/-- A maximal run is full repeat blocks and its remainder (43_encoder.md R196). -/
theorem partitionSource_of_run {M : Nat} (hlo : Config.threshold ≤ M) (hhi : M ≤ 65535) {v : Byte} {post : List Byte}
    (hpost : post.head? ≠ some v) (L : Nat) :
    partitionSource M (List.replicate L v ++ post) =
      List.replicate (L / M) (Instr.rpt (BitVec.ofNat 16 M) v) ++ remainderBlocks M (L % M) v post := by
  have hM : 7 ≤ M := hlo
  induction L using Nat.strong_induction_on with
  | h L ih =>
    by_cases hlt : L < M
    · rw [Nat.div_eq_of_lt hlt, Nat.mod_eq_of_lt hlt, List.replicate_zero, List.nil_append, remainderBlocks]
      split
      · rename_i hL
        rw [partitionSource_of_maximal hlo hhi hpost hL, Nat.min_eq_left hlt.le, Nat.sub_self, List.replicate_zero,
          List.nil_append]
      · rfl
    · have hle := Nat.le_of_not_lt hlt
      rw [partitionSource_of_maximal hlo hhi hpost (hlo.trans hle), Nat.min_eq_right hle, ih (L - M) (by omega),
        Nat.div_eq_sub_div (by omega) hle, Nat.mod_eq_sub_mod hle, List.replicate_succ, List.cons_append]

/-! ## Up to a run's first byte -/

section
variable {M L : Nat} {v : Byte} {pre post source : List Byte}

/-- An iteration with an earlier run covers no byte of a maximal run after it: its repeat block ends with its own run. -/
theorem covered_iteration_le_of_earlier_run (hlo : Config.threshold ≤ M) (hhi : M ≤ 65535)
    (hsource : source = pre ++ (List.replicate L v ++ post)) (hL : Config.threshold ≤ L) (hpre : pre.getLast? ≠ some v)
    {start : Nat} (hfound : findRun (source.take (blockSize M source)) = some start) (hstart : start < pre.length) :
    covered (iteration M source) ≤ pre.length := by
  have hbound := (findRun_runAt hfound).of_take.bound
  obtain ⟨count, w, -, hblocks, hprefix⟩ := iteration_of_run hlo hhi hfound
  rw [hblocks, covered_append, covered_literalBlocks, List.length_take_of_le (by omega)]
  rw [hsource] at hprefix
  refine Nat.le_of_not_lt fun hlt => ?_
  obtain ⟨hlast, hfirst⟩ := boundary_of_replicate_prefix hprefix hstart hlt
  exact hpre (hlast.trans (hfirst.symm.trans (head?_of_run post v (Nat.lt_of_lt_of_le (by decide) hL))))

/-- An iteration with no run in its block covers no byte of a run of 7: the block ends before the run does, and the trim
moves out the run's bytes (43_encoder.md R187). -/
theorem covered_iteration_le_of_noRun (hsource : source = pre ++ (List.replicate L v ++ post))
    (hL : Config.threshold ≤ L) (hfound : findRun (source.take (blockSize M source)) = none) :
    covered (iteration M source) ≤ pre.length := by
  have hbytes : ∀ i, pre.length ≤ i → i < pre.length + L → source[i]? = some v := fun i hlo hhi =>
    hsource ▸ getElem?_of_run pre post v hlo hhi
  have hrunAt : RunAt source pre.length := hsource ▸ runAt_of_run pre post v hL
  have hlen := hrunAt.bound
  have hshort : blockSize M source < pre.length + Config.threshold := Nat.lt_of_not_le fun hge =>
    not_runAt_of_findRun_none hfound _ (hrunAt.take hge)
  have hpiece := prefixLength_le_blockSize M source
  rw [iteration_of_noRun hfound, covered_literalBlocks, List.length_take, Nat.min_eq_left (prefixLength_le M source)]
  rw [prefixLength_of_trim hfound (by omega)] at hpiece ⊢
  refine Nat.le_of_not_lt fun hlt => getElem?_trimBoundary_pred (Nat.zero_lt_of_lt hlt) ?_
  rw [List.getLast?_eq_getElem?, length_take_blockSize, List.getElem?_take_of_lt (by omega),
    List.getElem?_take_of_lt (by omega), hbytes _ (by omega) (by omega), hbytes _ (by omega) (by omega)]

/-- An iteration that begins before a run of 7 covers no byte of it, unless it is the one that finds it. -/
theorem covered_iteration_le_or_found (hlo : Config.threshold ≤ M) (hhi : M ≤ 65535)
    (hsource : source = pre ++ (List.replicate L v ++ post)) (hL : Config.threshold ≤ L)
    (hpre : pre.getLast? ≠ some v) :
    covered (iteration M source) ≤ pre.length ∨ findRun (source.take (blockSize M source)) = some pre.length := by
  cases hfound : findRun (source.take (blockSize M source)) with
  | none => exact .inl (covered_iteration_le_of_noRun hsource hL hfound)
  | some start =>
    have hrunAt : RunAt source pre.length := hsource ▸ runAt_of_run pre post v hL
    have hbound := findRun_bound hfound
    rw [length_take_blockSize] at hbound
    have hle : start ≤ pre.length := Nat.le_of_not_lt fun hlt => by
      have := findRun_le hfound (hrunAt.take (by omega))
      omega
    rcases Nat.lt_or_eq_of_le hle with hlt | heq
    · exact .inl (covered_iteration_le_of_earlier_run hlo hhi hsource hL hpre hfound hlt)
    · exact .inr (congrArg some heq)

/-- The blocks before a run of 7 end just where it begins, and those after them are the blocks of what begins there
(43_encoder.md R196). -/
theorem partitionSource_before_run (hlo : Config.threshold ≤ M) (hhi : M ≤ 65535) (hL : Config.threshold ≤ L)
    (hpre : pre.getLast? ≠ some v) :
    ∃ before, covered before = pre.length ∧ (pre = [] → before = []) ∧
      partitionSource M (pre ++ (List.replicate L v ++ post)) =
        before ++ partitionSource M (List.replicate L v ++ post) := by
  induction hn : pre.length using Nat.strong_induction_on generalizing pre with
  | h n ih =>
    subst hn
    by_cases hnil : pre = []
    · exact ⟨[], by rw [hnil]; rfl, fun _ => rfl, by rw [hnil]; rfl⟩
    rcases covered_iteration_le_or_found (post := post) hlo hhi rfl hL hpre with hle | hfound
    · have hsource : pre ++ (List.replicate L v ++ post) ≠ [] := List.append_ne_nil_of_left_ne_nil hnil _
      have hpos := covered_iteration_pos hlo hhi hsource
      rw [partitionSource_eq hlo hhi hsource]
      generalize iteration M (pre ++ (List.replicate L v ++ post)) = blocks at *
      have hlast : (pre.drop (covered blocks)).getLast? ≠ some v := by
        rw [List.getLast?_drop]
        split
        · nofun
        · exact hpre
      obtain ⟨before, hcov, -, hbefore⟩ := ih _ (by rw [List.length_drop]; omega) hlast rfl
      refine ⟨blocks ++ before, ?_, fun h => absurd h hnil, ?_⟩
      · rw [covered_append, hcov, List.length_drop, Nat.add_sub_cancel' hle]
      · rw [List.drop_append_of_le_length hle, hbefore, List.append_assoc]
    · refine ⟨literalBlocks pre, covered_literalBlocks pre, fun h => absurd h hnil, ?_⟩
      rw [partitionSource_of_findRun hlo hhi hfound, List.take_left' rfl, List.drop_left' rfl]

/-! ## A run of fewer than 7 bytes -/

/-- The literal piece of a source that begins with a short run holds the run: no run of 7 begins in it, and the trim does
not part equal bytes (43_encoder.md R187). -/
theorem le_prefixLength_of_short_run (hlo : Config.threshold ≤ M) (hpost : post.head? ≠ some v)
    (hshort : L < Config.threshold) : L ≤ prefixLength M (List.replicate L v ++ post) := by
  have hbytes : ∀ i, i < L → (List.replicate L v ++ post)[i]? = some v := fun i hi =>
    getElem?_of_run [] post v (Nat.zero_le i) (by rwa [List.length_nil, Nat.zero_add])
  have hafter : (List.replicate L v ++ post)[L]? ≠ some v := by
    rwa [List.getElem?_append_right (by rw [List.length_replicate]), List.length_replicate, Nat.sub_self,
      ← List.head?_eq_getElem?]
  have hlen : L ≤ (List.replicate L v ++ post).length := by simp
  generalize List.replicate L v ++ post = source at *
  refine Nat.le_of_not_lt fun hlt => ?_
  cases hfound : findRun (source.take (blockSize M source)) with
  | some start =>
    rw [prefixLength_of_run hfound] at hlt
    obtain ⟨w, hw⟩ := (findRun_runAt hfound).of_take
    have hstart := hw 0 (by decide)
    have hnext := hw (L - start) (by omega)
    rw [Nat.add_zero, hbytes start hlt] at hstart
    rw [Nat.add_sub_cancel' hlt.le, ← hstart] at hnext
    exact hafter hnext
  | none =>
    have hpart : blockSize M source ≠ source.length := fun hall => by
      rw [prefixLength_of_last hfound hall] at hlt
      omega
    have hsize : blockSize M source = M := by simp only [blockSize] at hpart ⊢; omega
    have htrim := prefixLength_of_trim hfound hpart
    have hpos := prefixLength_pos_of_noRun hlo (List.length_pos_iff.mp (by omega)) hfound
    rw [htrim] at hlt hpos
    refine getElem?_trimBoundary_pred hpos ?_
    rw [← getElem?_of_trimBoundary_le (Nat.le_refl _) (by rw [length_take_blockSize]; omega),
      List.getElem?_take_of_lt (by omega), List.getElem?_take_of_lt (by omega), hbytes _ (by omega), hbytes _ hlt]

/-- A source that begins with a short run begins with a literal block that holds it (43_encoder.md R197). -/
theorem partitionSource_of_short_run (hlo : Config.threshold ≤ M) (hhi : M ≤ 65535) (hpost : post.head? ≠ some v)
    (hpos : 1 ≤ L) (hshort : L < Config.threshold) :
    ∃ more after, partitionSource M (List.replicate L v ++ post) = .lit (List.replicate L v ++ more) :: after := by
  have hle := le_prefixLength_of_short_run hlo hpost hshort
  obtain ⟨more, hpiece⟩ : List.replicate L v <+:
      (List.replicate L v ++ post).take (prefixLength M (List.replicate L v ++ post)) :=
    List.prefix_take_iff.mpr ⟨List.prefix_append .., by rwa [List.length_replicate]⟩
  have hne : List.replicate L v ++ post ≠ [] :=
    List.append_ne_nil_of_left_ne_nil (List.length_pos_iff.mp (by rwa [List.length_replicate])) _
  have hliteral : literalBlocks (List.replicate L v ++ more) = [.lit (List.replicate L v ++ more)] := by
    cases L with
    | zero => cases hpos
    | succ n => rfl
  obtain ⟨tail, htail⟩ : ∃ tail, partitionSource M (List.replicate L v ++ post) =
      iteration M (List.replicate L v ++ post) ++ tail := ⟨_, partitionSource_eq hlo hhi hne⟩
  rcases iteration_eq_literalBlocks hlo hhi (List.replicate L v ++ post) with hblocks | ⟨count, w, hblocks⟩
  · rw [htail, hblocks, ← hpiece, hliteral, List.singleton_append]
    exact ⟨more, _, rfl⟩
  · rw [htail, hblocks, ← hpiece, hliteral, List.append_assoc, List.singleton_append]
    exact ⟨more, _, rfl⟩

/-- No repeat block holds a byte of a short run: the bytes around it differ from it (43_encoder.md R197). -/
theorem replicate_avoids_short_run (hpre : pre.getLast? ≠ some v) (hpost : post.head? ≠ some v)
    (hpos : 1 ≤ L) (hshort : L < Config.threshold) {c n : Nat} {w : Byte} (hn : Config.threshold ≤ n)
    (h : List.replicate n w <+: (pre ++ (List.replicate L v ++ post)).drop c) :
    c + n ≤ pre.length ∨ pre.length + L ≤ c := by
  by_contra hmeets
  obtain ⟨hbefore, hafter⟩ := not_or.mp hmeets
  by_cases hc : c < pre.length
  · obtain ⟨hlast, hfirst⟩ := boundary_of_replicate_prefix h hc (Nat.lt_of_not_le hbefore)
    exact hpre (hlast.trans (hfirst.symm.trans (head?_of_run post v hpos)))
  · have hlen : (pre ++ List.replicate L v).length = pre.length + L := by simp
    rw [← List.append_assoc] at h
    obtain ⟨hlast, hfirst⟩ := boundary_of_replicate_prefix h (by omega) (by omega)
    rw [List.getLast?_append, List.getLast?_replicate, if_neg (by omega), Option.some_or] at hlast
    exact hpost (hfirst.trans hlast.symm)

end

/-- Settles O32. -/
theorem equalBytesSplitIntoRepeats : Obligations.EqualBytesSplitIntoRepeats := by
  unfold Obligations.EqualBytesSplitIntoRepeats
  intro M L v pre post hlo hhi hpre hpost
  refine ⟨fun hL => ?_, fun hpos hshort => partitionSource_of_short_run hlo hhi hpost hpos (Nat.lt_succ_of_le hshort),
    fun hpos hshort before count value after h => ?_⟩
  · obtain ⟨before, hcov, hnil, hbefore⟩ := partitionSource_before_run (post := post) hlo hhi hL hpre
    refine ⟨before, hcov, hnil, ?_⟩
    rw [hbefore, partitionSource_of_run hlo hhi hpost, ← List.append_assoc]
    rfl
  · have hcount : Config.threshold ≤ count.toNat :=
      (emitted_partitionSource hlo hhi _ (.rpt count value) (by rw [h]; simp)).1
    refine replicate_avoids_short_run hpre hpost hpos (Nat.lt_succ_of_le hshort) hcount (w := value) ?_
    have hslice := partitionSource_slice hlo hhi h
    rw [expand_rpt] at hslice
    rw [← hslice]
    exact List.take_prefix ..

end Sys2Proof.Machine
end

section
/-! PROOFS. Fault entries and outcomes: where an instruction takes a fault entry, what a fault entry leaves behind, and
that an engine that ended keeps its outcome until START or reset (60_exceptions.md R232 to R241). -/

namespace Sys2Proof.Machine

/-! ## Where an instruction takes a fault entry -/

/-- HDR in a stream of fewer than 4 bytes ends the operation (60_exceptions.md R232). -/
theorem exec_hdr_of_truncated {s : State} (length : Word) (hn : s.dec.job.n.toNat < 4) :
    exec (.hdr length) s = .next (s.raiseFault .dec .truncated 0#32) :=
  if_pos hn

/-- A block past the end of the stream ends the operation (60_exceptions.md R232). -/
theorem exec_of_truncated {s : State} {i : Instr} (hp : i.position = .block)
    (hn : s.dec.job.n.toNat < s.dec.rd.toNat + i.length) :
    exec i s = .next (s.raiseFault .dec .truncated s.dec.rd) := by
  rw [exec_block hp, State.decodeBlockInto, if_pos hn]

/-- Settles O9: a block's check against the capacity comes after its check against the stream. -/
theorem instructionsFaultInOrder : Obligations.InstructionsFaultInOrder := by
  unfold Obligations.InstructionsFaultInOrder
  intro s
  exact ⟨exec_hdr_of_truncated, fun _ => exec_of_truncated, fun _ => exec_of_overflow⟩

/-! ## What a fault entry leaves behind -/

/-- A fault entry leaves the STATUS of an operation that ended with the error. -/
theorem raiseFault_status (s : State) (e : Engine) (err : ErrCode) (off : Word) :
    ((s.raiseFault e err off).regs e).status = .ended err := by
  cases e <;> rfl

/-- Settles O21: M is the old one with the DST window made unspecified, OUT_LEN is open because of the error, and the
engine is idle. -/
theorem faultEntry : Obligations.FaultEntry := by
  unfold Obligations.FaultEntry
  intro s e err off herr t
  have hst : (t.regs e).status = .ended err := raiseFault_status s e err off
  have hmem : t.mem = s.mem.unspecify (s.job e).dstWindow s.draws := raiseFault_mem s e err off
  refine ⟨hst, (outLenReads t e).1 (.inr (by rwa [hst])), fun a ha => ?_, fun a ha => ?_,
    raiseFault_hdrLen s e err off, ?_⟩
  · rw [hmem, read_unspecify_inside _ ha]
  · rw [hmem, read_unspecify_outside _ ha]
  · cases e with
    | enc => exact ⟨rfl, encStep_of_idle rfl⟩
    | dec => exact ⟨rfl, decStep_of_idle rfl⟩

/-! ## Outcomes -/

/-- From `s` to `t` the encoder keeps STATUS, OUT_LEN and its internal state. -/
structure EncOutcomeKept (s t : State) : Prop where
  status : t.encRegs.status = s.encRegs.status
  outLen : t.encRegs.outLen = s.encRegs.outLen
  enc : t.enc = s.enc

/-- From `s` to `t` the decoder keeps STATUS, OUT_LEN, its internal state, LENMM, HDR_LEN and ERR_OFF. -/
structure DecOutcomeKept (s t : State) : Prop where
  status : t.decRegs.status = s.decRegs.status
  outLen : t.decRegs.outLen = s.decRegs.outLen
  dec : t.dec = s.dec
  lenmm : t.lenmm = s.lenmm
  hdrLen : t.hdrLen = s.hdrLen
  errOff : t.errOff = s.errOff

theorem EncOutcomeKept.refl (s : State) : EncOutcomeKept s s := ⟨rfl, rfl, rfl⟩

theorem DecOutcomeKept.refl (s : State) : DecOutcomeKept s s := ⟨rfl, rfl, rfl, rfl, rfl, rfl⟩

theorem OnlyDecoderMoved.encOutcomeKept {s t : State} (h : OnlyDecoderMoved s t) : EncOutcomeKept s t :=
  ⟨congrArg _ h.encRegs, congrArg _ h.encRegs, h.enc⟩

theorem OnlyEncoderMoved.decOutcomeKept {s t : State} (h : OnlyEncoderMoved s t) : DecOutcomeKept s t :=
  ⟨congrArg _ h.decRegs, congrArg _ h.decRegs, h.dec, h.lenmm, h.hdrLen, h.errOff⟩

/-- A write of any register but ENC_CTRL with START keeps the encoder's outcome. -/
theorem writeReg_encOutcomeKept (s : State) {r : Reg} {value : Word}
    (h : r = .encCtrl → startBit value = false) : EncOutcomeKept s (s.writeReg r value) := by
  cases r with
  | encCtrl =>
    rw [writeReg_encCtrl_noStart (h rfl)]
    exact .refl s
  | decCtrl =>
    cases hv : startBit value with
    | false =>
      rw [writeReg_decCtrl_noStart hv]
      exact .refl s
    | true =>
      obtain ⟨henc, hregs⟩ := decStart_encoder s
      rw [writeReg_decCtrl_start hv]
      exact ⟨congrArg _ hregs, congrArg _ hregs, henc⟩
  | _ => exact ⟨rfl, rfl, rfl⟩

/-- A write of any register but DEC_CTRL with START keeps the decoder's outcome. -/
theorem writeReg_decOutcomeKept (s : State) {r : Reg} {value : Word}
    (h : r = .decCtrl → startBit value = false) : DecOutcomeKept s (s.writeReg r value) := by
  cases r with
  | decCtrl =>
    rw [writeReg_decCtrl_noStart (h rfl)]
    exact .refl s
  | encCtrl =>
    cases hv : startBit value with
    | false =>
      rw [writeReg_encCtrl_noStart hv]
      exact .refl s
    | true =>
      obtain ⟨hdec, hregs, hlenmm, hhdrLen, herrOff⟩ := encStart_decoder s
      rw [writeReg_encCtrl_start hv]
      exact ⟨congrArg _ hregs, congrArg _ hregs, hdec, hlenmm, hhdrLen, herrOff⟩
  | _ => exact ⟨rfl, rfl, rfl, rfl, rfl, rfl⟩

/-! ## What a step does to the outcomes -/

/-- From `s` to `t` both engines keep their outcome. -/
structure OutcomesKept (s t : State) : Prop where
  enc : EncOutcomeKept s t
  dec : DecOutcomeKept s t

theorem OutcomesKept.refl (s : State) : OutcomesKept s s := ⟨.refl s, .refl s⟩

/-- Setting the refused mark keeps both outcomes. -/
theorem outcomesKept_refuse (s : State) : OutcomesKept s { s with refused := true } :=
  ⟨⟨rfl, rfl, rfl⟩, ⟨rfl, rfl, rfl, rfl, rfl, rfl⟩⟩

/-- The answer of a host read keeps both outcomes. -/
theorem outcomesKept_answer (s : State) (r : Response) :
    OutcomesKept s { s with response := r, draws := s.draws + 1 } :=
  ⟨⟨rfl, rfl, rfl⟩, ⟨rfl, rfl, rfl, rfl, rfl, rfl⟩⟩

/-- An event that is no reset is a step of an engine, a write of a register, or keeps both outcomes. -/
theorem runEvent_outcomes {event : Event} {s t : State} (h : runEvent event s = .next t) (hreset : event ≠ .reset) :
    encStep s = .next t ∨ decStep s = .next t ∨
    (∃ width r value, event = .regWrite width (Reg.offset r) value ∧ t = s.writeReg r value) ∨ OutcomesKept s t := by
  cases event with
  | reset => exact absurd rfl hreset
  | encStep => exact .inl h
  | decStep => exact .inr (.inl h)
  | regWrite width offset value =>
    cases h
    rcases hostRegWrite_cases s width offset value with ⟨-, h⟩ | ⟨-, r, rfl, h⟩ | ⟨-, -, h⟩ <;> rw [h]
    · exact .inr (.inr (.inr (outcomesKept_refuse s)))
    · exact .inr (.inr (.inl ⟨width, r, value, rfl, rfl⟩))
    · exact .inr (.inr (.inr (.refl s)))
  | regRead width offset =>
    cases h
    refine .inr (.inr (.inr ?_))
    unfold State.hostRegRead
    split
    · exact outcomesKept_answer s _
    · exact outcomesKept_refuse s
  | memWrite addr bytes =>
    refine .inr (.inr (.inr ?_))
    rcases (hostMemWrite_cases h).2 with ⟨-, rfl⟩ | ⟨-, rfl⟩
    · exact outcomesKept_refuse s
    · exact ⟨⟨rfl, rfl, rfl⟩, ⟨rfl, rfl, rfl, rfl, rfl, rfl⟩⟩
  | memRead addr len =>
    rw [hostMemRead_next h]
    exact .inr (.inr (.inr (outcomesKept_answer s _)))

/-- A step that is no reset is a step of an engine, a write of a register, or keeps both outcomes. -/
theorem step_outcomes {s t : State} (h : step s = .next t) (hreset : s.agenda.head? ≠ some .reset) :
    encStep s.popped = .next t ∨ decStep s.popped = .next t ∨
    (∃ width r value, s.agenda.head? = some (.regWrite width (Reg.offset r) value) ∧ t = s.popped.writeReg r value) ∨
    OutcomesKept s.popped t := by
  rcases (step_cases h).2 with ⟨event, rest, ha, h⟩ | ⟨ha, -, h⟩ | ⟨ha, -, -, h⟩ | ⟨ha, -, -, rfl⟩
  · have hhead : s.agenda.head? = some event := by simp [ha]
    rw [hhead] at hreset ⊢
    simpa only [Option.some.injEq] using runEvent_outcomes h fun he => hreset (congrArg some he)
  · exact .inr (.inl (by rwa [popped_of_nil ha]))
  · exact .inl (by rwa [popped_of_nil ha])
  · exact .inr (.inr (.inr (by rw [popped_of_nil ha]; exact .refl t)))

/-! ## An engine that ended -/

/-- An encoder whose operation ended is idle. -/
theorem EncInv.idle_of_done {s : State} (h : EncInv s) (hdone : s.encRegs.status.done = true) : s.enc.phase = .idle :=
  of_not_not fun hp => h.exclusive ⟨h.busyPhase.mpr hp, hdone⟩

/-- A decoder whose operation ended is idle. -/
theorem DecInv.idle_of_done {s : State} (h : DecInv s) (hdone : s.decRegs.status.done = true) : s.dec.phase = .idle :=
  of_not_not fun hp => h.exclusive ⟨h.busyPhase.mpr hp, hdone⟩

/-- A step keeps the outcome of an idle encoder, unless it is a reset or a START of the encoder. -/
theorem step_encOutcomeKept {s t : State} (h : step s = .next t) (hreset : s.agenda.head? ≠ some .reset)
    (hidle : s.enc.phase = .idle)
    (hstart : ∀ w v, s.agenda.head? = some (.regWrite w 0x10 v) → v.getLsbD 0 = false) :
    EncOutcomeKept s.popped t := by
  rcases step_outcomes h hreset with h | h | ⟨width, r, value, hhead, rfl⟩ | hkept
  · rw [encStep_of_idle (s := s.popped) hidle] at h
    cases h
    exact .refl _
  · exact (decStep_onlyDecoderMoved h).encOutcomeKept
  · exact writeReg_encOutcomeKept _ fun hr => hstart width value (by rw [hhead, hr]; rfl)
  · exact hkept.enc

/-- A step keeps the outcome of an idle decoder, unless it is a reset or a START of the decoder. -/
theorem step_decOutcomeKept {s t : State} (h : step s = .next t) (hreset : s.agenda.head? ≠ some .reset)
    (hidle : s.dec.phase = .idle)
    (hstart : ∀ w v, s.agenda.head? = some (.regWrite w 0x30 v) → v.getLsbD 0 = false) :
    DecOutcomeKept s.popped t := by
  rcases step_outcomes h hreset with h | h | ⟨width, r, value, hhead, rfl⟩ | hkept
  · exact (encStep_onlyEncoderMoved h).decOutcomeKept
  · rw [decStep_of_idle (s := s.popped) hidle] at h
    cases h
    exact .refl _
  · exact writeReg_decOutcomeKept _ fun hr => hstart width value (by rw [hhead, hr]; rfl)
  · exact hkept.dec

/-- Settles O22: by the invariant an engine with DONE is idle, and a step keeps the outcome of an idle engine. -/
theorem outcomeStays : Obligations.OutcomeStays := by
  unfold Obligations.OutcomeStays
  intro s t hi h hreset
  refine ⟨fun hdone hstart => ?_, fun hdone hstart => ?_⟩
  · obtain ⟨hst, hout, henc⟩ := step_encOutcomeKept h hreset (hi.enc.idle_of_done hdone) hstart
    exact ⟨hst, hout, henc⟩
  · obtain ⟨hst, hout, hdec, hlenmm, hhdrLen, herrOff⟩ :=
      step_decOutcomeKept h hreset (hi.dec.idle_of_done hdone) hstart
    exact ⟨hst, hout, hdec, hlenmm, hhdrLen, herrOff⟩

end Sys2Proof.Machine
end

section
/-! PROOFS. Reset: the values after it, and what the reset input leaves of M (70_reset_and_hazards.md R260, R261). -/

namespace Sys2Proof.Machine

/-! ## The state after reset -/

@[simp] theorem readReg_reset_cfg : State.reset.readReg .cfg = 0x0000FFFF#32 := rfl

/-- Every register but CFG reads 0 after reset; OUT_LEN is no free draw there, for neither engine is busy or has an
error. -/
theorem readReg_reset_of_ne_cfg {r : Reg} (h : r ≠ .cfg) : State.reset.readReg r = 0#32 := by
  cases r with
  | cfg => exact absurd rfl h
  | _ => rfl

/-- Settles O53: the registers by the two lemmas above, the phases and the mark as `State.reset` has them. -/
theorem resetValues : Obligations.ResetValues := by
  unfold Obligations.ResetValues
  exact ⟨readReg_reset_cfg, fun _ => readReg_reset_of_ne_cfg, rfl, rfl, rfl⟩

/-- Settles O55: nothing is written to M, and the idle engines that reset leaves meet their parts. -/
theorem invariantHoldsAtReset : Obligations.InvariantHoldsAtReset := by
  unfold Obligations.InvariantHoldsAtReset
  exact
    { memWf := by decide
      drawn := by decide
      cfgReserved := by decide
      enc := encInv_reset
      dec := decInv_reset
      apart := fun he => absurd rfl he }

/-! ## The reset input -/

/-- Abandoning an operation makes one draw if the engine is busy, and none if it is not. -/
theorem abandon_draws (s : State) (e : Engine) :
    (s.abandon e).draws = if s.busy e = true then s.draws + 1 else s.draws := by
  unfold State.abandon
  split <;> rfl

/-- Abandoning an operation leaves the DST windows of busy engines where they are. -/
theorem inDst_abandon_iff (s : State) (e f : Engine) (a : Nat) :
    ((s.abandon e).busy f = true ∧ ((s.abandon e).job f).dstWindow.contains a) ↔
      (s.busy f = true ∧ (s.job f).dstWindow.contains a) := by
  rw [abandon_busy, abandon_job]

theorem applyReset_mem (s : State) : s.applyReset.mem = ((s.abandon .enc).abandon .dec).mem := rfl

theorem applyReset_draws (s : State) : s.applyReset.draws = ((s.abandon .enc).abandon .dec).draws := rfl

@[simp] theorem applyReset_agenda (s : State) : s.applyReset.agenda = s.agenda := by
  simp [State.applyReset]

/-- A register reads after the reset input as it does in the reset state. -/
@[simp] theorem readReg_applyReset (s : State) (r : Reg) : s.applyReset.readReg r = State.reset.readReg r := by
  cases r <;> rfl

/-- The reset input changes no byte outside the DST windows of busy engines. -/
theorem read_applyReset_outside {s : State} {a : Nat} (h : ¬ s.inBusyDst a) :
    s.applyReset.mem.read a = s.mem.read a := by
  obtain ⟨henc, hdec⟩ := not_or.mp h
  calc s.applyReset.mem.read a
    _ = (s.abandon .enc).mem.read a := by
      rw [applyReset_mem]
      exact read_abandon_outside fun hd => hdec ((inDst_abandon_iff ..).mp hd)
    _ = s.mem.read a := read_abandon_outside henc

/-- The reset input makes every byte of a busy engine's DST window a free draw of its own. The decoder's window is
abandoned last, so its draw stands where the two windows meet. -/
theorem read_applyReset_inside {s : State} {a : Nat} (h : s.inBusyDst a) :
    ∃ d, s.draws ≤ d ∧ d < s.applyReset.draws ∧ s.applyReset.mem.read a = Config.freeByte d a := by
  rw [applyReset_mem, applyReset_draws]
  by_cases hdec : s.busy .dec = true ∧ s.dec.job.dstWindow.contains a
  · obtain ⟨hb, hc⟩ := (inDst_abandon_iff s .enc .dec a).mpr hdec
    refine ⟨(s.abandon .enc).draws, ?_, ?_, read_abandon_inside hb hc⟩
    · rw [abandon_draws]
      split <;> omega
    · rw [abandon_draws (s.abandon .enc), if_pos hb]
      omega
  · obtain ⟨hb, hc⟩ := h.resolve_right hdec
    refine ⟨s.draws, le_rfl, ?_, ?_⟩
    · simp only [abandon_draws, abandon_busy, hb, if_true]
      split <;> omega
    · rw [read_abandon_outside fun hd => hdec ((inDst_abandon_iff ..).mp hd)]
      exact read_abandon_inside hb hc

/-- Settles O54: the step is `applyReset` of the popped state, whose registers are those of the reset state and whose M
differs in the abandoned DST windows only. -/
theorem resetInput : Obligations.ResetInput := by
  unfold Obligations.ResetInput
  intro s hturn
  refine ⟨s.popped.applyReset, step_hasTurn hturn, ?_⟩
  refine ⟨?cfg, ?others, rfl, rfl, applyReset_refused _, applyReset_agenda _, ?outside, ?inside⟩
  case cfg => rw [readReg_applyReset, readReg_reset_cfg]
  case others =>
    intro r hr
    rw [readReg_applyReset, readReg_reset_of_ne_cfg hr]
  case outside => exact fun a ha => read_applyReset_outside (s := s.popped) ha
  case inside => exact fun a ha => read_applyReset_inside (s := s.popped) ha

end Sys2Proof.Machine
end
